-- ==== Sys2Proof/Word.lean ====
section
/-! DEFINITION. Word.lean: the widths of ECJ-CORE's values (20_memory.md R64, 30_encoding.md R73) and the two variants
(00_scope.md R2). Every value is unsigned (R15). -/

namespace Sys2Proof

/-- A command word, u32 (R73). -/
abbrev CmdWord := BitVec 32

/-- One input or output byte, u8 (R64). -/
abbrev Byte := BitVec 8

/-- A code point on the symbol port, in the ROM or in `SYM_OUT`, u21 (R61, R64). -/
abbrev CodePoint := BitVec 21

/-- A chunk, the index of a Main table, u10 (R22). -/
abbrev Chunk := BitVec 10

/-- The index of a Tail table, u2 (R85). -/
abbrev TailIdx := BitVec 2

/-- A ROM address, 12 bits (R55). -/
abbrev RomAddr := BitVec 12

/-- The width of the wrap setting and of the column counter, u24 (R30, R31). -/
abbrev WrapCount := BitVec 24

/-- The two alphabet and framing variants (R2, R19). -/
inductive Variant where
  | V1
  | V2
  deriving DecidableEq, Repr, Inhabited

end Sys2Proof
end

