-- ==== Sys2Proof/Syntax.lean ====
section
/-! DEFINITION. Syntax.lean: the eleven commands (30_encoding.md R80), one constructor per row of
spec/opcode_table.json, and the assembler lines, pseudo-instructions among them (R92 to R96). Operand widths are those
of R83. -/

namespace Sys2Proof

/-- The commands of ECJ-CORE (R80). -/
inductive Instr where
  /-- `enc.start V, wrap` (42_encoder.md R120). -/
  | encStart (v : Variant) (wrap : WrapCount)
  /-- `enc.byte b` (R121). -/
  | encByte (b : Byte)
  /-- `enc.end` (R123). -/
  | encEnd
  /-- `dec.start` (43_decoder.md R132). -/
  | decStart
  /-- `dec.sym cp` (R133). -/
  | decSym (cp : CodePoint)
  /-- `dec.end` (R140). -/
  | decEnd
  /-- `map.main V, i` (40_alphabet_mapper.md R104). -/
  | mapMain (v : Variant) (i : Chunk)
  /-- `map.tail V, t` (R105). -/
  | mapTail (v : Variant) (t : TailIdx)
  /-- `map.pad` (R106). -/
  | mapPad
  /-- `map.rev cp` (R108). -/
  | mapRev (cp : CodePoint)
  /-- `clr.cmderr` (44_control.md R148). -/
  | clrCmdErr
  deriving DecidableEq, Repr

/-- A line of the assembler (R92), its numbers not yet held to a range, and the four pseudo-instructions (R93 to
R96). -/
inductive AsmLine where
  | encStart (v : Variant) (wrap : Nat)
  | encByte (imm8 : Nat)
  | encEnd
  | decStart
  | decSym (cp : Nat)
  | decEnd
  | mapMain (v : Variant) (idx10 : Nat)
  | mapTail (v : Variant) (idx2 : Nat)
  | mapPad
  | mapRev (cp : Nat)
  | clrCmdErr
  /-- `enc.bytes b0, ..., bk` (R93). -/
  | encBytes (bs : List Nat)
  /-- `dec.syms cp0, ..., cpk` (R94). -/
  | decSyms (cps : List Nat)
  /-- `encode V, wrap, [b0, ..., bk]` (R95). -/
  | encodeMsg (v : Variant) (wrap : Nat) (bs : List Nat)
  /-- `decode [cp0, ..., cpk]` (R96). -/
  | decodeStream (cps : List Nat)
  deriving DecidableEq, Repr

/-- A command as the assembler line that spells it (R92). -/
def Instr.toAsm : Instr → AsmLine
  | .encStart v wrap => .encStart v wrap.toNat
  | .encByte b => .encByte b.toNat
  | .encEnd => .encEnd
  | .decStart => .decStart
  | .decSym cp => .decSym cp.toNat
  | .decEnd => .decEnd
  | .mapMain v i => .mapMain v i.toNat
  | .mapTail v t => .mapTail v t.toNat
  | .mapPad => .mapPad
  | .mapRev cp => .mapRev cp.toNat
  | .clrCmdErr => .clrCmdErr

end Sys2Proof
end

