-- ==== Sys2Proof/WellFormed.lean ====
section
/-! DEFINITION. WellFormed.lean: the operand ranges of the assembler (30_encoding.md R92). A line with an operand out of
range is an assembly error, not a word. A command's operands are held in vectors of exactly their fields' widths (R83),
so every command is well-formed; the checks refuse lines. -/

namespace Sys2Proof

/-- `wrap` below 2^24 (R92, R30). -/
def wrapInRange (wrap : Nat) : Bool := wrap < 2 ^ 24

/-- `imm8` at most 255 (R92). -/
def imm8InRange (imm8 : Nat) : Bool := imm8 ≤ 255

/-- `cp` at most 0x1FFFFF (R92). -/
def cpInRange (cp : Nat) : Bool := cp ≤ 0x1FFFFF

/-- `idx10` at most 1023 (R92). -/
def idx10InRange (idx10 : Nat) : Bool := idx10 ≤ 1023

/-- `idx2` at most 3 (R92). -/
def idx2InRange (idx2 : Nat) : Bool := idx2 ≤ 3

/-- A line all of whose operands are in range (R92); a pseudo-instruction's operands are those of the lines it expands
to (R93 to R96). -/
def AsmLine.wellFormed : AsmLine → Bool
  | .encStart _ wrap => wrapInRange wrap
  | .encByte imm8 => imm8InRange imm8
  | .encEnd => true
  | .decStart => true
  | .decSym cp => cpInRange cp
  | .decEnd => true
  | .mapMain _ idx10 => idx10InRange idx10
  | .mapTail _ idx2 => idx2InRange idx2
  | .mapPad => true
  | .mapRev cp => cpInRange cp
  | .clrCmdErr => true
  | .encBytes bs => bs.all imm8InRange
  | .decSyms cps => cps.all cpInRange
  | .encodeMsg _ wrap bs => wrapInRange wrap && bs.all imm8InRange
  | .decodeStream cps => cps.all cpInRange

/-- A command is well-formed when the line that spells it is. -/
def Instr.wellFormed (i : Instr) : Bool := i.toAsm.wellFormed

end Sys2Proof
end

