-- ==== Sys2Proof/Decode.lean ====
section
/-! DEFINITION. Decode.lean: the command word. The decoder of 30_encoding.md R81, total on every 32-bit word and
refusing an illegal word by the clause of R82 it falls under; the encoder, written from the formats R75 to R79; the
opcode map R80 as data; and the assembler R92 to R96. -/

namespace Sys2Proof

/-- Why a word is illegal (R82): one constructor for each clause of the rule's list. -/
inductive Illegal where
  /-- Opcodes 0x0 and 0xA..0xF. -/
  | reservedOpcode
  /-- A 1 in an MBZ bit of the word's format (R74). -/
  | mbzBitSet
  /-- `TSEL = 0b11` under opcode 0x7 (R79). -/
  | reservedTsel
  deriving DecidableEq, Repr

/-- The bit that holds a variant: 0 = V1, 1 = V2 (R19). -/
def variantBit : Variant → BitVec 1
  | .V1 => 0#1
  | .V2 => 1#1

/-- The variant a bit holds (R19, R83). -/
def variantOfBit (b : Bool) : Variant := if b then .V2 else .V1

/-- `w[lo+len-1 : lo]`, the field of `len` bits at bit `lo` (R15). -/
def field (w : CmdWord) (lo len : Nat) : BitVec len := w.extractLsb' lo len

/-- An instruction if its MBZ bits are zero (R74). -/
def whenMbz (mbzZero : Bool) (i : Instr) : Except Illegal Instr :=
  if mbzZero then .ok i else .error .mbzBitSet

/-- The sub-forms of opcode 0x7 (R79), tested in the order of R81. -/
def decodeMap (w : CmdWord) : Except Illegal Instr :=
  if field w 10 15 ≠ 0#15 then .error .mbzBitSet
  else match (field w 25 2).toNat with
    | 0 => .ok (.mapMain (variantOfBit (w.getLsbD 27)) (field w 0 10))
    | 1 => whenMbz (field w 2 8 == 0#8) (.mapTail (variantOfBit (w.getLsbD 27)) (field w 0 2))
    | 2 => whenMbz (field w 27 1 == 0#1 && field w 0 10 == 0#10) .mapPad
    | _ => .error .reservedTsel

/-- `Decode(w)` (R81). -/
def decode (w : CmdWord) : Except Illegal Instr :=
  match (field w 28 4).toNat with
  | 0x1 => whenMbz (field w 24 3 == 0#3) (.encStart (variantOfBit (w.getLsbD 27)) (field w 0 24))
  | 0x2 => whenMbz (field w 8 20 == 0#20) (.encByte (field w 0 8))
  | 0x3 => whenMbz (field w 0 28 == 0#28) .encEnd
  | 0x4 => whenMbz (field w 0 28 == 0#28) .decStart
  | 0x5 => whenMbz (field w 21 7 == 0#7) (.decSym (field w 0 21))
  | 0x6 => whenMbz (field w 0 28 == 0#28) .decEnd
  | 0x7 => decodeMap w
  | 0x8 => whenMbz (field w 21 7 == 0#7) (.mapRev (field w 0 21))
  | 0x9 => whenMbz (field w 0 28 == 0#28) .clrCmdErr
  | _ => .error .reservedOpcode

/-- Format N (R75): OP, then 28 MBZ bits. -/
def formatN (op : BitVec 4) : CmdWord := op ++ 0#28

/-- Format S (R76): OP, V, 3 MBZ bits, WRAP. -/
def formatS (v : Variant) (wrap : WrapCount) : CmdWord := 0x1#4 ++ variantBit v ++ 0#3 ++ wrap

/-- Format B (R77): OP, 20 MBZ bits, BYTE. -/
def formatB (b : Byte) : CmdWord := 0x2#4 ++ 0#20 ++ b

/-- Format C (R78): OP, 7 MBZ bits, CP. -/
def formatC (op : BitVec 4) (cp : CodePoint) : CmdWord := op ++ 0#7 ++ cp

/-- Format M (R79): OP, V, TSEL, 15 MBZ bits, IDX. -/
def formatM (v : BitVec 1) (tsel : BitVec 2) (idx : BitVec 10) : CmdWord := 0x7#4 ++ v ++ tsel ++ 0#15 ++ idx

/-- The word of a command (R75 to R79, R92). -/
def encode : Instr → CmdWord
  | .encStart v wrap => formatS v wrap
  | .encByte b => formatB b
  | .encEnd => formatN 0x3#4
  | .decStart => formatN 0x4#4
  | .decSym cp => formatC 0x5#4 cp
  | .decEnd => formatN 0x6#4
  | .mapMain v i => formatM (variantBit v) 0b00#2 i
  | .mapTail v t => formatM (variantBit v) 0b01#2 (0#8 ++ t)
  | .mapPad => formatM 0#1 0b10#2 0#10
  | .mapRev cp => formatC 0x8#4 cp
  | .clrCmdErr => formatN 0x9#4

/-- One row of the opcode map (R80). -/
structure OpcodeRow where
  mnemonic : String
  matchBits : CmdWord
  maskBits : CmdWord
  deriving DecidableEq, Repr

/-- The row a command belongs to (R80). -/
def opcodeRow : Instr → OpcodeRow
  | .encStart _ _ => ⟨"enc.start", 0x10000000#32, 0xF7000000#32⟩
  | .encByte _ => ⟨"enc.byte", 0x20000000#32, 0xFFFFFF00#32⟩
  | .encEnd => ⟨"enc.end", 0x30000000#32, 0xFFFFFFFF#32⟩
  | .decStart => ⟨"dec.start", 0x40000000#32, 0xFFFFFFFF#32⟩
  | .decSym _ => ⟨"dec.sym", 0x50000000#32, 0xFFE00000#32⟩
  | .decEnd => ⟨"dec.end", 0x60000000#32, 0xFFFFFFFF#32⟩
  | .mapMain _ _ => ⟨"map.main", 0x70000000#32, 0xF7FFFC00#32⟩
  | .mapTail _ _ => ⟨"map.tail", 0x72000000#32, 0xF7FFFFFC#32⟩
  | .mapPad => ⟨"map.pad", 0x74000000#32, 0xFFFFFFFF#32⟩
  | .mapRev _ => ⟨"map.rev", 0x80000000#32, 0xFFE00000#32⟩
  | .clrCmdErr => ⟨"clr.cmderr", 0x90000000#32, 0xFFFFFFFF#32⟩

/-- The opcode map, one row per command in the order of R80. -/
def opcodeMap : List OpcodeRow :=
  [opcodeRow (.encStart .V1 0#24), opcodeRow (.encByte 0#8), opcodeRow .encEnd, opcodeRow .decStart,
   opcodeRow (.decSym 0#21), opcodeRow .decEnd, opcodeRow (.mapMain .V1 0#10), opcodeRow (.mapTail .V1 0#2),
   opcodeRow .mapPad, opcodeRow (.mapRev 0#21), opcodeRow .clrCmdErr]

/-- A word fits a row: `(w & mask) = match` (R81). -/
def OpcodeRow.fits (r : OpcodeRow) (w : CmdWord) : Bool := w &&& r.maskBits == r.matchBits

/-- Two rows that no word fits together: `(match1 XOR match2) & mask1 & mask2 != 0` (R80). -/
def OpcodeRow.apartFrom (r q : OpcodeRow) : Bool :=
  (r.matchBits ^^^ q.matchBits) &&& r.maskBits &&& q.maskBits != 0#32

/-- `enc.bytes` (R93). -/
def encBytesInstrs (bs : List Byte) : List Instr := bs.map .encByte

/-- `dec.syms` (R94). -/
def decSymsInstrs (cps : List CodePoint) : List Instr := cps.map .decSym

/-- `encode V, wrap, [b0, ..., bk]` (R95). -/
def encodeInstrs (v : Variant) (wrap : WrapCount) (bs : List Byte) : List Instr :=
  .encStart v wrap :: encBytesInstrs bs ++ [.encEnd]

/-- `decode [cp0, ..., cpk]` (R96). -/
def decodeInstrs (cps : List CodePoint) : List Instr :=
  .decStart :: decSymsInstrs cps ++ [.decEnd]

/-- The commands a line stands for, its numbers taken as they are in range (R92 to R96). -/
def expandLine : AsmLine → List Instr
  | .encStart v wrap => [.encStart v (BitVec.ofNat 24 wrap)]
  | .encByte imm8 => [.encByte (BitVec.ofNat 8 imm8)]
  | .encEnd => [.encEnd]
  | .decStart => [.decStart]
  | .decSym cp => [.decSym (BitVec.ofNat 21 cp)]
  | .decEnd => [.decEnd]
  | .mapMain v idx10 => [.mapMain v (BitVec.ofNat 10 idx10)]
  | .mapTail v idx2 => [.mapTail v (BitVec.ofNat 2 idx2)]
  | .mapPad => [.mapPad]
  | .mapRev cp => [.mapRev (BitVec.ofNat 21 cp)]
  | .clrCmdErr => [.clrCmdErr]
  | .encBytes bs => encBytesInstrs (bs.map (BitVec.ofNat 8))
  | .decSyms cps => decSymsInstrs (cps.map (BitVec.ofNat 21))
  | .encodeMsg v wrap bs => encodeInstrs v (BitVec.ofNat 24 wrap) (bs.map (BitVec.ofNat 8))
  | .decodeStream cps => decodeInstrs (cps.map (BitVec.ofNat 21))

/-- The words of a line; none for an assembly error (R92). -/
def assemble (l : AsmLine) : Option (List CmdWord) :=
  if l.wellFormed then some ((expandLine l).map encode) else none

/-- The instruction the decoder reads from an opcode-table row's bits: bits above `nbits` are 0, and the block takes one
32-bit value (R73, R61). -/
def decodeTableWord (nbits w : Nat) : Option Instr :=
  match decode (BitVec.ofNat 32 (w % 2 ^ nbits)) with
  | .ok i => some i
  | .error _ => none

end Sys2Proof
end

