-- ==== Sys2Proof/Config.lean ====
section
/-! DEFINITION. Config.lean: what is fixed for one machine. The open parameter `ALPHABET` (00_scope.md R12,
40_alphabet_mapper.md R97), the three configuration fields with defaults (R11), the invariants a configuration must meet
to be admitted (R98), and the configurations that meet them, which are the only ones a machine has. The spec's test
alphabet `TROM` (92_eei_decisions.md D34) shows that there are some. -/

namespace Sys2Proof

/-- `ALPHABET` (R97): the five tables. The sizes are those of R10. -/
structure Alphabet where
  mainV1 : Vector CodePoint 1024
  mainV2 : Vector CodePoint 1024
  tailV1 : Vector CodePoint 4
  tailV2 : Vector CodePoint 4
  pad    : CodePoint
  deriving DecidableEq, Repr

/-- The Main table of a variant. -/
def Alphabet.mainTable (a : Alphabet) : Variant → Vector CodePoint 1024
  | .V1 => a.mainV1
  | .V2 => a.mainV2

/-- The Tail table of a variant. -/
def Alphabet.tailTable (a : Alphabet) : Variant → Vector CodePoint 4
  | .V1 => a.tailV1
  | .V2 => a.tailV2

/-- `MainV1(i)` or `MainV2(i)`, a total function of a u10 (R97). -/
def Alphabet.main (a : Alphabet) (v : Variant) (i : Chunk) : CodePoint := (a.mainTable v)[i.toNat]'i.isLt

/-- `TailV1(t)` or `TailV2(t)`, a total function of a u2 (R97). -/
def Alphabet.tail (a : Alphabet) (v : Variant) (t : TailIdx) : CodePoint := (a.tailTable v)[t.toNat]'t.isLt

/-- The 2057 ROM words in address order (R54, R55). -/
def Alphabet.words (a : Alphabet) : List CodePoint :=
  a.mainV1.toList ++ a.mainV2.toList ++ a.tailV1.toList ++ a.tailV2.toList ++ [a.pad]

/-- The default of `LB_CP`, U+000A (R11, D4). -/
def Config.defaultLbCp : CodePoint := 0x00000A#21

/-- The default of `WS_SET` (R11, D5). -/
def Config.defaultWsSet : List CodePoint :=
  [0x000009#21, 0x00000A#21, 0x00000B#21, 0x00000C#21, 0x00000D#21, 0x000020#21]

/-- The default of `FINAL_LB` (R11, D6). -/
def Config.defaultFinalLb : Bool := true

/-- The configuration of one machine (R11, R12). `WS_SET` is a finite set, held as a list whose order and repeats do
not matter: only membership is ever asked. R100 says that no member of `WS_SET` is above 0x10FFFF, and D3 and U14 rest on
it; R98 lists no such check, so it is a property of the parameter and no seventh invariant (DEDUCED, log 21). -/
structure Config where
  alphabet : Alphabet
  lbCp     : CodePoint := Config.defaultLbCp
  wsSet    : List CodePoint := Config.defaultWsSet
  finalLb  : Bool := Config.defaultFinalLb
  wsUnicode : ∀ ws ∈ wsSet, ws.toNat ≤ 0x10FFFF := by simp [Config.defaultWsSet]
  deriving DecidableEq, Repr

/-- No code point of one table stands in the other. -/
def tablesDisjoint (t u : List CodePoint) : Bool := t.all (fun cp => !u.contains cp)

/-- R98, the invariants of an admitted configuration, 1 to 6 in the rule's order. 1: each Main table is injective.
2: each Tail table is injective. 3: the five sets are pairwise disjoint. 4: every value is at most 0x10FFFF. 5: no value
is in `WS_SET`. 6: `LB_CP` is in `WS_SET`. -/
def Config.admitted (c : Config) : Bool :=
  (decide c.alphabet.mainV1.toList.Nodup && decide c.alphabet.mainV2.toList.Nodup) &&
  (decide c.alphabet.tailV1.toList.Nodup && decide c.alphabet.tailV2.toList.Nodup) &&
  (tablesDisjoint c.alphabet.mainV1.toList c.alphabet.mainV2.toList &&
   tablesDisjoint c.alphabet.mainV1.toList c.alphabet.tailV1.toList &&
   tablesDisjoint c.alphabet.mainV1.toList c.alphabet.tailV2.toList &&
   tablesDisjoint c.alphabet.mainV2.toList c.alphabet.tailV1.toList &&
   tablesDisjoint c.alphabet.mainV2.toList c.alphabet.tailV2.toList &&
   tablesDisjoint c.alphabet.tailV1.toList c.alphabet.tailV2.toList &&
   tablesDisjoint [c.alphabet.pad] c.alphabet.mainV1.toList &&
   tablesDisjoint [c.alphabet.pad] c.alphabet.mainV2.toList &&
   tablesDisjoint [c.alphabet.pad] c.alphabet.tailV1.toList &&
   tablesDisjoint [c.alphabet.pad] c.alphabet.tailV2.toList) &&
  c.alphabet.words.all (fun cp => decide (cp.toNat ≤ 0x10FFFF)) &&
  tablesDisjoint c.alphabet.words c.wsSet &&
  c.wsSet.contains c.lbCp

/-- The configuration is admitted (R98). -/
abbrev Config.Admitted (c : Config) : Prop := c.admitted = true

/-- A configuration that meets R98. A machine has no other: one that fails an invariant is refused at construction
(R98, D16), so no state holds it and no statement is about it. -/
structure AdmittedConfig extends Config where
  meetsR98 : toConfig.Admitted
  deriving DecidableEq, Repr

/-- An alphabet that meets R98 beside the defaults of R11. -/
abbrev AdmittedAlphabet := { a : Alphabet // Config.Admitted { alphabet := a } }

/-! ## The test alphabet -/

/-- A table of `n` code points from `base` upwards. -/
def tromTable (base n : Nat) : Vector CodePoint n :=
  ⟨⟨(List.range n).map fun i => BitVec.ofNat 21 (base + i)⟩, by simp⟩

/-- `TROM` (95_test_vectors.md section 1, 92_eei_decisions.md D34). -/
def tromAlphabet : Alphabet where
  mainV1 := tromTable 0x100000 1024
  mainV2 := tromTable 0x100400 1024
  tailV1 := tromTable 0x100800 4
  tailV2 := tromTable 0x100804 4
  pad := 0x100808#21

/-- A configuration with `TROM` and the defaults of R11. -/
def tromConfig : Config := { alphabet := tromAlphabet }

theorem tablesDisjoint_iff {t u : List CodePoint} : tablesDisjoint t u = true ↔ ∀ cp ∈ t, cp ∉ u := by
  simp [tablesDisjoint]

theorem tromTable_toList (base n : Nat) :
    (tromTable base n).toList = (List.range n).map fun i => BitVec.ofNat 21 (base + i) := rfl

/-- A code point of a `TROM` table is one of its range. -/
theorem mem_tromTable {base n : Nat} (h : base + n < 2 ^ 21) {cp : CodePoint} :
    cp ∈ (tromTable base n).toList ↔ base ≤ cp.toNat ∧ cp.toNat < base + n := by
  simp only [tromTable_toList, List.mem_map, List.mem_range]
  constructor
  · rintro ⟨i, hi, rfl⟩
    rw [BitVec.toNat_ofNat, Nat.mod_eq_of_lt (by omega)]
    omega
  · rintro ⟨h1, h2⟩
    refine ⟨cp.toNat - base, by omega, BitVec.eq_of_toNat_eq ?_⟩
    rw [BitVec.toNat_ofNat, Nat.mod_eq_of_lt (by omega)]
    omega

theorem tromTable_nodup {base n : Nat} (h : base + n < 2 ^ 21) : (tromTable base n).toList.Nodup := by
  rw [tromTable_toList]
  refine (List.nodup_map_iff_inj_on List.nodup_range).2 fun i hi j hj e => ?_
  have := congrArg BitVec.toNat e
  rw [List.mem_range] at hi hj
  rw [BitVec.toNat_ofNat, BitVec.toNat_ofNat, Nat.mod_eq_of_lt (by omega), Nat.mod_eq_of_lt (by omega)] at this
  omega

/-- `TROM` meets every invariant of R98. -/
theorem tromConfig_admitted : tromConfig.Admitted := by
  have m1 := @mem_tromTable 0x100000 1024 (by omega)
  have m2 := @mem_tromTable 0x100400 1024 (by omega)
  have t1 := @mem_tromTable 0x100800 4 (by omega)
  have t2 := @mem_tromTable 0x100804 4 (by omega)
  have n1 := @tromTable_nodup 0x100000 1024 (by omega)
  have n2 := @tromTable_nodup 0x100400 1024 (by omega)
  have n3 := @tromTable_nodup 0x100800 4 (by omega)
  have n4 := @tromTable_nodup 0x100804 4 (by omega)
  have ws : ∀ cp ∈ Config.defaultWsSet, cp.toNat ≤ 0x20 := by
    simp [Config.defaultWsSet]
  have hp : (0x100808#21 : CodePoint).toNat = 0x100808 := rfl
  have hw : ∀ cp ∈ tromAlphabet.words, 0x100000 ≤ cp.toNat ∧ cp.toNat ≤ 0x10FFFF := by
    intro cp h
    simp only [Alphabet.words, tromAlphabet, List.mem_append, List.mem_singleton, m1, m2, t1, t2] at h
    rcases h with (((h | h) | h) | h) | rfl <;> omega
  simp only [Config.Admitted, Config.admitted, Bool.and_eq_true, decide_eq_true_eq, tablesDisjoint_iff,
    List.all_eq_true, List.contains_iff_mem, List.mem_singleton, forall_eq]
  refine ⟨⟨⟨⟨⟨⟨n1, n2⟩, n3, n4⟩, ?_⟩, fun cp h => (hw cp h).2⟩, fun cp h hs => ?_⟩, by decide⟩
  · simp only [tromConfig, tromAlphabet, m1, m2, t1, t2, hp]
    refine ⟨⟨⟨⟨⟨⟨⟨⟨⟨?_, ?_⟩, ?_⟩, ?_⟩, ?_⟩, ?_⟩, ?_⟩, ?_⟩, ?_⟩, ?_⟩ <;> first | (intro cp h; omega) | omega
  · have := (hw cp h).1
    have := ws cp hs
    omega

/-! ## The machine's configuration -/

/-- The ROM contents of the machine, a FREE VALUE: the spec leaves them open but for R98 (R12, R97, D16), and no rule
depends on any of them. DESIGN CHOICE of the form (log 1): a constant without a body, so no proof can see a value of it.
The argument in brackets says only that there is an alphabet that meets R98, which a constant of this type needs. -/
opaque Config.romContents [Inhabited AdmittedAlphabet] : AdmittedAlphabet

/-- The configuration of the machine at reset: the free ROM contents, which meet R98, and the defaults of R11 (log 1,
log 2). -/
def Config.machine : AdmittedConfig where
  alphabet := (@Config.romContents ⟨tromAlphabet, tromConfig_admitted⟩).val
  meetsR98 := (@Config.romContents ⟨tromAlphabet, tromConfig_admitted⟩).property

end Sys2Proof
end

