-- ==== Sys2Proof/Machine/State.lean ====
section
/-! DEFINITION. Machine/State.lean: the state of ECJ-CORE as plain data (10_state.md R26 to R46), the host's actions, the
reasons a step can stop, and the state after reset (70_reset_and_hazards.md R169). -/

namespace Sys2Proof.Machine

/-- `ENC_ST` (R28). -/
inductive EncSt where
  | idle
  | active
  deriving DecidableEq, Repr

/-- `DEC_ST` (R34). -/
inductive DecSt where
  | idle
  | active
  | done
  | error
  deriving DecidableEq, Repr

/-- `DEC_LOCK` (R35): `UNLOCKED`, or locked to a variant. -/
inductive Lock where
  | unlocked
  | locked (v : Variant)
  deriving DecidableEq, Repr

/-- `DEC_ERR` (R38). -/
inductive DecErr where
  | none
  | nonAlphabet
  | mixedVersions
  | frameTailEarly
  | frameTruncated
  deriving DecidableEq, Repr

/-- `CMD_ERR` (R42). -/
inductive CmdErr where
  | none
  | illegalCmd
  | sequence
  deriving DecidableEq, Repr

/-- The host's four interactions with the block (70_reset_and_hazards.md R181): it issues a command word, reads a
register by its select, drains one element of an output, or resets the block. -/
inductive HostAction where
  | command (w : CmdWord)
  | read (sel : BitVec 4)
  | drainSym
  | drainByte
  | reset
  deriving DecidableEq, Repr

/-- What the block returns to the host (R181): a register's word, or the oldest unread element of an output. -/
inductive HostReply where
  | register (w : BitVec 32)
  | symbol (cp : CodePoint)
  | byte (b : Byte)
  deriving DecidableEq, Repr

/-- Why a step faults. No reset state reaches any of these. -/
inductive Fault where
  /-- Raised by a command that reads an entry of `ENC_BUF` never written since reset (R33, R169, 93 U11). Safe. -/
  | encBufUnwritten
  /-- Raised by a command that reads an entry of `DEC_ACC` never written since reset (R37, R169, 93 U11). Safe. -/
  | decAccUnwritten
  /-- Raised by a read of a ROM address that is not present (20_memory.md R55, R56, 93 U12). Safe. -/
  | romAbsent
  deriving DecidableEq, Repr

/-- Why something is refused. -/
inductive Refusal where
  /-- Raised by `exec` for an instruction without a meaning yet; no arm raises it. Safe. -/
  | notModelled (mnemonic : String)
  /-- Raised by `powerOn` for a configuration that fails an invariant of 40_alphabet_mapper.md R98. Safe. -/
  | configNotAdmitted
  deriving DecidableEq, Repr

/-- The state of the machine. Each field cites the rule that names it; `pending` and `replies` are the model's own
(log 4, log 6). -/
structure State where
  /-- The alphabet ROM (R46) and the configuration fields (R11), which meet R98. Nothing writes it. -/
  cfg : AdmittedConfig
  /-- `ENC_ST` (R28). -/
  encSt : EncSt
  /-- `ENC_VAR` (R29). -/
  encVar : Variant
  /-- `ENC_WRAP` (R30). -/
  encWrap : WrapCount
  /-- `ENC_COL` (R31). -/
  encCol : WrapCount
  /-- `ENC_CNT` (R32), range 0..4. -/
  encCnt : Fin 5
  /-- `ENC_BUF[0..3]` (R33); `none` is an unwritten entry, the reset value R169 gives. -/
  encBuf : Vector (Option Byte) 4
  /-- `DEC_ST` (R34). -/
  decSt : DecSt
  /-- `DEC_LOCK` (R35). -/
  decLock : Lock
  /-- `DEC_CNT` (R36), range 0..3. -/
  decCnt : Fin 4
  /-- `DEC_ACC[0..2]` (R37); `none` is an unwritten entry, the reset value R169 gives. -/
  decAcc : Vector (Option Chunk) 3
  /-- `DEC_ERR` (R38). -/
  decErr : DecErr
  /-- `DEC_ERRCP` (R39). -/
  decErrCp : CodePoint
  /-- `DEC_PEND` (R40). -/
  decPend : Bool
  /-- `DEC_PENDCP` (R41). -/
  decPendCp : CodePoint
  /-- `CMD_ERR` (R42). -/
  cmdErr : CmdErr
  /-- `CMD_ERRWORD` (R43). -/
  cmdErrWord : CmdWord
  /-- `MAP_RESULT` (R44). -/
  mapResult : BitVec 32
  /-- `SYM_OUT` (R45), oldest first. -/
  symOut : List CodePoint
  /-- `BYTE_OUT` (R45), oldest first. -/
  byteOut : List Byte
  /-- How many elements of `SYM_OUT` the host has drained: the next one is its oldest unread element (R181; log 19). -/
  symDrained : Nat
  /-- How many elements of `BYTE_OUT` the host has drained (R181; log 19). -/
  byteDrained : Nat
  /-- The host's actions not yet applied, oldest first (R182; log 4). -/
  pending : List HostAction
  /-- What the block has returned to the host, oldest first (R149, R181; log 6). -/
  replies : List HostReply
  deriving DecidableEq, Repr

/-- The state right after reset of a machine with configuration `c` (R169), with no host action pending. -/
def State.resetWith (c : AdmittedConfig) : State where
  cfg := c
  encSt := .idle
  encVar := .V1
  encWrap := 0#24
  encCol := 0#24
  encCnt := 0
  encBuf := Vector.replicate 4 none
  decSt := .idle
  decLock := .unlocked
  decCnt := 0
  decAcc := Vector.replicate 3 none
  decErr := .none
  decErrCp := 0#21
  decPend := false
  decPendCp := 0#21
  cmdErr := .none
  cmdErrWord := 0#32
  mapResult := 0#32
  symOut := []
  byteOut := []
  symDrained := 0
  byteDrained := 0
  pending := []
  replies := []

/-- The machine right after reset (R169). Its ROM contents are the free value `Config.romContents` (log 1). -/
def State.reset : State := State.resetWith Config.machine

end Sys2Proof.Machine
end

