-- ==== Sys2Proof/Machine/Flags.lean ====
section
/-! DEFINITION. Machine/Flags.lean: the codes of the status fields (10_state.md R28, R34, R35, R38, R42), the `STATUS` word
(R49) and the register read port (R48, 44_control.md R149). ECJ-CORE has no flag that is not a field of `STATUS`, and
no command tests one (R52). -/

namespace Sys2Proof.Machine

/-- The code of `ENC_ST` (R28). -/
def encStCode : EncSt → BitVec 1
  | .idle => 0#1
  | .active => 1#1

/-- The code of `DEC_ST` (R34). -/
def decStCode : DecSt → BitVec 2
  | .idle => 0#2
  | .active => 1#2
  | .done => 2#2
  | .error => 3#2

/-- The code of `DEC_LOCK` (R35). -/
def lockCode : Lock → BitVec 2
  | .unlocked => 0#2
  | .locked .V1 => 1#2
  | .locked .V2 => 2#2

/-- The code of `DEC_ERR` (R38). -/
def decErrCode : DecErr → BitVec 3
  | .none => 0#3
  | .nonAlphabet => 1#3
  | .mixedVersions => 2#3
  | .frameTailEarly => 3#3
  | .frameTruncated => 4#3

/-- The code of `CMD_ERR` (R42). -/
def cmdErrCode : CmdErr → BitVec 3
  | .none => 0#3
  | .illegalCmd => 1#3
  | .sequence => 2#3

/-- The bits of `ENC_CNT` (R32). -/
def encCntCode (n : Fin 5) : BitVec 3 := BitVec.ofNat 3 n.val

/-- The bits of `DEC_CNT` (R36). -/
def decCntCode (n : Fin 4) : BitVec 2 := BitVec.ofNat 2 n.val

/-- `STATUS` (R49), the concatenation the rule writes out. -/
def statusWord (s : State) : BitVec 32 :=
  0b00000#5 ++ cmdErrCode s.cmdErr ++ 0b00000#5 ++ decErrCode s.decErr ++ 0b0#1 ++ BitVec.ofBool s.decPend ++
    decCntCode s.decCnt ++ lockCode s.decLock ++ decStCode s.decSt ++ 0b000#3 ++ variantBit s.encVar ++
    encCntCode s.encCnt ++ encStCode s.encSt

/-- `ReadReg(sel)` (R48, R149). -/
def readReg (sel : BitVec 4) (s : State) : BitVec 32 :=
  match sel.toNat with
  | 0 => statusWord s
  | 1 => s.encWrap.zeroExtend 32
  | 2 => s.encCol.zeroExtend 32
  | 3 => s.decErrCp.zeroExtend 32
  | 4 => s.mapResult
  | 5 => s.cmdErrWord
  | 6 => s.decPendCp.zeroExtend 32
  | _ => 0x00000000#32

end Sys2Proof.Machine
end

