-- ==== Sys2Proof/Machine/Operands.lean ====
section
/-! DEFINITION. Machine/Operands.lean: what a command's operands stand for. The ROM as an address space and its address
functions (20_memory.md R55, R56), the forward lookups (40_alphabet_mapper.md R103), the reverse lookup `Classify`
(R100, R101) and the class codes (R102). -/

namespace Sys2Proof.Machine

/-- `MainAddr(v, i) = zext_12(v ++ i)` (R55). -/
def mainAddr (v : Variant) (i : Chunk) : RomAddr := (variantBit v ++ i).zeroExtend 12

/-- `TailAddr(v, t) = 0x800 + 4·v + t` (R55). -/
def tailAddr (v : Variant) (t : TailIdx) : RomAddr :=
  0x800#12 + 4#12 * (variantBit v).zeroExtend 12 + t.zeroExtend 12

/-- `PadAddr` (R55). -/
def padAddr : RomAddr := 0x808#12

/-- `RomRead(addr)` (R56), by the layout of R55; `none` where the address is not present. -/
def romRead (a : Alphabet) (addr : RomAddr) : Option CodePoint :=
  let n := addr.toNat
  if n < 0x400 then a.mainV1[n]?
  else if n < 0x800 then a.mainV2[n - 0x400]?
  else if n < 0x804 then a.tailV1[n - 0x800]?
  else if n < 0x808 then a.tailV2[n - 0x804]?
  else if n = 0x808 then some a.pad
  else none

/-- The class of a code point (R100). -/
inductive CpClass where
  | main (v : Variant) (i : Chunk)
  | tail (v : Variant) (t : TailIdx)
  | pad
  | ws
  | invalid
  deriving DecidableEq, Repr

/-- The index at which a table holds a code point (R47). -/
def tableIndex (t : List CodePoint) (cp : CodePoint) : Option Nat := t.findIdx? (· == cp)

/-- The tail of `Classify` after the four tables (R100). A code point above 0x10FFFF is `INVALID` (R100, D3, U14): R98
bounds the ROM and `Config.wsUnicode` the whitespace set, see `classify_above_unicode`. -/
def classifyRest (c : Config) (cp : CodePoint) : CpClass :=
  if cp = c.alphabet.pad then .pad
  else if cp ∈ c.wsSet then .ws
  else .invalid

/-- `Classify(cp)` (R100), its tests in the rule's order. -/
def classify (c : Config) (cp : CodePoint) : CpClass :=
  match tableIndex c.alphabet.mainV1.toList cp with
  | some i => .main .V1 (BitVec.ofNat 10 i)
  | none =>
    match tableIndex c.alphabet.mainV2.toList cp with
    | some i => .main .V2 (BitVec.ofNat 10 i)
    | none =>
      match tableIndex c.alphabet.tailV1.toList cp with
      | some t => .tail .V1 (BitVec.ofNat 2 t)
      | none =>
        match tableIndex c.alphabet.tailV2.toList cp with
        | some t => .tail .V2 (BitVec.ofNat 2 t)
        | none => classifyRest c cp

/-- The variant of a class (R101). -/
def classVariant : CpClass → Option Variant
  | .main v _ => some v
  | .tail v _ => some v
  | .pad => none
  | .ws => none
  | .invalid => none

/-- The class codes (R102). -/
def classCode : CpClass → BitVec 3
  | .invalid => 0#3
  | .main _ _ => 1#3
  | .tail _ _ => 2#3
  | .pad => 3#3
  | .ws => 4#3

/-- The variant bit of `RevWord` (R109): 0 for a class without a variant. -/
def classVariantBit (c : CpClass) : BitVec 1 :=
  match classVariant c with
  | some v => variantBit v
  | none => 0#1

/-- The index field of `RevWord` (R109). -/
def classIndex : CpClass → BitVec 10
  | .main _ i => i
  | .tail _ t => t.zeroExtend 10
  | .pad => 0#10
  | .ws => 0#10
  | .invalid => 0#10

/-- `RevWord(class)` (R109): class code, variant, 18 zero bits, index. -/
def revWord (c : CpClass) : BitVec 32 := classCode c ++ classVariantBit c ++ 0#18 ++ classIndex c

end Sys2Proof.Machine
end

