-- ==== Sys2Proof/Machine/Ops.lean ====
section
/-! DEFINITION. Machine/Ops.lean: the operations the commands share. The two error entries (60_exceptions.md R154, R155),
the emission primitives (00_scope.md R18, 42_encoder.md R122), the reads and writes of `ENC_BUF` and `DEC_ACC`, the
lock, and the host's actions other than a command. The exits from an error are `execDecStart` and `execClrCmdErr`
(R158). -/

namespace Sys2Proof.Machine

/-- What a step or a meaning answers. -/
abbrev Result := Host.Outcome State Fault Refusal

/-- `raise DecError(code, cp)` (R154): exactly three registers are written. -/
def decError (code : DecErr) (cp : CodePoint) (s : State) : State :=
  { s with decErr := code, decErrCp := cp, decSt := .error }

/-- `raise CmdError(code)` for command word `w` (R155): recorded only if no command error is recorded yet. -/
def cmdError (code : CmdErr) (w : CmdWord) (s : State) : State :=
  match s.cmdErr with
  | .none => { s with cmdErr := code, cmdErrWord := w }
  | .illegalCmd => s
  | .sequence => s

/-- `raise CmdError(SEQUENCE)` by instruction `i`. The word recorded is the instruction's own word: each command has
one spelling (R80), so it is the word the host issued (log 12). -/
def sequenceError (i : Instr) (s : State) : State := cmdError .sequence (encode i) s

/-- `raise CmdError(ILLEGAL_CMD)` by word `w` (R82). -/
def illegalCommand (w : CmdWord) (s : State) : State := cmdError .illegalCmd w s

/-- `EmitRaw(cp)` (R122). -/
def emitRaw (cp : CodePoint) (s : State) : State := { s with symOut := s.symOut ++ [cp] }

/-- The wrap accounting of `EmitSym` (R122). The comparison is exact; the increment stays in range in every state that
meets `ENC_COL < ENC_WRAP` (R17, R31; log 11). -/
def wrapAccount (s : State) : State :=
  if s.encWrap = 0#24 then s
  else if s.encCol.toNat + 1 = s.encWrap.toNat then { emitRaw s.cfg.lbCp s with encCol := 0#24 }
  else { s with encCol := s.encCol + 1#24 }

/-- `EmitSym(cp)` (R122). -/
def emitSym (cp : CodePoint) (s : State) : State := wrapAccount (emitRaw cp s)

/-- `EmitSym(RomRead(addr))` for each address in order (R121, R123); an absent address faults (R56, log 9). -/
def emitRom : List RomAddr → State → Result
  | [], s => .next s
  | addr :: rest, s =>
    match romRead s.cfg.alphabet addr with
    | some cp => emitRom rest (emitSym cp s)
    | none => .fault .romAbsent

/-- `EmitByte(b)` for each byte in order (R18). -/
def emitBytes (bs : List Byte) (s : State) : State := { s with byteOut := s.byteOut ++ bs }

/-- The values of a run of buffer entries; none if one of them is unwritten. -/
def written {α : Type} : List (Option α) → Option (List α)
  | [] => some []
  | none :: _ => none
  | some a :: rest => (written rest).map (a :: ·)

/-- `ENC_BUF[0 .. ENC_CNT-1]` (R33). -/
def encPending (s : State) : Option (List Byte) := written (s.encBuf.toList.take s.encCnt.val)

/-- `DEC_ACC[0 .. DEC_CNT-1]` (R37). -/
def decPending (s : State) : Option (List Chunk) := written (s.decAcc.toList.take s.decCnt.val)

/-- `ENC_BUF[ENC_CNT] <- b`, `ENC_CNT <- ENC_CNT + 1`, for `ENC_CNT < 4` (R121). -/
def pushEncByte (b : Byte) (s : State) : State :=
  { s with encBuf := s.encBuf.setIfInBounds s.encCnt.val (some b), encCnt := s.encCnt + 1 }

/-- `DEC_ACC[DEC_CNT] <- i`, `DEC_CNT <- DEC_CNT + 1`, for `DEC_CNT < 3` (R133). -/
def pushDecChunk (i : Chunk) (s : State) : State :=
  { s with decAcc := s.decAcc.setIfInBounds s.decCnt.val (some i), decCnt := s.decCnt + 1 }

/-- A discriminating symbol of variant `v` is of the other variant than the lock (R134). -/
def lockRejects : Lock → Variant → Bool
  | .unlocked, _ => false
  | .locked v', v => v' != v

/-- `MAP_RESULT <- zext_32(RomRead(addr))` (R104 to R107); an absent address faults (R56, log 9). -/
def mapLookup (addr : RomAddr) (s : State) : Result :=
  match romRead s.cfg.alphabet addr with
  | some cp => .next { s with mapResult := cp.zeroExtend 32 }
  | none => .fault .romAbsent

/-- A register read (R149): it returns `ReadReg(sel)` to the host and changes nothing of the block (log 6). -/
def answerRead (sel : BitVec 4) (s : State) : State := { s with replies := s.replies ++ [.register (readReg sel s)] }

/-- The host drains `SYM_OUT` (R181): the oldest unread element is returned. Where every element has been drained
nothing is returned and nothing changes (DESIGN CHOICE, log 19). -/
def drainSymbol (s : State) : State :=
  match s.symOut[s.symDrained]? with
  | some cp => { s with symDrained := s.symDrained + 1, replies := s.replies ++ [.symbol cp] }
  | none => s

/-- The host drains `BYTE_OUT` (R181), likewise (log 19). -/
def drainOneByte (s : State) : State :=
  match s.byteOut[s.byteDrained]? with
  | some b => { s with byteDrained := s.byteDrained + 1, replies := s.replies ++ [.byte b] }
  | none => s

/-- The reset event (70_reset_and_hazards.md R168, R169): every register takes its reset value and both outputs become
empty; the ROM and the configuration stay, and so do the host's own records (log 5). -/
def resetEvent (s : State) : State :=
  { State.resetWith s.cfg with pending := s.pending, replies := s.replies }

/-- The host's next action, and the state in which it is applied (log 4). -/
def takeAction (s : State) : Option (HostAction × State) :=
  match s.pending with
  | [] => none
  | a :: rest => some (a, { s with pending := rest })

/-- The host issues `w` next (log 4). -/
def issueWord (w : CmdWord) (s : State) : State := { s with pending := .command w :: s.pending }

/-- A machine is built from a configuration (R98, D16): one that is not admitted is refused, and there is no machine
(log 3). -/
def powerOn (c : Config) : Result :=
  if h : c.Admitted then .next (State.resetWith { toConfig := c, meetsR98 := h }) else .refused .configNotAdmitted

end Sys2Proof.Machine
end

