-- ==== Sys2Proof/Machine/Control.lean ====
section
/-! DEFINITION. Machine/Control.lean: the one control command (44_control.md R148). -/

namespace Sys2Proof.Machine

/-- `clr.cmderr` (R148). -/
def execClrCmdErr (s : State) : Result :=
  .next { s with cmdErr := .none, cmdErrWord := 0#32 }

end Sys2Proof.Machine
end

