-- ==== Sys2Proof/Machine/BitPacker.lean ====
section
/-! DEFINITION. Machine/BitPacker.lean: the pack and unpack functions (41_bitpacker.md R110 to R116). They are pure: the
bit-packer has no state and no command of its own. -/

namespace Sys2Proof.Machine

/-- The 40-bit window of five bytes, the first byte most significant (20_memory.md R58). -/
def window5 (b0 b1 b2 b3 b4 : Byte) : BitVec 40 := b0 ++ b1 ++ b2 ++ b3 ++ b4

/-- Chunk `j` of a 40-bit window, chunk 0 the most significant (20_memory.md R59): `W[39-10j : 30-10j]`. -/
def windowChunk (w : BitVec 40) (j : Nat) : Chunk := w.extractLsb' (30 - 10 * j) 10

/-- `Pack5` (R110). -/
def pack5 (b0 b1 b2 b3 b4 : Byte) : Chunk × Chunk × Chunk × Chunk :=
  (windowChunk (window5 b0 b1 b2 b3 b4) 0, windowChunk (window5 b0 b1 b2 b3 b4) 1,
   windowChunk (window5 b0 b1 b2 b3 b4) 2, windowChunk (window5 b0 b1 b2 b3 b4) 3)

/-- `B0[7:0] ++ B1[7:6]` (R111). -/
def packFirst (b0 b1 : Byte) : Chunk := b0 ++ b1.extractLsb' 6 2

/-- `B1[5:0] ++ B2[7:4]` (R111). -/
def packSecond (b1 b2 : Byte) : Chunk := b1.extractLsb' 0 6 ++ b2.extractLsb' 4 4

/-- `B2[3:0] ++ B3[7:2]` (R111). -/
def packThird (b2 b3 : Byte) : Chunk := b2.extractLsb' 0 4 ++ b3.extractLsb' 2 6

/-- `PackPartial` (R111) on the `r` bytes of a partial group, `r` the list's length: the Main indices and the Tail
index. The function's domain is r in 1..4; outside it there is no chunk (log 15). -/
def packPartial : List Byte → List Chunk × Option TailIdx
  | [b0] => ([b0 ++ 0b00#2], none)
  | [b0, b1] => ([packFirst b0 b1, b1.extractLsb' 0 6 ++ 0b0000#4], none)
  | [b0, b1, b2] => ([packFirst b0 b1, packSecond b1 b2, b2.extractLsb' 0 4 ++ 0b000000#6], none)
  | [b0, b1, b2, b3] => ([packFirst b0 b1, packSecond b1 b2, packThird b2 b3], some (b3.extractLsb' 0 2))
  | _ => ([], none)

/-- `c0[9:2]` (R114). -/
def unpackFirst (c0 : Chunk) : Byte := c0.extractLsb' 2 8

/-- `c0[1:0] ++ c1[9:4]` (R114). -/
def unpackSecond (c0 c1 : Chunk) : Byte := c0.extractLsb' 0 2 ++ c1.extractLsb' 4 6

/-- `c1[3:0] ++ c2[9:6]` (R114). -/
def unpackThird (c1 c2 : Chunk) : Byte := c1.extractLsb' 0 4 ++ c2.extractLsb' 6 4

/-- `Unpack5` (R114). -/
def unpack5 (c0 c1 c2 c3 : Chunk) : List Byte :=
  [unpackFirst c0, unpackSecond c0 c1, unpackThird c1 c2, c2.extractLsb' 0 6 ++ c3.extractLsb' 8 2,
   c3.extractLsb' 0 8]

/-- `UnpackPad` (R115) on the `k` pending Main indices, `k` the list's length. The function's domain is k in 0..3;
outside it there is no byte (log 15). -/
def unpackPad : List Chunk → List Byte
  | [] => []
  | [c0] => [unpackFirst c0]
  | [c0, c1] => [unpackFirst c0, unpackSecond c0 c1]
  | [c0, c1, c2] => [unpackFirst c0, unpackSecond c0 c1, unpackThird c1 c2]
  | _ => []

/-- `UnpackTail` (R116). -/
def unpackTail (c0 c1 c2 : Chunk) (t : TailIdx) : List Byte :=
  [unpackFirst c0, unpackSecond c0 c1, unpackThird c1 c2, c2.extractLsb' 0 6 ++ t]

end Sys2Proof.Machine
end

