-- ==== Sys2Proof/Machine/Decoder.lean ====
section
/-! DEFINITION. Machine/Decoder.lean: the decoder commands (43_decoder.md R132 to R141). -/

namespace Sys2Proof.Machine

/-- `dec.start` (R132). An open stream is abandoned: `DEC_ACC` is not named by the rule and keeps its entries (R20,
log 17). -/
def execDecStart (s : State) : Result :=
  .next { s with decSt := .active, decLock := .unlocked, decCnt := 0, decErr := .none, decErrCp := 0#21,
                 decPend := false, decPendCp := 0#21 }

/-- A PAD closes the group (R133, R135 (a)). -/
def takePad (s : State) : Result :=
  match decPending s with
  | some cs => .next { emitBytes (unpackPad cs) s with decCnt := 0 }
  | none => .fault .decAccUnwritten

/-- The fourth Main symbol closes the group (R133, R135 (c)). -/
def closeDecGroup (i : Chunk) (s : State) : Result :=
  match decPending s with
  | some [c0, c1, c2] => .next { emitBytes (unpack5 c0 c1 c2 i) s with decCnt := 0 }
  | _ => .fault .decAccUnwritten

/-- A Main symbol the lock admits (R133). -/
def takeMain (v : Variant) (i : Chunk) (s : State) : Result :=
  if s.decCnt.val < 3 then .next (pushDecChunk i { s with decLock := .locked v })
  else closeDecGroup i { s with decLock := .locked v }

/-- A Tail symbol after exactly three Mains closes the group with four bytes (R133, R135 (b)). -/
def closeTailGroup (t : TailIdx) (s : State) : Result :=
  match decPending s with
  | some [c0, c1, c2] => .next { emitBytes (unpackTail c0 c1 c2 t) s with decCnt := 0 }
  | _ => .fault .decAccUnwritten

/-- A Tail symbol after 0, 1 or 2 Mains (R133, R136): the group closes with no bytes, and the first one of the stream is
recorded. -/
def earlyTail (cp : CodePoint) (s : State) : State :=
  if s.decPend then { s with decCnt := 0 }
  else { s with decPend := true, decPendCp := cp, decCnt := 0 }

/-- A Tail symbol the lock admits (R133). -/
def takeTail (v : Variant) (t : TailIdx) (cp : CodePoint) (s : State) : Result :=
  if s.decCnt.val = 3 then closeTailGroup t { s with decLock := .locked v }
  else .next (earlyTail cp { s with decLock := .locked v })

/-- A code point of an open stream, by its class (R133). -/
def takeSymbol (cp : CodePoint) (s : State) : Result :=
  match classify s.cfg.toConfig cp with
  | .ws => .next s
  | .invalid => .next (decError .nonAlphabet cp s)
  | .pad => takePad s
  | .main v i => if lockRejects s.decLock v then .next (decError .mixedVersions cp s) else takeMain v i s
  | .tail v t => if lockRejects s.decLock v then .next (decError .mixedVersions cp s) else takeTail v t cp s

/-- `dec.sym cp` (R133). -/
def execDecSym (cp : CodePoint) (s : State) : Result :=
  match s.decSt with
  | .error => .next s
  | .idle => .next (sequenceError (.decSym cp) s)
  | .done => .next (sequenceError (.decSym cp) s)
  | .active => takeSymbol cp s

/-- The end of an open stream (R140): a pending frame fault first, then a truncated group. -/
def endStream (s : State) : State :=
  if s.decPend then decError .frameTailEarly s.decPendCp s
  else if s.decCnt ≠ 0 then decError .frameTruncated 0#21 s
  else { s with decSt := .done }

/-- `dec.end` (R140). -/
def execDecEnd (s : State) : Result :=
  match s.decSt with
  | .error => .next s
  | .idle => .next (sequenceError .decEnd s)
  | .done => .next (sequenceError .decEnd s)
  | .active => .next (endStream s)

end Sys2Proof.Machine
end

