-- ==== Sys2Proof/Machine/Encoder.lean ====
section
/-! DEFINITION. Machine/Encoder.lean: the encoder commands (42_encoder.md R120 to R123). -/

namespace Sys2Proof.Machine

/-- `enc.start V, wrap` (R120). An open message is abandoned: `ENC_BUF` is not named by the rule and keeps its
entries (R20, log 17). -/
def execEncStart (v : Variant) (wrap : WrapCount) (s : State) : Result :=
  .next { s with encSt := .active, encVar := v, encWrap := wrap, encCol := 0#24, encCnt := 0 }

/-- The ROM addresses of a full group's four Main symbols (R121). -/
def fullGroupAddrs (v : Variant) (b0 b1 b2 b3 b4 : Byte) : List RomAddr :=
  let (c0, c1, c2, c3) := pack5 b0 b1 b2 b3 b4
  [mainAddr v c0, mainAddr v c1, mainAddr v c2, mainAddr v c3]

/-- `ENC_CNT <- 0`, the end of a full group (R121). -/
def endEncGroup (s : State) : State := { s with encCnt := 0 }

/-- What a meaning goes on with when a shared operation answered a next state. -/
def andThen (r : Result) (f : State → State) : Result :=
  match r with
  | .next s => .next (f s)
  | .fault e => .fault e
  | .refused e => .refused e

/-- The fifth byte of a group (R121, `ENC_CNT = 4`). -/
def closeEncGroup (b : Byte) (s : State) : Result :=
  match encPending s with
  | some [b0, b1, b2, b3] => andThen (emitRom (fullGroupAddrs s.encVar b0 b1 b2 b3 b) s) endEncGroup
  | _ => .fault .encBufUnwritten

/-- `enc.byte b` (R121). -/
def execEncByte (b : Byte) (s : State) : Result :=
  match s.encSt with
  | .idle => .next (sequenceError (.encByte b) s)
  | .active => if s.encCnt.val < 4 then .next (pushEncByte b s) else closeEncGroup b s

/-- The framing of a final partial group of `r` bytes after its Main symbols (R123): the Tail symbol for r = 4, filler
PADs up to four symbols under V1, one PAD under V2. -/
def framingAddrs (v : Variant) (r : Nat) : Option TailIdx → List RomAddr
  | some t => [tailAddr v t]
  | none =>
    match v with
    | .V1 => List.replicate (4 - r) padAddr
    | .V2 => [padAddr]

/-- The ROM addresses of a final partial group's symbols, in order (R123); none for r = 0. -/
def partialGroupAddrs (v : Variant) (bs : List Byte) : List RomAddr :=
  match bs with
  | [] => []
  | _ :: _ => (packPartial bs).1.map (mainAddr v) ++ framingAddrs v bs.length (packPartial bs).2

/-- The final line break (R123, R128). -/
def finalLineBreak (s : State) : State :=
  if s.cfg.finalLb = true ∧ s.encWrap ≠ 0#24 ∧ s.encCol ≠ 0#24 then emitRaw s.cfg.lbCp s else s

/-- The end of `enc.end` (R123). `ENC_VAR` and `ENC_WRAP` keep their values. -/
def closeMessage (s : State) : State :=
  { finalLineBreak s with encCol := 0#24, encCnt := 0, encSt := .idle }

/-- `enc.end` (R123). -/
def execEncEnd (s : State) : Result :=
  match s.encSt with
  | .idle => .next (sequenceError .encEnd s)
  | .active =>
    match encPending s with
    | some bs => andThen (emitRom (partialGroupAddrs s.encVar bs) s) closeMessage
    | none => .fault .encBufUnwritten

end Sys2Proof.Machine
end

