-- ==== Sys2Proof/Machine/Mapper.lean ====
section
/-! DEFINITION. Machine/Mapper.lean: the four map commands (40_alphabet_mapper.md R104 to R109). They write only
`MAP_RESULT`, are legal in every state and raise no error. -/

namespace Sys2Proof.Machine

/-- `map.main V, idx` (R104). -/
def execMapMain (v : Variant) (i : Chunk) (s : State) : Result := mapLookup (mainAddr v i) s

/-- `map.tail V, t` (R105). -/
def execMapTail (v : Variant) (t : TailIdx) (s : State) : Result := mapLookup (tailAddr v t) s

/-- `map.pad` (R106). -/
def execMapPad (s : State) : Result := mapLookup padAddr s

/-- `map.rev cp` (R108). -/
def execMapRev (cp : CodePoint) (s : State) : Result :=
  .next { s with mapResult := revWord (classify s.cfg.toConfig cp) }

end Sys2Proof.Machine
end

