-- ==== Sys2Proof/Machine/Dispatch.lean ====
section
/-! DEFINITION. Machine/Dispatch.lean: one arm per command, the case distinction of 44_control.md R147. -/

namespace Sys2Proof.Machine

def exec (i : Instr) (s : State) : Host.Outcome State Fault Refusal :=
  match i with
  | .encStart v wrap => Sys2Proof.Machine.execEncStart v wrap s
  | .encByte b => Sys2Proof.Machine.execEncByte b s
  | .encEnd => Sys2Proof.Machine.execEncEnd s
  | .decStart => Sys2Proof.Machine.execDecStart s
  | .decSym cp => Sys2Proof.Machine.execDecSym cp s
  | .decEnd => Sys2Proof.Machine.execDecEnd s
  | .mapMain v idx => Sys2Proof.Machine.execMapMain v idx s
  | .mapTail v t => Sys2Proof.Machine.execMapTail v t s
  | .mapPad => Sys2Proof.Machine.execMapPad s
  | .mapRev cp => Sys2Proof.Machine.execMapRev cp s
  | .clrCmdErr => Sys2Proof.Machine.execClrCmdErr s

end Sys2Proof.Machine
end

