-- ==== Sys2Proof/Machine/Step.lean ====
section
/-! DEFINITION. Machine/Step.lean: `Step(w)` (44_control.md R147) and one step of the machine, the host's next action applied
(70_reset_and_hazards.md R181, R182). -/

namespace Sys2Proof.Machine

/-- `Step(w)` (R147): decoding first, so an illegal word is never any other error (60_exceptions.md R156). -/
def applyCommand (w : CmdWord) (s : State) : Host.Outcome State Fault Refusal :=
  match decode w with
  | .ok i => exec i s
  | .error _ => .next (illegalCommand w s)

/-- One action of the host (R181). -/
def applyAction (a : HostAction) (s : State) : Host.Outcome State Fault Refusal :=
  match a with
  | .command w => applyCommand w s
  | .read sel => .next (answerRead sel s)
  | .drainSym => .next (drainSymbol s)
  | .drainByte => .next (drainOneByte s)
  | .reset => .next (resetEvent s)

/-- One step: the host's next action is taken and applied; with none pending the block holds its state (60_exceptions.md
R167, log 4). -/
def step (s : State) : Host.Outcome State Fault Refusal :=
  match takeAction s with
  | none => .next s
  | some (a, s') => applyAction a s'

/-- The host issues, as its next action, the word whose low `nbits` bits are `w` and whose other bits are 0 (log 4). -/
def State.withFetchWord (s : State) (nbits w : Nat) : State := issueWord (BitVec.ofNat 32 (w % 2 ^ nbits)) s

end Sys2Proof.Machine
end

