-- ==== Sys2Proof/Machine/Run.lean ====
section
/-! DEFINITION. Machine/Run.lean: runs. The fold of `Step` over command words (44_control.md R147, 20_memory.md R68), the same
fold over instructions, and the run of all the host's pending actions (70_reset_and_hazards.md R182). -/

namespace Sys2Proof.Machine

/-- The fold of `Step(w)` over command words in issue order, stopped by a fault or a refusal (R68, R147). -/
def runWords : List CmdWord → State → Result
  | [], s => .next s
  | w :: rest, s =>
    match applyCommand w s with
    | .next s' => runWords rest s'
    | .fault e => .fault e
    | .refused e => .refused e

/-- The fold of `exec` over instructions: what `runWords` does on their words. -/
def runInstrs : List Instr → State → Result
  | [], s => .next s
  | i :: rest, s =>
    match exec i s with
    | .next s' => runInstrs rest s'
    | .fault e => .fault e
    | .refused e => .refused e

/-- The fold over the host's actions in order (R182). -/
def runActions : List HostAction → State → Result
  | [], s => .next s
  | a :: rest, s =>
    match applyAction a s with
    | .next s' => runActions rest s'
    | .fault e => .fault e
    | .refused e => .refused e

end Sys2Proof.Machine
end

