-- ==== Sys2Proof/Safety.lean ====
section
/-! DEFINITION. Safety.lean: the terms the claims use. The invariants of 10_state.md R50, the records of the errors, the
parts of the state an instruction may touch, the results of a message and of a stream (30_encoding.md R95, R96,
70_reset_and_hazards.md R182), and the symbol stream a message stands for (30_encoding.md R84 to R91), written from those
rules without the machine. -/

namespace Sys2Proof.Machine

/-- The invariants of R50 that are not already the types of the fields (`ENC_CNT <= 4`, `DEC_CNT <= 3`,
`DEC_LOCK != 3`, `DEC_ERR <= 4` and `CMD_ERR <= 2` are), R169's: an entry below its count is written, and that the host
has drained no more than was appended (70_reset_and_hazards.md R181). -/
structure Inv (s : State) : Prop where
  colBelowWrap : s.encWrap ≠ 0#24 → s.encCol.toNat < s.encWrap.toNat
  colZeroUnwrapped : s.encWrap = 0#24 → s.encCol = 0#24
  errIffError : s.decErr ≠ .none ↔ s.decSt = .error
  encIdle : s.encSt = .idle → s.encCnt = 0 ∧ s.encCol = 0#24
  decDone : s.decSt = .done → s.decCnt = 0 ∧ s.decPend = false
  decIdle : s.decSt = .idle → s.decCnt = 0 ∧ s.decLock = .unlocked ∧ s.decPend = false
  pendLocked : s.decPend = true → s.decLock ≠ .unlocked
  pendCpZero : s.decPend = false → s.decPendCp = 0#21
  encBufWritten : ∀ (j : Nat) (h : j < 4), j < s.encCnt.val → s.encBuf[j].isSome = true
  decAccWritten : ∀ (j : Nat) (h : j < 3), j < s.decCnt.val → s.decAcc[j].isSome = true
  symDrainedBelow : s.symDrained ≤ s.symOut.length
  byteDrainedBelow : s.byteDrained ≤ s.byteOut.length

/-- The six invariants of R98, in the rule's order and words, without the check of Config.lean: 1 and 2 injective
tables, 3 pairwise disjoint sets, 4 code points of Unicode, 5 and 6 whitespace apart from the symbols and holding the
line break. -/
structure MeetsR98 (c : Config) : Prop where
  mainInjective : ∀ v i j, c.alphabet.main v i = c.alphabet.main v j → i = j
  tailInjective : ∀ v t u, c.alphabet.tail v t = c.alphabet.tail v u → t = u
  mainsDisjoint : ∀ i j, c.alphabet.main .V1 i ≠ c.alphabet.main .V2 j
  tailsDisjoint : ∀ t u, c.alphabet.tail .V1 t ≠ c.alphabet.tail .V2 u
  mainTailDisjoint : ∀ v w i t, c.alphabet.main v i ≠ c.alphabet.tail w t
  padIsNoMain : ∀ v i, c.alphabet.pad ≠ c.alphabet.main v i
  padIsNoTail : ∀ v t, c.alphabet.pad ≠ c.alphabet.tail v t
  mainsUnicode : ∀ v i, (c.alphabet.main v i).toNat ≤ 0x10FFFF
  tailsUnicode : ∀ v t, (c.alphabet.tail v t).toNat ≤ 0x10FFFF
  padUnicode : c.alphabet.pad.toNat ≤ 0x10FFFF
  mainsNotWhitespace : ∀ v i, c.alphabet.main v i ∉ c.wsSet
  tailsNotWhitespace : ∀ v t, c.alphabet.tail v t ∉ c.wsSet
  padNotWhitespace : c.alphabet.pad ∉ c.wsSet
  lineBreakIsWhitespace : c.lbCp ∈ c.wsSet

/-- An instruction that `Step` can reject with `SEQUENCE` (60_exceptions.md R153). -/
def raisesSequence : Instr → Bool
  | .encByte _ => true
  | .encEnd => true
  | .decSym _ => true
  | .decEnd => true
  | .encStart _ _ => false
  | .decStart => false
  | .mapMain _ _ => false
  | .mapTail _ _ => false
  | .mapPad => false
  | .mapRev _ => false
  | .clrCmdErr => false

/-- What the error records hold (R39, R43, 60_exceptions.md R153): the word recorded with a command error is one that
raises it, and the code point recorded with a decode error is as its cause says. -/
structure ErrorRecords (s : State) : Prop where
  noCmdErr : s.cmdErr = .none → s.cmdErrWord = 0#32
  illegalWord : s.cmdErr = .illegalCmd → ∃ e, decode s.cmdErrWord = .error e
  sequenceWord : s.cmdErr = .sequence → ∃ i, decode s.cmdErrWord = .ok i ∧ raisesSequence i = true
  noDecErr : s.decErr = .none → s.decErrCp = 0#21
  nonAlphabetCp : s.decErr = .nonAlphabet → classify s.cfg.toConfig s.decErrCp = .invalid
  mixedCp : s.decErr = .mixedVersions →
    ∃ v v', classVariant (classify s.cfg.toConfig s.decErrCp) = some v ∧ s.decLock = .locked v' ∧ v ≠ v'
  tailEarlyCp : s.decErr = .frameTailEarly → s.decPend = true ∧ s.decErrCp = s.decPendCp
  truncatedCp : s.decErr = .frameTruncated → s.decErrCp = 0#21 ∧ s.decPend = false ∧ s.decCnt ≠ 0
  pendCpIsTail : s.decPend = true → ∃ v t, classify s.cfg.toConfig s.decPendCp = .tail v t ∧ s.decLock = .locked v

/-- An encoder command (R51). -/
def isEncoder : Instr → Bool
  | .encStart _ _ => true
  | .encByte _ => true
  | .encEnd => true
  | .decStart => false
  | .decSym _ => false
  | .decEnd => false
  | .mapMain _ _ => false
  | .mapTail _ _ => false
  | .mapPad => false
  | .mapRev _ => false
  | .clrCmdErr => false

/-- A decoder command (R51). -/
def isDecoder : Instr → Bool
  | .encStart _ _ => false
  | .encByte _ => false
  | .encEnd => false
  | .decStart => true
  | .decSym _ => true
  | .decEnd => true
  | .mapMain _ _ => false
  | .mapTail _ _ => false
  | .mapPad => false
  | .mapRev _ => false
  | .clrCmdErr => false

/-- Two states agree on the configuration, the encoder registers and `SYM_OUT` (R51). -/
def sameEncoder (s t : State) : Prop :=
  s.cfg = t.cfg ∧ s.encSt = t.encSt ∧ s.encVar = t.encVar ∧ s.encWrap = t.encWrap ∧ s.encCol = t.encCol ∧
  s.encCnt = t.encCnt ∧ s.encBuf = t.encBuf ∧ s.symOut = t.symOut

/-- Two states agree on the configuration, the decoder registers and `BYTE_OUT` (R51). -/
def sameDecoder (s t : State) : Prop :=
  s.cfg = t.cfg ∧ s.decSt = t.decSt ∧ s.decLock = t.decLock ∧ s.decCnt = t.decCnt ∧ s.decAcc = t.decAcc ∧
  s.decErr = t.decErr ∧ s.decErrCp = t.decErrCp ∧ s.decPend = t.decPend ∧ s.decPendCp = t.decPendCp ∧
  s.byteOut = t.byteOut

/-- Two states agree on the registers whose fields the control of the commands consults (R52) and on the configuration. -/
def sameControl (s t : State) : Prop :=
  s.cfg = t.cfg ∧ s.encSt = t.encSt ∧ s.encVar = t.encVar ∧ s.encWrap = t.encWrap ∧ s.encCol = t.encCol ∧
  s.encCnt = t.encCnt ∧ s.encBuf = t.encBuf ∧ s.decSt = t.decSt ∧ s.decLock = t.decLock ∧ s.decCnt = t.decCnt ∧
  s.decAcc = t.decAcc ∧ s.decPend = t.decPend ∧ s.decPendCp = t.decPendCp

/-- The result of a stream (R96, R182). A frame error is a result of ECJ-CORE; no claim about the ecoji software rests
on it (93 U1, U2; log 13). -/
inductive StreamResult where
  | success (bs : List Byte)
  | failure (code : DecErr)
  | notEnded
  deriving DecidableEq, Repr

/-- The result of the stream whose commands ran from `before` to `after` (R96). -/
def streamResult (before after : State) : StreamResult :=
  match after.decSt with
  | .done => .success (after.byteOut.drop before.byteOut.length)
  | .error => .failure after.decErr
  | .idle => .notEnded
  | .active => .notEnded

/-- The result of the message whose commands ran from `before` to `after`, if it has ended (R95, R182). -/
def messageResult (before after : State) : Option (List CodePoint) :=
  match after.encSt with
  | .idle => some (after.symOut.drop before.symOut.length)
  | .active => none

/-- The filler of a final partial group of `r` bytes (R87): V1 fills to four symbols, V2 marks the end with one PAD, and
neither adds any when r is 0 or 4. -/
def fillerPads (a : Alphabet) (v : Variant) (r : Nat) : List CodePoint :=
  match v, r with
  | .V1, 1 => [a.pad, a.pad, a.pad]
  | .V1, 2 => [a.pad, a.pad]
  | .V1, 3 => [a.pad]
  | .V2, 1 => [a.pad]
  | .V2, 2 => [a.pad]
  | .V2, 3 => [a.pad]
  | _, _ => []

/-- The Tail symbol of a group with a Tail index (R85, R87). -/
def tailSymbols (a : Alphabet) (v : Variant) : Option TailIdx → List CodePoint
  | some t => [a.tail v t]
  | none => []

/-- The symbols of a final partial group (R85, R87); none for r = 0. -/
def finalGroupSymbols (a : Alphabet) (v : Variant) (bs : List Byte) : List CodePoint :=
  (packPartial bs).1.map (a.main v) ++ tailSymbols a v (packPartial bs).2 ++ fillerPads a v bs.length

/-- The symbols of a full group (R84, R87). -/
def fullGroupSymbols (a : Alphabet) (v : Variant) (b0 b1 b2 b3 b4 : Byte) : List CodePoint :=
  [a.main v (pack5 b0 b1 b2 b3 b4).1, a.main v (pack5 b0 b1 b2 b3 b4).2.1,
   a.main v (pack5 b0 b1 b2 b3 b4).2.2.1, a.main v (pack5 b0 b1 b2 b3 b4).2.2.2]

/-- The symbols of a message without line breaks (R87): its full groups, then its final partial group. -/
def messageSymbols (a : Alphabet) (v : Variant) : List Byte → List CodePoint
  | b0 :: b1 :: b2 :: b3 :: b4 :: rest => fullGroupSymbols a v b0 b1 b2 b3 b4 ++ messageSymbols a v rest
  | bs => finalGroupSymbols a v bs

/-- A line break after every `w`-th symbol, `col` symbols standing on the open line (42_encoder.md R128). -/
def breakLines (lb : CodePoint) (w : Nat) : Nat → List CodePoint → List CodePoint
  | _, [] => []
  | col, cp :: rest =>
    if col + 1 = w then cp :: lb :: breakLines lb w 0 rest else cp :: breakLines lb w (col + 1) rest

/-- The symbols of a message with its line breaks (42_encoder.md R128): with `FINAL_LB` an incomplete last line ends with
one too. -/
def wrapSymbols (c : Config) (wrap : Nat) (syms : List CodePoint) : List CodePoint :=
  if wrap = 0 then syms
  else breakLines c.lbCp wrap 0 syms ++ (if c.finalLb = true ∧ syms.length % wrap ≠ 0 then [c.lbCp] else [])

/-- What `encode V, wrap, bs` appends to `SYM_OUT` (30_encoding.md R87, R95; 42_encoder.md R128). -/
def messageOutput (c : Config) (v : Variant) (wrap : Nat) (bs : List Byte) : List CodePoint :=
  wrapSymbols c wrap (messageSymbols c.alphabet v bs)

/-- The number of symbols of a message of `L` bytes (30_encoding.md R90). -/
def symbolCount (v : Variant) (L : Nat) : Nat :=
  match v, L % 5 with
  | .V1, 0 => 4 * (L / 5)
  | .V1, _ => 4 * (L / 5) + 4
  | .V2, 0 => 4 * (L / 5)
  | .V2, 1 => 4 * (L / 5) + 2
  | .V2, 2 => 4 * (L / 5) + 3
  | .V2, _ => 4 * (L / 5) + 4

/-- A stream holds a variant-discriminating symbol of variant `v` (R23, 40_alphabet_mapper.md R101). -/
def holdsVariant (c : Config) (v : Variant) (cps : List CodePoint) : Prop :=
  ∃ cp ∈ cps, classVariant (classify c cp) = some v

/-- A stream holds a symbol outside the alphabet and the whitespace set (43_decoder.md R146). -/
def holdsInvalid (c : Config) (cps : List CodePoint) : Prop := ∃ cp ∈ cps, classify c cp = .invalid

/-- A stream holds symbols of both variants (43_decoder.md R146). -/
def holdsMixed (c : Config) (cps : List CodePoint) : Prop := holdsVariant c .V1 cps ∧ holdsVariant c .V2 cps

/-- The group grammar of a stream (30_encoding.md R88), read left to right with `acc` the Mains of the open group: the
bytes of the stream, or none where it matches no sequence of group forms. -/
def streamBytes : List Chunk → List CpClass → Option (List Byte)
  | [], [] => some []
  | _ :: _, [] => none
  | acc, .ws :: rest => streamBytes acc rest
  | acc, .pad :: rest => (streamBytes [] rest).map (unpackPad acc ++ ·)
  | [c0, c1, c2], .main _ i :: rest => (streamBytes [] rest).map (unpack5 c0 c1 c2 i ++ ·)
  | acc, .main _ i :: rest => streamBytes (acc ++ [i]) rest
  | [c0, c1, c2], .tail _ t :: rest => (streamBytes [] rest).map (unpackTail c0 c1 c2 t ++ ·)
  | _, .tail _ _ :: _ => none
  | _, .invalid :: _ => none

end Sys2Proof.Machine
end

