-- ==== Sys2Proof/Certificates/Slice0/Obligations.lean ====
section
/-! DEFINITION. Certificates/Slice0/Obligations.lean: the statements, each with the rule of spec/ it rests on. -/

open Sys2Proof Sys2Proof.Machine

/-! ## The command word -/

/-- Words written out from the formats R75 to R79 decode to their commands, one for each family and each kind of illegal
word (95_test_vectors.md section 3.1). -/
def Obligations.SpecWordsDecodeToTheirCommands : Prop :=
  decode 0x18FFFFFF#32 = .ok (.encStart .V2 0xFFFFFF#24) ∧
  decode 0x200000FF#32 = .ok (.encByte 0xFF#8) ∧
  decode 0x30000000#32 = .ok .encEnd ∧
  decode 0x40000000#32 = .ok .decStart ∧
  decode 0x501FFFFF#32 = .ok (.decSym 0x1FFFFF#21) ∧
  decode 0x60000000#32 = .ok .decEnd ∧
  decode 0x780003FF#32 = .ok (.mapMain .V2 1023#10) ∧
  decode 0x7A000002#32 = .ok (.mapTail .V2 2#2) ∧
  decode 0x74000000#32 = .ok .mapPad ∧
  decode 0x80000041#32 = .ok (.mapRev 0x41#21) ∧
  decode 0x90000000#32 = .ok .clrCmdErr ∧
  decode 0x00000000#32 = .error .reservedOpcode ∧
  decode 0x11000000#32 = .error .mbzBitSet ∧
  decode 0x76000000#32 = .error .reservedTsel

/-- R75 to R81, R83: the decoder and the encoder agree. For every well-formed command the decoder reads from its word the
command, with every operand at every value its field admits, and a legal word is the one word of its command. -/
def Obligations.DecodeAndEncodeAgree : Prop :=
  (∀ i : Instr, i.wellFormed = true → decode (encode i) = .ok i) ∧
  (∀ (w : CmdWord) (i : Instr), decode w = .ok i → encode i = w)

/-- R80, whole: the rows, the illegal opcodes, and that at most one row fits any word. -/
def Obligations.OpcodeRowsNeverOverlap : Prop :=
  opcodeMap =
    [⟨"enc.start", 0x10000000#32, 0xF7000000#32⟩, ⟨"enc.byte", 0x20000000#32, 0xFFFFFF00#32⟩,
     ⟨"enc.end", 0x30000000#32, 0xFFFFFFFF#32⟩, ⟨"dec.start", 0x40000000#32, 0xFFFFFFFF#32⟩,
     ⟨"dec.sym", 0x50000000#32, 0xFFE00000#32⟩, ⟨"dec.end", 0x60000000#32, 0xFFFFFFFF#32⟩,
     ⟨"map.main", 0x70000000#32, 0xF7FFFC00#32⟩, ⟨"map.tail", 0x72000000#32, 0xF7FFFFFC#32⟩,
     ⟨"map.pad", 0x74000000#32, 0xFFFFFFFF#32⟩, ⟨"map.rev", 0x80000000#32, 0xFFE00000#32⟩,
     ⟨"clr.cmderr", 0x90000000#32, 0xFFFFFFFF#32⟩] ∧
  opcodeMap.Pairwise (fun r q => (r.matchBits ^^^ q.matchBits) &&& r.maskBits &&& q.maskBits ≠ 0#32) ∧
  (∀ (w : CmdWord) (r q : OpcodeRow), r ∈ opcodeMap → q ∈ opcodeMap →
    w &&& r.maskBits = r.matchBits → w &&& q.maskBits = q.matchBits → r = q) ∧
  (∀ w : CmdWord, (w.toNat / 2 ^ 28 = 0 ∨ 0xA ≤ w.toNat / 2 ^ 28) → decode w = .error .reservedOpcode)

/-- R81: decoding is total, answers the unique row with `(w & mask) = match`, and answers ILLEGAL where no row fits. -/
def Obligations.DecodeAnswersTheFittingRow : Prop :=
  ∀ w : CmdWord,
    (∀ i, decode w = .ok i →
      opcodeRow i ∈ opcodeMap ∧ w &&& (opcodeRow i).maskBits = (opcodeRow i).matchBits) ∧
    ((∃ e, decode w = .error e) ↔ ∀ r ∈ opcodeMap, w &&& r.maskBits ≠ r.matchBits)

/-- R83, whole: operands are the word's fields without sign extension, scaling or shifting; a code point above 0x10FFFF
is a legal operand that is not in the alphabet. -/
def Obligations.OperandsAreTheWordsFields : Prop :=
  (∀ (w : CmdWord) (i : Instr), decode w = .ok i →
    match i with
    | .encStart v wrap => wrap.toNat = w.toNat % 2 ^ 24 ∧ (v = .V2 ↔ w.toNat / 2 ^ 27 % 2 = 1)
    | .encByte b => b.toNat = w.toNat % 2 ^ 8
    | .decSym cp => cp.toNat = w.toNat % 2 ^ 21
    | .mapMain v idx => idx.toNat = w.toNat % 2 ^ 10 ∧ (v = .V2 ↔ w.toNat / 2 ^ 27 % 2 = 1)
    | .mapTail v t => t.toNat = w.toNat % 2 ^ 2 ∧ (v = .V2 ↔ w.toNat / 2 ^ 27 % 2 = 1)
    | .mapRev cp => cp.toNat = w.toNat % 2 ^ 21
    | .encEnd => True
    | .decStart => True
    | .decEnd => True
    | .mapPad => True
    | .clrCmdErr => True) ∧
  (∀ cp : CodePoint, decode (0x50000000#32 ||| cp.zeroExtend 32) = .ok (.decSym cp) ∧
    decode (0x80000000#32 ||| cp.zeroExtend 32) = .ok (.mapRev cp)) ∧
  (∀ (c : AdmittedConfig) (cp : CodePoint), 0x10FFFF < cp.toNat → cp ∉ c.alphabet.words)

/-- R82, whole: which words are illegal, and that executing one records ILLEGAL_CMD and does nothing else. -/
def Obligations.IllegalWordsAreExactlyTheListedOnes : Prop :=
  ∀ w : CmdWord,
    ((∃ e, decode w = .error e) ↔
      (w.toNat / 2 ^ 28 = 0x0 ∨ 0xA ≤ w.toNat / 2 ^ 28) ∨
      (w.toNat / 2 ^ 28 = 0x1 ∧ w &&& 0x07000000#32 ≠ 0#32) ∨
      (w.toNat / 2 ^ 28 = 0x2 ∧ w &&& 0x0FFFFF00#32 ≠ 0#32) ∨
      ((w.toNat / 2 ^ 28 = 0x3 ∨ w.toNat / 2 ^ 28 = 0x4 ∨ w.toNat / 2 ^ 28 = 0x6 ∨ w.toNat / 2 ^ 28 = 0x9) ∧
        w &&& 0x0FFFFFFF#32 ≠ 0#32) ∨
      ((w.toNat / 2 ^ 28 = 0x5 ∨ w.toNat / 2 ^ 28 = 0x8) ∧ w &&& 0x0FE00000#32 ≠ 0#32) ∨
      (w.toNat / 2 ^ 28 = 0x7 ∧
        (w &&& 0x01FFFC00#32 ≠ 0#32 ∨
         (w.toNat / 2 ^ 25 % 4 = 1 ∧ w &&& 0x000003FC#32 ≠ 0#32) ∨
         (w.toNat / 2 ^ 25 % 4 = 2 ∧ w &&& 0x080003FF#32 ≠ 0#32) ∨
         w.toNat / 2 ^ 25 % 4 = 3))) ∧
    (∀ (e : Illegal) (s : State), decode w = .error e →
      applyCommand w s =
        .next (if s.cmdErr = .none then { s with cmdErr := .illegalCmd, cmdErrWord := w } else s))

/-- R92, the words of the assembler's lines; a line with an operand out of range has no word. -/
def Obligations.AssemblerMakesTheTabledWords : Prop :=
  (∀ v wrap, assemble (.encStart v wrap) =
    if wrap < 2 ^ 24 then
      some [0x10000000#32 ||| ((variantBit v).zeroExtend 32 <<< 27) ||| BitVec.ofNat 32 wrap] else none) ∧
  (∀ b, assemble (.encByte b) = if b ≤ 255 then some [0x20000000#32 ||| BitVec.ofNat 32 b] else none) ∧
  assemble .encEnd = some [0x30000000#32] ∧
  assemble .decStart = some [0x40000000#32] ∧
  (∀ cp, assemble (.decSym cp) = if cp ≤ 0x1FFFFF then some [0x50000000#32 ||| BitVec.ofNat 32 cp] else none) ∧
  assemble .decEnd = some [0x60000000#32] ∧
  (∀ v i, assemble (.mapMain v i) =
    if i ≤ 1023 then
      some [0x70000000#32 ||| ((variantBit v).zeroExtend 32 <<< 27) ||| BitVec.ofNat 32 i] else none) ∧
  (∀ v t, assemble (.mapTail v t) =
    if t ≤ 3 then
      some [0x72000000#32 ||| ((variantBit v).zeroExtend 32 <<< 27) ||| BitVec.ofNat 32 t] else none) ∧
  assemble .mapPad = some [0x74000000#32] ∧
  (∀ cp, assemble (.mapRev cp) = if cp ≤ 0x1FFFFF then some [0x80000000#32 ||| BitVec.ofNat 32 cp] else none) ∧
  assemble .clrCmdErr = some [0x90000000#32]

/-- R93 to R96, R147: a pseudo-instruction's words are those of its expansion, and running a list of commands' words is
running the commands. -/
def Obligations.PseudoInstructionsRunAsTheirExpansion : Prop :=
  (∀ bs : List Byte, assemble (.encBytes (bs.map BitVec.toNat)) = some (bs.map (fun b => encode (.encByte b)))) ∧
  (∀ cps : List CodePoint,
    assemble (.decSyms (cps.map BitVec.toNat)) = some (cps.map (fun cp => encode (.decSym cp)))) ∧
  (∀ (v : Variant) (wrap : WrapCount) (bs : List Byte),
    assemble (.encodeMsg v wrap.toNat (bs.map BitVec.toNat)) =
      some (encode (.encStart v wrap) :: bs.map (fun b => encode (.encByte b)) ++ [0x30000000#32])) ∧
  (∀ cps : List CodePoint,
    assemble (.decodeStream (cps.map BitVec.toNat)) =
      some (0x40000000#32 :: cps.map (fun cp => encode (.decSym cp)) ++ [0x60000000#32])) ∧
  (∀ (is : List Instr) (s : State), runWords (is.map encode) s = runInstrs is s)

/-! ## The step, reset and the read port -/

/-- R147, R149, R167, R168, R181: one step. Where the host's next action is a command word that decodes to a well-formed
instruction, the step runs that instruction; an illegal word is rejected; a register read only returns its word to the
host; draining an output returns its oldest unread element; a reset gives the reset state of the same machine; with no
action nothing changes. That the host's actions stand in `pending` and what it was returned in `replies`, and that
draining an output with no unread element returns nothing, is the model's choice (log 4, log 6, log 19). -/
def Obligations.StepAppliesTheHostsNextAction : Prop :=
  (∀ (s : State) (w : CmdWord) (i : Instr) (rest : List HostAction),
    s.pending = .command w :: rest → decode w = .ok i → i.wellFormed = true →
    step s = exec i { s with pending := rest }) ∧
  (∀ (s : State) (w : CmdWord) (e : Illegal) (rest : List HostAction),
    s.pending = .command w :: rest → decode w = .error e →
    step s = .next (illegalCommand w { s with pending := rest })) ∧
  (∀ (s : State) (sel : BitVec 4) (rest : List HostAction), s.pending = .read sel :: rest →
    step s = .next { s with pending := rest, replies := s.replies ++ [.register (readReg sel s)] }) ∧
  (∀ (s : State) (rest : List HostAction), s.pending = .reset :: rest →
    step s = .next { State.resetWith s.cfg with pending := rest, replies := s.replies }) ∧
  (∀ (s : State) (cp : CodePoint) (rest : List HostAction), s.pending = .drainSym :: rest →
    s.symOut[s.symDrained]? = some cp →
    step s = .next { s with pending := rest, symDrained := s.symDrained + 1, replies := s.replies ++ [.symbol cp] }) ∧
  (∀ (s : State) (b : Byte) (rest : List HostAction), s.pending = .drainByte :: rest →
    s.byteOut[s.byteDrained]? = some b →
    step s = .next { s with pending := rest, byteDrained := s.byteDrained + 1, replies := s.replies ++ [.byte b] }) ∧
  (∀ (s : State) (rest : List HostAction),
    (s.pending = .drainSym :: rest ∧ s.symOut.length ≤ s.symDrained) ∨
    (s.pending = .drainByte :: rest ∧ s.byteOut.length ≤ s.byteDrained) → step s = .next { s with pending := rest }) ∧
  (∀ s : State, s.pending = [] → step s = .next s)

/-- R168, R169: the reset event leaves every register at its reset value, the outputs empty, the ROM as it was, and
every select of the read port at 0; the reset state is the same. -/
def Obligations.ResetLeavesTheListedValues : Prop :=
  (∀ s : State,
    let t := resetEvent s
    t.encSt = .idle ∧ t.encVar = .V1 ∧ t.encWrap = 0#24 ∧ t.encCol = 0#24 ∧ t.encCnt = 0 ∧
    (∀ (j : Nat) (h : j < 4), t.encBuf[j] = none) ∧
    t.decSt = .idle ∧ t.decLock = .unlocked ∧ t.decCnt = 0 ∧ (∀ (j : Nat) (h : j < 3), t.decAcc[j] = none) ∧
    t.decErr = .none ∧ t.decErrCp = 0#21 ∧ t.decPend = false ∧ t.decPendCp = 0#21 ∧
    t.cmdErr = .none ∧ t.cmdErrWord = 0#32 ∧ t.mapResult = 0#32 ∧ t.symOut = [] ∧ t.byteOut = [] ∧
    t.symDrained = 0 ∧ t.byteDrained = 0 ∧ t.cfg = s.cfg ∧ ∀ sel, readReg sel t = 0x00000000#32) ∧
  (∀ s : State, { resetEvent s with pending := [], replies := [] } = State.resetWith s.cfg) ∧
  State.reset = State.resetWith Config.machine

/-- R49, whole, with the codes of R28, R29, R32, R34, R35, R36, R38, R40 and R42: each field of STATUS and each
hardwired zero. -/
def Obligations.StatusWordHoldsTheFields : Prop :=
  (∀ s : State,
    (statusWord s).extractLsb' 0 1 = (match s.encSt with | .idle => 0#1 | .active => 1#1) ∧
    ((statusWord s).extractLsb' 1 3).toNat = s.encCnt.val ∧
    (statusWord s).extractLsb' 4 1 = (match s.encVar with | .V1 => 0#1 | .V2 => 1#1) ∧
    (statusWord s).extractLsb' 5 3 = 0#3 ∧
    (statusWord s).extractLsb' 8 2 =
      (match s.decSt with | .idle => 0#2 | .active => 1#2 | .done => 2#2 | .error => 3#2) ∧
    (statusWord s).extractLsb' 10 2 =
      (match s.decLock with | .unlocked => 0#2 | .locked .V1 => 1#2 | .locked .V2 => 2#2) ∧
    ((statusWord s).extractLsb' 12 2).toNat = s.decCnt.val ∧
    (statusWord s).getLsbD 14 = s.decPend ∧
    (statusWord s).extractLsb' 15 1 = 0#1 ∧
    (statusWord s).extractLsb' 16 3 =
      (match s.decErr with
       | .none => 0#3 | .nonAlphabet => 1#3 | .mixedVersions => 2#3 | .frameTailEarly => 3#3
       | .frameTruncated => 4#3) ∧
    (statusWord s).extractLsb' 19 5 = 0#5 ∧
    (statusWord s).extractLsb' 24 3 =
      (match s.cmdErr with | .none => 0#3 | .illegalCmd => 1#3 | .sequence => 2#3) ∧
    (statusWord s).extractLsb' 27 5 = 0#5) ∧
  (∀ c : AdmittedConfig, statusWord (State.resetWith c) = 0x00000000#32)

/-- R48: the register map of the read port, and that a read has no side effect. That the word read is kept for the host
in `replies` is the model's choice (log 6). -/
def Obligations.ReadPortShowsTheRegisterMap : Prop :=
  (∀ s : State,
    readReg 0#4 s = statusWord s ∧
    readReg 1#4 s = s.encWrap.zeroExtend 32 ∧
    readReg 2#4 s = s.encCol.zeroExtend 32 ∧
    readReg 3#4 s = s.decErrCp.zeroExtend 32 ∧
    readReg 4#4 s = s.mapResult ∧
    readReg 5#4 s = s.cmdErrWord ∧
    readReg 6#4 s = s.decPendCp.zeroExtend 32 ∧
    (∀ sel : BitVec 4, 7 ≤ sel.toNat → readReg sel s = 0x00000000#32)) ∧
  (∀ (c : AdmittedConfig) (sel : BitVec 4), readReg sel (State.resetWith c) = 0x00000000#32) ∧
  (∀ (sel : BitVec 4) (s : State),
    applyAction (.read sel) s = .next { s with replies := s.replies ++ [.register (readReg sel s)] })

/-- R45, R147, R181: the outputs only grow; a command appends at most 8 elements to SYM_OUT and at most 5 to BYTE_OUT,
only enc.byte, enc.end and dec.sym append anything, and no command drains. Draining `n` unread elements returns them in
the order they were appended and changes nothing else; `replies` is the model's own (log 6). -/
def Obligations.CommandsAppendBoundedOutput : Prop :=
  (∀ (i : Instr) (s t : State), exec i s = .next t →
    ∃ (syms : List CodePoint) (bytes : List Byte),
      t.symOut = s.symOut ++ syms ∧ t.byteOut = s.byteOut ++ bytes ∧ syms.length ≤ 8 ∧ bytes.length ≤ 5 ∧
      ((∀ b, i ≠ .encByte b) → i ≠ .encEnd → syms = []) ∧ ((∀ cp, i ≠ .decSym cp) → bytes = []) ∧
      t.symDrained = s.symDrained ∧ t.byteDrained = s.byteDrained) ∧
  (∀ (n : Nat) (s : State), s.symDrained + n ≤ s.symOut.length →
    runActions (List.replicate n .drainSym) s =
      .next { s with symDrained := s.symDrained + n,
                     replies := s.replies ++ ((s.symOut.drop s.symDrained).take n).map .symbol }) ∧
  (∀ (n : Nat) (s : State), s.byteDrained + n ≤ s.byteOut.length →
    runActions (List.replicate n .drainByte) s =
      .next { s with byteDrained := s.byteDrained + n,
                     replies := s.replies ++ ((s.byteOut.drop s.byteDrained).take n).map .byte })

/-- R46, R72, R169: no command, no error, no register read and no reset writes the ROM or the configuration; every ROM
address reads as before. -/
def Obligations.NothingWritesTheRom : Prop :=
  ∀ s t : State, step s = .next t →
    t.cfg = s.cfg ∧ ∀ addr : RomAddr, romRead t.cfg.alphabet addr = romRead s.cfg.alphabet addr

/-! ## The alphabet mapper -/

/-- R55, whole: the ROM's layout and the address functions. -/
def Obligations.RomIsLaidOutByAddress : Prop :=
  (∀ (v : Variant) (i : Chunk), (mainAddr v i).toNat = 0x400 * (variantBit v).toNat + i.toNat) ∧
  (∀ (v : Variant) (t : TailIdx), (tailAddr v t).toNat = 0x800 + 4 * (variantBit v).toNat + t.toNat) ∧
  padAddr = 0x808#12 ∧
  (∀ (c : AdmittedConfig) (addr : RomAddr),
    (∀ i : Chunk, addr.toNat = 0x000 + i.toNat → romRead c.alphabet addr = some (c.alphabet.main .V1 i)) ∧
    (∀ i : Chunk, addr.toNat = 0x400 + i.toNat → romRead c.alphabet addr = some (c.alphabet.main .V2 i)) ∧
    (∀ t : TailIdx, addr.toNat = 0x800 + t.toNat → romRead c.alphabet addr = some (c.alphabet.tail .V1 t)) ∧
    (∀ t : TailIdx, addr.toNat = 0x804 + t.toNat → romRead c.alphabet addr = some (c.alphabet.tail .V2 t)) ∧
    (addr.toNat = 0x808 → romRead c.alphabet addr = some c.alphabet.pad) ∧
    (0x809 ≤ addr.toNat → romRead c.alphabet addr = none))

/-- R103, whole: the forward lookups read the ROM, and under R98 they invert Classify. -/
def Obligations.ForwardLookupsInvertClassify : Prop :=
  ∀ c : AdmittedConfig,
    (∀ (v : Variant) (i : Chunk), romRead c.alphabet (mainAddr v i) = some (c.alphabet.main v i) ∧
      classify c.toConfig (c.alphabet.main v i) = .main v i) ∧
    (∀ (v : Variant) (t : TailIdx), romRead c.alphabet (tailAddr v t) = some (c.alphabet.tail v t) ∧
      classify c.toConfig (c.alphabet.tail v t) = .tail v t) ∧
    romRead c.alphabet padAddr = some c.alphabet.pad ∧ classify c.toConfig c.alphabet.pad = .pad

/-- R100, whole: under R98 the class of a code point is the one table, PAD or set it belongs to, with its index, and
INVALID where there is none. No whitespace code point is above 0x10FFFF, in the rule's own words, so no clause claims WS
of one, and every code point above 0x10FFFF is INVALID. -/
def Obligations.ClassifyMeansMembership : Prop :=
  ∀ (c : AdmittedConfig) (cp : CodePoint),
    (∀ v i, classify c.toConfig cp = .main v i ↔ c.alphabet.main v i = cp) ∧
    (∀ v t, classify c.toConfig cp = .tail v t ↔ c.alphabet.tail v t = cp) ∧
    (classify c.toConfig cp = .pad ↔ cp = c.alphabet.pad) ∧
    (classify c.toConfig cp = .ws ↔ cp ∈ c.wsSet) ∧
    (classify c.toConfig cp = .invalid ↔ cp ∉ c.alphabet.words ∧ cp ∉ c.wsSet) ∧
    (0x110000 ≤ cp.toNat → cp ∉ c.alphabet.words ∧ cp ∉ c.wsSet ∧ classify c.toConfig cp = .invalid)

/-- R102 and R109, whole: the class codes and the layout of the reverse lookup's result. -/
def Obligations.RevWordPacksTheClass : Prop :=
  (∀ c : CpClass,
    (revWord c).extractLsb' 29 3 = classCode c ∧
    ((revWord c).extractLsb' 28 1 = match classVariant c with | some v => variantBit v | none => 0#1) ∧
    (revWord c).extractLsb' 10 18 = 0#18 ∧
    (classCode c).toNat ≤ 4) ∧
  classCode .invalid = 0#3 ∧ (∀ v i, classCode (.main v i) = 1#3) ∧ (∀ v t, classCode (.tail v t) = 2#3) ∧
  classCode .pad = 3#3 ∧ classCode .ws = 4#3 ∧
  (∀ v i, revWord (.main v i) = (1#32 <<< 29) ||| ((variantBit v).zeroExtend 32 <<< 28) ||| i.zeroExtend 32) ∧
  (∀ v t, revWord (.tail v t) = (2#32 <<< 29) ||| ((variantBit v).zeroExtend 32 <<< 28) ||| t.zeroExtend 32) ∧
  revWord .pad = 0x60000000#32 ∧ revWord .ws = 0x80000000#32 ∧ revWord .invalid = 0#32

/-- R107, whole, and the effects of R104, R105 and R106: the three forward map commands complete in every state, write the
code point into bits 20..0 of MAP_RESULT with bits 31..21 zero, and change nothing else. -/
def Obligations.MapLookupsWriteTheCodePoint : Prop :=
  ∀ s : State,
    (∀ (v : Variant) (i : Chunk), ∃ r : BitVec 32, exec (.mapMain v i) s = .next { s with mapResult := r } ∧
      r.extractLsb' 0 21 = s.cfg.alphabet.main v i ∧ r.extractLsb' 21 11 = 0#11) ∧
    (∀ (v : Variant) (t : TailIdx), ∃ r : BitVec 32, exec (.mapTail v t) s = .next { s with mapResult := r } ∧
      r.extractLsb' 0 21 = s.cfg.alphabet.tail v t ∧ r.extractLsb' 21 11 = 0#11) ∧
    (∃ r : BitVec 32, exec .mapPad s = .next { s with mapResult := r } ∧
      r.extractLsb' 0 21 = s.cfg.alphabet.pad ∧ r.extractLsb' 21 11 = 0#11)

/-- R108, R109: map.rev completes in every state, writes only MAP_RESULT (so it locks nothing), and its word is the one
R109 writes out for the table the code point stands in. A code point above 0x10FFFF, which no whitespace set holds (R100,
`Config.wsUnicode`), gives INVALID's word 0. -/
def Obligations.MapRevClassifiesWithoutLocking : Prop :=
  ∀ (s : State) (cp : CodePoint),
    exec (.mapRev cp) s = .next { s with mapResult := revWord (classify s.cfg.toConfig cp) } ∧
    (∀ v i, cp = s.cfg.alphabet.main v i → exec (.mapRev cp) s =
      .next { s with mapResult := (1#32 <<< 29) ||| ((variantBit v).zeroExtend 32 <<< 28) ||| i.zeroExtend 32 }) ∧
    (∀ v t, cp = s.cfg.alphabet.tail v t → exec (.mapRev cp) s =
      .next { s with mapResult := (2#32 <<< 29) ||| ((variantBit v).zeroExtend 32 <<< 28) ||| t.zeroExtend 32 }) ∧
    (cp = s.cfg.alphabet.pad → exec (.mapRev cp) s = .next { s with mapResult := 0x60000000#32 }) ∧
    (cp ∈ s.cfg.wsSet → exec (.mapRev cp) s = .next { s with mapResult := 0x80000000#32 }) ∧
    (cp ∉ s.cfg.alphabet.words → cp ∉ s.cfg.wsSet → exec (.mapRev cp) s = .next { s with mapResult := 0#32 }) ∧
    (0x110000 ≤ cp.toNat → exec (.mapRev cp) s = .next { s with mapResult := 0#32 })

/-! ## The bit-packer -/

/-- R117, whole: pack and unpack invert each other. With R110 and R114: a full group's window is its five bytes, and its
four chunks, each most significant first. -/
def Obligations.UnpackInvertsPack : Prop :=
  (∀ b0 b1 b2 b3 b4 : Byte,
    let c := pack5 b0 b1 b2 b3 b4
    c.1 ++ c.2.1 ++ c.2.2.1 ++ c.2.2.2 = b0 ++ b1 ++ b2 ++ b3 ++ b4 ∧
    unpack5 c.1 c.2.1 c.2.2.1 c.2.2.2 = [b0, b1, b2, b3, b4]) ∧
  (∀ bs : List Byte, 1 ≤ bs.length → bs.length ≤ 3 → unpackPad (packPartial bs).1 = bs) ∧
  (∀ b0 b1 b2 b3 : Byte, ∃ c0 c1 c2 t,
    packPartial [b0, b1, b2, b3] = ([c0, c1, c2], some t) ∧ unpackTail c0 c1 c2 t = [b0, b1, b2, b3]) ∧
  (∀ c0 c1 c2 c3 : Chunk, ∃ b0 b1 b2 b3 b4,
    unpack5 c0 c1 c2 c3 = [b0, b1, b2, b3, b4] ∧ b0 ++ b1 ++ b2 ++ b3 ++ b4 = c0 ++ c1 ++ c2 ++ c3 ∧
    pack5 b0 b1 b2 b3 b4 = (c0, c1, c2, c3))

/-- R112 and R113, whole: a partial group of r bytes has n = ceil(8r/10) = r real chunks, the padding bits are zero, and
r = 4 has a Tail index and no padding bit. With R111: the chunks, first most significant, are the bytes, first most
significant, followed by the padding. -/
def Obligations.PartialGroupHasZeroPadding : Prop :=
  (∀ bs : List Byte, 1 ≤ bs.length → bs.length ≤ 4 →
    (packPartial bs).1.length + (packPartial bs).2.toList.length = (8 * bs.length + 9) / 10 ∧
    (8 * bs.length + 9) / 10 = bs.length ∧
    ((packPartial bs).2.isSome = true ↔ bs.length = 4)) ∧
  (∀ b0 : Byte, ∃ c0, packPartial [b0] = ([c0], none) ∧ c0.extractLsb' 0 2 = 0#2 ∧ c0 = b0 ++ 0#2) ∧
  (∀ b0 b1 : Byte, ∃ c0 c1, packPartial [b0, b1] = ([c0, c1], none) ∧ c1.extractLsb' 0 4 = 0#4 ∧
    c0 ++ c1 = b0 ++ b1 ++ 0#4) ∧
  (∀ b0 b1 b2 : Byte, ∃ c0 c1 c2, packPartial [b0, b1, b2] = ([c0, c1, c2], none) ∧ c2.extractLsb' 0 6 = 0#6 ∧
    c0 ++ c1 ++ c2 = b0 ++ b1 ++ b2 ++ 0#6) ∧
  (∀ b0 b1 b2 b3 : Byte, ∃ c0 c1 c2 t, packPartial [b0, b1, b2, b3] = ([c0, c1, c2], some t) ∧
    c0 ++ c1 ++ c2 ++ t = b0 ++ b1 ++ b2 ++ b3)

/-- R118: UnpackPad loses exactly the low 2k bits of the last of its k chunks; Unpack5 and UnpackTail lose nothing. With
R115 and R116: the bytes, first most significant, are the chunks, first most significant, without the lost bits. -/
def Obligations.UnpackLosesOnlyThePadding : Prop :=
  (∀ c0 : Chunk, ∃ b0, unpackPad [c0] = [b0] ∧ b0 ++ c0.extractLsb' 0 2 = c0) ∧
  (∀ c0 c1 : Chunk, ∃ b0 b1, unpackPad [c0, c1] = [b0, b1] ∧ b0 ++ b1 ++ c1.extractLsb' 0 4 = c0 ++ c1) ∧
  (∀ c0 c1 c2 : Chunk, ∃ b0 b1 b2, unpackPad [c0, c1, c2] = [b0, b1, b2] ∧
    b0 ++ b1 ++ b2 ++ c2.extractLsb' 0 6 = c0 ++ c1 ++ c2) ∧
  (∀ (c0 c1 c2 : Chunk) (t : TailIdx), ∃ b0 b1 b2 b3, unpackTail c0 c1 c2 t = [b0, b1, b2, b3] ∧
    b0 ++ b1 ++ b2 ++ b3 = c0 ++ c1 ++ c2 ++ t) ∧
  (∀ (pre pre' : List Chunk) (c c' : Chunk), pre.length < 3 → pre'.length = pre.length →
    (unpackPad (pre ++ [c]) = unpackPad (pre' ++ [c']) ↔
      pre = pre' ∧ c.toNat / 4 ^ (pre.length + 1) = c'.toNat / 4 ^ (pre.length + 1))) ∧
  (∀ c0 c1 c2 c3 d0 d1 d2 d3 : Chunk, unpack5 c0 c1 c2 c3 = unpack5 d0 d1 d2 d3 →
    c0 = d0 ∧ c1 = d1 ∧ c2 = d2 ∧ c3 = d3) ∧
  (∀ (c0 c1 c2 d0 d1 d2 : Chunk) (t u : TailIdx), unpackTail c0 c1 c2 t = unpackTail d0 d1 d2 u →
    c0 = d0 ∧ c1 = d1 ∧ c2 = d2 ∧ t = u)

/-! ## The encoder -/

/-- R120: enc.start completes in every state, an open message or none. -/
def Obligations.EncStartOpensAMessage : Prop :=
  ∀ (s : State) (v : Variant) (wrap : WrapCount),
    exec (.encStart v wrap) s =
      .next { s with encSt := .active, encVar := v, encWrap := wrap, encCol := 0#24, encCnt := 0 }

/-- R121: in an open message with fewer than four bytes pending, enc.byte stores its byte and emits nothing. -/
def Obligations.EncByteStoresAPendingByte : Prop :=
  ∀ (s : State) (b : Byte) (j : Fin 4), s.encSt = .active → s.encCnt = j.castSucc →
    exec (.encByte b) s = .next { s with encBuf := s.encBuf.set j.val (some b), encCnt := j.succ }

/-- R121: in an open message with four bytes pending, enc.byte emits the four Main symbols of the group through EmitSym
and empties the group. -/
def Obligations.EncByteEmitsAFullGroup : Prop :=
  ∀ (s : State) (b0 b1 b2 b3 b : Byte), s.encSt = .active → s.encCnt = 4 →
    s.encBuf = #v[some b0, some b1, some b2, some b3] →
    exec (.encByte b) s =
      .next { (fullGroupSymbols s.cfg.alphabet s.encVar b0 b1 b2 b3 b).foldl (fun t cp => emitSym cp t) s
              with encCnt := 0 }

/-- R122: EmitSym appends one symbol and counts it; at the wrap count it appends the line break, uncounted. In
every state with `ENC_COL < ENC_WRAP` the count is exact. -/
def Obligations.EmitSymCountsTheLine : Prop :=
  ∀ (cp : CodePoint) (s : State),
    emitRaw cp s = { s with symOut := s.symOut ++ [cp] } ∧
    (s.encWrap = 0#24 → emitSym cp s = { s with symOut := s.symOut ++ [cp] }) ∧
    (s.encWrap ≠ 0#24 → s.encCol.toNat + 1 = s.encWrap.toNat →
      emitSym cp s = { s with symOut := s.symOut ++ [cp, s.cfg.lbCp], encCol := 0#24 }) ∧
    (s.encWrap ≠ 0#24 → s.encCol.toNat + 1 ≠ s.encWrap.toNat →
      emitSym cp s = { s with symOut := s.symOut ++ [cp], encCol := s.encCol + 1#24 }) ∧
    (s.encCol.toNat < s.encWrap.toNat → s.encCol.toNat + 1 ≠ s.encWrap.toNat →
      (emitSym cp s).encCol.toNat = s.encCol.toNat + 1)

/-- R123: in an open message enc.end emits the symbols of the pending bytes, with their framing, through EmitSym, then
the final line break where FINAL_LB asks for it, and closes the message. -/
def Obligations.EncEndFlushesTheGroup : Prop :=
  ∀ (s : State) (bs : List Byte), s.encSt = .active → s.encBuf.toList.take s.encCnt.val = bs.map some →
    ∃ t u : State,
      t = (finalGroupSymbols s.cfg.alphabet s.encVar bs).foldl (fun t cp => emitSym cp t) s ∧
      (s.cfg.finalLb = true ∧ s.encWrap ≠ 0#24 ∧ t.encCol ≠ 0#24 →
        u = { t with symOut := t.symOut ++ [s.cfg.lbCp] }) ∧
      (¬(s.cfg.finalLb = true ∧ s.encWrap ≠ 0#24 ∧ t.encCol ≠ 0#24) → u = t) ∧
      exec .encEnd s = .next { u with encCol := 0#24, encCnt := 0, encSt := .idle }

/-- R121, R123, R133, R140, R155: each of the four commands that need an open message or stream is rejected with
SEQUENCE where there is none, records its own word if no command error is recorded yet, and changes nothing else. -/
def Obligations.OutOfSequenceCommandsAreRejected : Prop :=
  ∀ s : State,
    (s.encSt = .idle →
      (∀ b : Byte, exec (.encByte b) s =
        .next (if s.cmdErr = .none then
          { s with cmdErr := .sequence, cmdErrWord := 0x20000000#32 ||| b.zeroExtend 32 } else s)) ∧
      exec .encEnd s =
        .next (if s.cmdErr = .none then { s with cmdErr := .sequence, cmdErrWord := 0x30000000#32 } else s)) ∧
    (s.decSt = .idle ∨ s.decSt = .done →
      (∀ cp : CodePoint, exec (.decSym cp) s =
        .next (if s.cmdErr = .none then
          { s with cmdErr := .sequence, cmdErrWord := 0x50000000#32 ||| cp.zeroExtend 32 } else s)) ∧
      exec .decEnd s =
        .next (if s.cmdErr = .none then { s with cmdErr := .sequence, cmdErrWord := 0x60000000#32 } else s))

/-- The frame of the encoder commands (R120, R121, R123, R20): what each leaves unchanged, every ROM address among it. -/
def Obligations.EncoderCommandsFrame : Prop :=
  ∀ (s t : State),
    (∀ v wrap, exec (.encStart v wrap) s = .next t →
      t = { s with encSt := t.encSt, encVar := t.encVar, encWrap := t.encWrap, encCol := t.encCol,
                   encCnt := t.encCnt }) ∧
    (∀ b, s.encSt = .active → exec (.encByte b) s = .next t →
      t = { s with encBuf := t.encBuf, encCnt := t.encCnt, encCol := t.encCol, symOut := t.symOut } ∧
      (s.encCnt ≠ 4 → t = { s with encBuf := t.encBuf, encCnt := t.encCnt } ∧
        ∀ (j : Nat) (h : j < 4), j ≠ s.encCnt.val → t.encBuf[j] = s.encBuf[j]) ∧
      (s.encCnt = 4 → t = { s with encCnt := t.encCnt, encCol := t.encCol, symOut := t.symOut })) ∧
    (s.encSt = .active → exec .encEnd s = .next t →
      t = { s with encSt := t.encSt, encCol := t.encCol, encCnt := t.encCnt, symOut := t.symOut }) ∧
    (∀ i, isEncoder i = true → exec i s = .next t →
      ∀ addr : RomAddr, romRead t.cfg.alphabet addr = romRead s.cfg.alphabet addr)

/-- R84 to R87, R95, R123, R128: from every state, `encode V, wrap, bs` completes and appends exactly the message's
symbols with their line breaks; the decoder, MAP_RESULT and the command error are untouched, and the message is closed. -/
def Obligations.EncodeEmitsTheMessage : Prop :=
  ∀ (s : State) (v : Variant) (wrap : WrapCount) (bs : List Byte),
    ∃ t : State, runInstrs (encodeInstrs v wrap bs) s = .next t ∧
      t.symOut = s.symOut ++ messageOutput s.cfg.toConfig v wrap.toNat bs ∧
      messageResult s t = some (messageOutput s.cfg.toConfig v wrap.toNat bs) ∧
      t.encVar = v ∧ t.encWrap = wrap ∧ t.encCol = 0#24 ∧ t.encCnt = 0 ∧
      sameDecoder s t ∧ t.mapResult = s.mapResult ∧ t.cmdErr = s.cmdErr ∧ t.cmdErrWord = s.cmdErrWord

/-- R90 and R91, whole: the number of symbols of a message, line breaks not counted, and the number of its line breaks. -/
def Obligations.EncodeEmitsTheTabledCounts : Prop :=
  (∀ (s : State) (v : Variant) (wrap : WrapCount) (bs : List Byte),
    ∃ t out, runInstrs (encodeInstrs v wrap bs) s = .next t ∧ t.symOut = s.symOut ++ out ∧
      (out.filter (fun cp => cp != s.cfg.lbCp)).length = symbolCount v bs.length ∧
      (wrap = 0#24 → out.count s.cfg.lbCp = 0) ∧
      (wrap ≠ 0#24 → s.cfg.finalLb = true →
        out.count s.cfg.lbCp = (symbolCount v bs.length + wrap.toNat - 1) / wrap.toNat) ∧
      (wrap ≠ 0#24 → s.cfg.finalLb = false → out.count s.cfg.lbCp = symbolCount v bs.length / wrap.toNat)) ∧
  (∀ L, symbolCount .V1 L = 4 * (L / 5) + (if L % 5 = 0 then 0 else 4)) ∧
  (∀ L, symbolCount .V1 L = 4 * ((L + 4) / 5)) ∧
  (∀ L, some (symbolCount .V2 L) = ([0, 2, 3, 4, 4] : List Nat)[L % 5]?.map (4 * (L / 5) + ·))

/-- R129, whole: deleting the line breaks of a wrapped message gives the unwrapped message. -/
def Obligations.WrappingIsCosmetic : Prop :=
  ∀ (s t t0 : State) (v : Variant) (wrap : WrapCount) (bs : List Byte),
    runInstrs (encodeInstrs v wrap bs) s = .next t → runInstrs (encodeInstrs v 0#24 bs) s = .next t0 →
    ∃ out out0, t.symOut = s.symOut ++ out ∧ t0.symOut = s.symOut ++ out0 ∧
      out.filter (fun cp => cp != s.cfg.lbCp) = out0 ∧ s.cfg.lbCp ∉ s.cfg.alphabet.words

/-- R124, R125 and R126, whole: how a message ends, in each variant, line breaks deleted. `full` is a run of whole groups
and `last` the final partial group. -/
def Obligations.FinalGroupIsFramedByVariant : Prop :=
  ∀ (s t : State) (v : Variant) (wrap : WrapCount) (full last : List Byte),
    full.length % 5 = 0 → last.length < 5 → runInstrs (encodeInstrs v wrap (full ++ last)) s = .next t →
    ∃ out head tail, t.symOut = s.symOut ++ out ∧ out.filter (fun cp => cp != s.cfg.lbCp) = head ++ tail ∧
      head.length = 4 * (full.length / 5) ∧ (∀ cp ∈ head, ∃ i, cp = s.cfg.alphabet.main v i) ∧
      (last.length = 0 → tail = []) ∧
      (1 ≤ last.length → last.length ≤ 3 → (packPartial last).1.length = last.length ∧
        (v = .V1 → tail = (packPartial last).1.map (s.cfg.alphabet.main .V1) ++
          List.replicate (4 - last.length) s.cfg.alphabet.pad) ∧
        (v = .V2 → tail = (packPartial last).1.map (s.cfg.alphabet.main .V2) ++ [s.cfg.alphabet.pad])) ∧
      (last.length = 4 → ∃ j, (packPartial last).2 = some j ∧ (packPartial last).1.length = 3 ∧
        tail = (packPartial last).1.map (s.cfg.alphabet.main v) ++ [s.cfg.alphabet.tail v j]) ∧
      (v = .V1 → (head ++ tail).length % 4 = 0)

/-- R127, whole: a message's symbols are of the tables of its variant, PAD shared, so a message never holds a symbol of
the other variant. -/
def Obligations.MessageHoldsOneVariant : Prop :=
  ∀ (s t : State) (v : Variant) (wrap : WrapCount) (bs : List Byte),
    runInstrs (encodeInstrs v wrap bs) s = .next t →
    ∃ out, t.symOut = s.symOut ++ out ∧
      (∀ cp ∈ out, (∃ i, cp = s.cfg.alphabet.main v i) ∨ (∃ j, cp = s.cfg.alphabet.tail v j) ∨
        cp = s.cfg.alphabet.pad ∨ cp = s.cfg.lbCp) ∧
      (∀ cp ∈ out, ∀ v', classVariant (classify s.cfg.toConfig cp) = some v' → v' = v) ∧
      ¬ holdsMixed s.cfg.toConfig out

/-- R130, whole: the encoder raises no data error. Its commands complete where the invariants hold, and the only errors
are SEQUENCE by enc.byte or enc.end with no open message and ILLEGAL_CMD for a malformed word of its opcodes. -/
def Obligations.EncoderRaisesNoDataError : Prop :=
  (∀ (i : Instr) (s : State), Inv s → isEncoder i = true →
    ∃ t, exec i s = .next t ∧ t.decErr = s.decErr ∧ t.decSt = s.decSt ∧
      (t.cmdErr = s.cmdErr ∨ (t.cmdErr = .sequence ∧ raisesSequence i = true ∧ s.encSt = .idle))) ∧
  (∀ (w : CmdWord) (e : Illegal) (s : State), 0x1 ≤ w.toNat / 2 ^ 28 → w.toNat / 2 ^ 28 ≤ 0x3 →
    decode w = .error e → s.cmdErr = .none →
    applyCommand w s = .next { s with cmdErr := .illegalCmd, cmdErrWord := w })

/-! ## The decoder -/

/-- R132: dec.start completes in every state, an open stream and the error state included. -/
def Obligations.DecStartOpensAStream : Prop :=
  ∀ s : State, exec .decStart s =
    .next { s with decSt := .active, decLock := .unlocked, decCnt := 0, decErr := .none, decErrCp := 0#21,
                   decPend := false, decPendCp := 0#21 }

/-- R139, whole: whitespace, a code point that Classify answers WS for, is skipped wherever it stands and changes no
register; the line break is whitespace. No code point above 0x10FFFF is whitespace (R100). -/
def Obligations.WhitespaceIsSkipped : Prop :=
  ∀ (s : State) (cp : CodePoint), s.decSt = .active → classify s.cfg.toConfig cp = .ws →
    exec (.decSym cp) s = .next s ∧ cp ∈ s.cfg.wsSet ∧ s.cfg.lbCp ∈ s.cfg.wsSet ∧
    classify s.cfg.toConfig s.cfg.lbCp = .ws ∧
    (∀ (pre post : List CodePoint) (r : State),
      r.cfg = s.cfg → runInstrs (decodeInstrs (pre ++ cp :: post)) r = runInstrs (decodeInstrs (pre ++ post)) r)

/-- R134, whole: the lock's transitions on a discriminating symbol; no other symbol and no other command but dec.start
moves the lock. -/
def Obligations.LockFollowsTheFirstVariant : Prop :=
  (∀ (s : State) (cp : CodePoint) (v : Variant), Inv s → s.decSt = .active →
    classVariant (classify s.cfg.toConfig cp) = some v →
    (s.decLock = .unlocked ∨ s.decLock = .locked v →
      ∃ t, exec (.decSym cp) s = .next t ∧ t.decLock = .locked v ∧ t.decSt = .active ∧ t.decErr = s.decErr) ∧
    (∀ v', s.decLock = .locked v' → v' ≠ v →
      exec (.decSym cp) s =
        .next { s with decErr := .mixedVersions, decErrCp := cp, decSt := .error })) ∧
  (∀ (s t : State) (cp : CodePoint), classVariant (classify s.cfg.toConfig cp) = none →
    exec (.decSym cp) s = .next t → t.decLock = s.decLock) ∧
  (∀ (s t : State) (i : Instr), i ≠ .decStart → exec i s = .next t →
    s.decLock ≠ .unlocked → t.decLock = s.decLock) ∧
  (∀ (s t : State) (i : Instr), i ≠ .decStart → (∀ cp, i ≠ .decSym cp) → exec i s = .next t →
    t.decLock = s.decLock) ∧
  (∀ s t : State, exec .decStart s = .next t → t.decLock = .unlocked) ∧
  (∀ s : State, (resetEvent s).decLock = .unlocked)

/-- R135, whole: in an open stream with the Mains `cs` pending, a PAD, a Tail after three Mains and a fourth Main close
the group with its bytes; a Main before the fourth appends no byte. These are also where dec.sym completes. -/
def Obligations.GroupsCloseOnTheFirstOfThree : Prop :=
  ∀ (s : State) (cs : List Chunk), s.decSt = .active → s.decAcc.toList.take s.decCnt.val = cs.map some →
    (∀ cp, classify s.cfg.toConfig cp = .pad →
      exec (.decSym cp) s = .next { s with byteOut := s.byteOut ++ unpackPad cs, decCnt := 0 } ∧
      (unpackPad cs).length = s.decCnt.val) ∧
    (∀ cp v t c0 c1 c2, classify s.cfg.toConfig cp = .tail v t → (s.decLock = .unlocked ∨ s.decLock = .locked v) →
      cs = [c0, c1, c2] →
      exec (.decSym cp) s =
        .next { s with decLock := .locked v, byteOut := s.byteOut ++ unpackTail c0 c1 c2 t, decCnt := 0 }) ∧
    (∀ cp v i c0 c1 c2, classify s.cfg.toConfig cp = .main v i → (s.decLock = .unlocked ∨ s.decLock = .locked v) →
      cs = [c0, c1, c2] →
      exec (.decSym cp) s =
        .next { s with decLock := .locked v, byteOut := s.byteOut ++ unpack5 c0 c1 c2 i, decCnt := 0 }) ∧
    (∀ (cp : CodePoint) (v : Variant) (i : Chunk) (j : Fin 3), classify s.cfg.toConfig cp = .main v i →
      (s.decLock = .unlocked ∨ s.decLock = .locked v) → s.decCnt = j.castSucc →
      exec (.decSym cp) s =
        .next { s with decLock := .locked v, decAcc := s.decAcc.set j.val (some i), decCnt := j.succ })

/-- R136 and R140: a Tail symbol after 0, 1 or 2 Mains takes part in the lock, closes its group with no bytes, and is
recorded if it is the stream's first; dec.end in an open stream reports it, else a truncated group, else ends the
stream. -/
def Obligations.FrameFaultsWaitForDecEnd : Prop :=
  (∀ (s : State) (cp : CodePoint) (v : Variant) (t : TailIdx), s.decSt = .active → s.decCnt.val < 3 →
    classify s.cfg.toConfig cp = .tail v t → (s.decLock = .unlocked ∨ s.decLock = .locked v) →
    (s.decPend = false →
      exec (.decSym cp) s =
        .next { s with decLock := .locked v, decCnt := 0, decPend := true, decPendCp := cp }) ∧
    (s.decPend = true → exec (.decSym cp) s = .next { s with decLock := .locked v, decCnt := 0 })) ∧
  (∀ s : State, s.decSt = .active →
    (s.decPend = true → exec .decEnd s =
      .next { s with decErr := .frameTailEarly, decErrCp := s.decPendCp, decSt := .error }) ∧
    (s.decPend = false → s.decCnt ≠ 0 → exec .decEnd s =
      .next { s with decErr := .frameTruncated, decErrCp := 0#21, decSt := .error }) ∧
    (s.decPend = false → s.decCnt = 0 → exec .decEnd s = .next { s with decSt := .done }))

/-- R154, whole: the decode error entry writes exactly three registers, and a command that raises a decode error has no
other effect. -/
def Obligations.DecodeErrorWritesThreeRegisters : Prop :=
  (∀ (code : DecErr) (cp : CodePoint) (s : State),
    decError code cp s = { s with decErr := code, decErrCp := cp, decSt := .error }) ∧
  (∀ (i : Instr) (s t : State), exec i s = .next t → s.decSt ≠ .error → t.decSt = .error →
    t = { s with decErr := t.decErr, decErrCp := t.decErrCp, decSt := .error } ∧ t.decErr ≠ .none)

/-- R155, whole: a rejected command word, illegal or out of sequence, writes only the sticky command error registers,
and only where no command error is recorded yet. -/
def Obligations.CommandErrorIsStickyAndAlone : Prop :=
  ∀ (w : CmdWord) (s : State),
    (∀ e, decode w = .error e →
      (s.cmdErr = .none → applyCommand w s = .next { s with cmdErr := .illegalCmd, cmdErrWord := w }) ∧
      (s.cmdErr ≠ .none → applyCommand w s = .next s)) ∧
    (∀ i, decode w = .ok i → raisesSequence i = true →
      (isEncoder i = true → s.encSt = .idle) → (isDecoder i = true → s.decSt = .idle ∨ s.decSt = .done) →
      (s.cmdErr = .none → applyCommand w s = .next { s with cmdErr := .sequence, cmdErrWord := w }) ∧
      (s.cmdErr ≠ .none → applyCommand w s = .next s))

/-- R156, whole: which error a command reports when several apply, and that a stream reports one. An illegal word is
never another error; the unit state is checked before the operand; a wrong-variant Tail records no frame fault; the frame
faults are reported by dec.end alone, the early Tail first; in the error state there is no second error. -/
def Obligations.OneErrorByPriority : Prop :=
  (∀ (w : CmdWord) (e : Illegal) (s : State), decode w = .error e → s.cmdErr = .none →
    applyCommand w s = .next { s with cmdErr := .illegalCmd, cmdErrWord := w }) ∧
  (∀ (i : Instr) (s : State), raisesSequence i = true → (isEncoder i = true → s.encSt = .idle) →
    (isDecoder i = true → s.decSt = .idle ∨ s.decSt = .done) → s.cmdErr = .none →
    exec i s = .next { s with cmdErr := .sequence, cmdErrWord := encode i }) ∧
  (∀ (cp : CodePoint) (s : State), s.decSt = .active →
    (classify s.cfg.toConfig cp = .invalid →
      exec (.decSym cp) s = .next { s with decErr := .nonAlphabet, decErrCp := cp, decSt := .error }) ∧
    (∀ v v', classVariant (classify s.cfg.toConfig cp) = some v → s.decLock = .locked v' → v' ≠ v →
      exec (.decSym cp) s = .next { s with decErr := .mixedVersions, decErrCp := cp, decSt := .error })) ∧
  (∀ s : State, s.decSt = .active → s.decPend = true → s.decCnt ≠ 0 →
    exec .decEnd s = .next { s with decErr := .frameTailEarly, decErrCp := s.decPendCp, decSt := .error }) ∧
  (∀ (i : Instr) (s t : State), i ≠ .decEnd → exec i s = .next t → t.decErr ≠ s.decErr →
    t.decErr = .none ∨ t.decErr = .nonAlphabet ∨ t.decErr = .mixedVersions) ∧
  (∀ (s : State) (cp : CodePoint), s.decSt = .error →
    exec (.decSym cp) s = .next s ∧ exec .decEnd s = .next s)

/-- R142, whole: after a decode error no command but dec.start has an effect on the decoder; the error stays readable. -/
def Obligations.DecodeErrorIsFatal : Prop :=
  ∀ (is : List Instr) (s t : State), s.decSt = .error → (∀ i ∈ is, i ≠ .decStart) →
    runInstrs is s = .next t →
    sameDecoder s t ∧ (readReg 0#4 t).extractLsb' 16 3 = (readReg 0#4 s).extractLsb' 16 3 ∧
    readReg 3#4 t = readReg 3#4 s ∧
    (∀ i ∈ is, isDecoder i = true → exec i t = .next t)

/-- R158 and R159, whole: an error state is left only by its own exit, and neither kind of error disturbs the other. -/
def Obligations.ErrorsLeaveOnlyByTheirExits : Prop :=
  (∀ (i : Instr) (s t : State), exec i s = .next t → s.decSt = .error →
    (t.decSt = .error ∧ t.decErr = s.decErr ∧ t.decErrCp = s.decErrCp) ∨
    (i = .decStart ∧ t.decSt = .active ∧ t.decErr = .none ∧ t.decErrCp = 0#21 ∧ t.decPend = false ∧
      t.decPendCp = 0#21)) ∧
  (∀ (i : Instr) (s t : State), exec i s = .next t → s.cmdErr ≠ .none →
    (t.cmdErr = s.cmdErr ∧ t.cmdErrWord = s.cmdErrWord) ∨
    (i = .clrCmdErr ∧ t.cmdErr = .none ∧ t.cmdErrWord = 0#32)) ∧
  (∀ s : State, (resetEvent s).decSt = .idle ∧ (resetEvent s).decErr = .none ∧ (resetEvent s).cmdErr = .none) ∧
  (∀ (s : State) (cp : CodePoint), s.decSt = .error →
    exec (.decSym cp) s = .next s ∧ exec .decEnd s = .next s) ∧
  (∀ (i : Instr) (s t : State), exec i s = .next t → t.cmdErr ≠ s.cmdErr → sameDecoder s t) ∧
  (∀ (i : Instr) (s t : State), exec i s = .next t → t.decErr ≠ s.decErr →
    t.cmdErr = s.cmdErr ∧ t.cmdErrWord = s.cmdErrWord)

/-- The frame of the decoder commands and of clr.cmderr (R132, R133, R140, R148, R20): what each leaves unchanged, every
ROM address among it. -/
def Obligations.DecoderCommandsFrame : Prop :=
  ∀ s t : State,
    (exec .decStart s = .next t →
      t = { s with decSt := t.decSt, decLock := t.decLock, decCnt := t.decCnt, decErr := t.decErr,
                   decErrCp := t.decErrCp, decPend := t.decPend, decPendCp := t.decPendCp }) ∧
    (∀ cp, s.decSt = .active → exec (.decSym cp) s = .next t →
      t = { s with decSt := t.decSt, decLock := t.decLock, decCnt := t.decCnt, decAcc := t.decAcc,
                   decErr := t.decErr, decErrCp := t.decErrCp, decPend := t.decPend, decPendCp := t.decPendCp,
                   byteOut := t.byteOut } ∧
      (t.decSt = .active → t.decErr = s.decErr ∧ t.decErrCp = s.decErrCp) ∧
      (∀ (j : Nat) (h : j < 3), j ≠ s.decCnt.val → t.decAcc[j] = s.decAcc[j])) ∧
    (s.decSt = .active → exec .decEnd s = .next t →
      t = { s with decSt := t.decSt, decErr := t.decErr, decErrCp := t.decErrCp }) ∧
    (exec .clrCmdErr s = .next t → t = { s with cmdErr := t.cmdErr, cmdErrWord := t.cmdErrWord }) ∧
    (∀ i, isDecoder i = true ∨ i = .clrCmdErr → exec i s = .next t →
      ∀ addr : RomAddr, romRead t.cfg.alphabet addr = romRead s.cfg.alphabet addr)

/-- R88, R96, R135: from every state, decoding a stream that holds no invalid symbol and no mixed pair completes. Where
the stream matches the group grammar the result is success with the grammar's bytes, and the lock shows its variant;
where it does not, the result is a frame error of ECJ-CORE (log 13). -/
def Obligations.DecodeFollowsTheGroupGrammar : Prop :=
  ∀ (s : State) (cps : List CodePoint), ¬ holdsInvalid s.cfg.toConfig cps → ¬ holdsMixed s.cfg.toConfig cps →
    ∃ t, runInstrs (decodeInstrs cps) s = .next t ∧
      (∀ bs, streamBytes [] (cps.map (classify s.cfg.toConfig)) = some bs →
        streamResult s t = .success bs ∧ t.byteOut = s.byteOut ++ bs) ∧
      (streamBytes [] (cps.map (classify s.cfg.toConfig)) = none →
        streamResult s t = .failure .frameTailEarly ∨ streamResult s t = .failure .frameTruncated) ∧
      (∀ v, holdsVariant s.cfg.toConfig v cps → t.decLock = .locked v) ∧
      ((∀ v, ¬ holdsVariant s.cfg.toConfig v cps) → t.decLock = .unlocked) ∧
      sameEncoder s t ∧ t.cmdErr = s.cmdErr ∧ t.cmdErrWord = s.cmdErrWord

/-- R144, whole: the round trip, at every wrap. -/
def Obligations.DecodeOfEncodeIsTheInput : Prop :=
  ∀ (s : State) (v : Variant) (wrap : WrapCount) (bs : List Byte),
    ∃ t u out, runInstrs (encodeInstrs v wrap bs) s = .next t ∧ t.symOut = s.symOut ++ out ∧
      runInstrs (decodeInstrs out) t = .next u ∧ u.decSt = .done ∧ u.byteOut = s.byteOut ++ bs

/-- R145, whole: concatenated messages of one variant decode as one stream to the concatenated bytes; of two variants,
both not empty, they fail with MIXED_VERSIONS at the first symbol of the second. -/
def Obligations.ConcatenatedMessagesDecodeTogether : Prop :=
  ∀ (s s1 s2 : State) (v1 v2 : Variant) (b1 b2 : List Byte) (out1 out2 : List CodePoint),
    runInstrs (encodeInstrs v1 0#24 b1) s = .next s1 → s1.symOut = s.symOut ++ out1 →
    runInstrs (encodeInstrs v2 0#24 b2) s1 = .next s2 → s2.symOut = s1.symOut ++ out2 →
    ∃ t, runInstrs (decodeInstrs (out1 ++ out2)) s2 = .next t ∧
      (v1 = v2 → t.decSt = .done ∧ t.byteOut = s2.byteOut ++ (b1 ++ b2)) ∧
      (v1 ≠ v2 → b1 ≠ [] → b2 ≠ [] →
        t.decSt = .error ∧ t.decErr = .mixedVersions ∧ out2.head? = some t.decErrCp)

/-- R146, whole: a stream with a mixed pair and no invalid symbol fails with MIXED_VERSIONS, one with an invalid symbol
and no mixed pair with NON_ALPHABET, one with both with the error of the first offending symbol, and a frame error is
reported only for a stream with neither. -/
def Obligations.OffendingStreamsAreRejected : Prop :=
  ∀ (s : State) (cps : List CodePoint), ∃ t, runInstrs (decodeInstrs cps) s = .next t ∧
    (holdsMixed s.cfg.toConfig cps → ¬ holdsInvalid s.cfg.toConfig cps → streamResult s t = .failure .mixedVersions) ∧
    (holdsInvalid s.cfg.toConfig cps → ¬ holdsMixed s.cfg.toConfig cps → streamResult s t = .failure .nonAlphabet) ∧
    (∀ pre cp post, cps = pre ++ cp :: post → ¬ holdsInvalid s.cfg.toConfig pre → ¬ holdsMixed s.cfg.toConfig pre →
      (classify s.cfg.toConfig cp = .invalid → streamResult s t = .failure .nonAlphabet ∧ t.decErrCp = cp) ∧
      (classify s.cfg.toConfig cp ≠ .invalid → holdsMixed s.cfg.toConfig (pre ++ [cp]) →
        streamResult s t = .failure .mixedVersions ∧ t.decErrCp = cp)) ∧
    (streamResult s t = .failure .frameTailEarly ∨ streamResult s t = .failure .frameTruncated →
      ¬ holdsInvalid s.cfg.toConfig cps ∧ ¬ holdsMixed s.cfg.toConfig cps)

/-- R137, whole: the padding bits of the last Main index before a closing PAD are not checked. -/
def Obligations.PaddingBitsAreDiscarded : Prop :=
  ∀ (s : State) (v : Variant) (pre : List Chunk) (c c' : Chunk), pre.length < 3 →
    c.toNat / 4 ^ (pre.length + 1) = c'.toNat / 4 ^ (pre.length + 1) →
    ∃ t t', runInstrs (decodeInstrs ((pre ++ [c]).map (s.cfg.alphabet.main v) ++ [s.cfg.alphabet.pad])) s = .next t ∧
      runInstrs (decodeInstrs ((pre ++ [c']).map (s.cfg.alphabet.main v) ++ [s.cfg.alphabet.pad])) s = .next t' ∧
      t.decSt = .done ∧ t'.decSt = .done ∧ t.byteOut = t'.byteOut ∧
      t.byteOut.length = s.byteOut.length + (pre.length + 1)

/-! ## Control -/

/-- R148: clr.cmderr completes in every state and clears the command error; the next rejected word is recorded again. -/
def Obligations.ClrCmdErrClearsTheRecord : Prop :=
  ∀ s : State,
    exec .clrCmdErr s = .next { s with cmdErr := .none, cmdErrWord := 0#32 } ∧
    (∀ (w : CmdWord) (e : Illegal), decode w = .error e →
      runWords [0x90000000#32, w] s = .next { s with cmdErr := .illegalCmd, cmdErrWord := w })

/-! ## Whole-machine rules -/

/-- R98, D16: a machine is built from exactly the configurations that meet the six invariants of R98, and is then in the
reset state of that configuration; any other configuration is refused. R50, R169: the invariants of the state hold in
the reset state, and so do the error records of R39 and R43. The machine of `State.reset` meets R98 (R12). -/
def Obligations.ResetMeetsTheInvariants : Prop :=
  (∀ c : Config, MeetsR98 c →
    ∃ a : AdmittedConfig, a.toConfig = c ∧ powerOn c = .next (State.resetWith a)) ∧
  (∀ c : Config, ¬ MeetsR98 c → powerOn c = .refused .configNotAdmitted) ∧
  (∀ a : AdmittedConfig, MeetsR98 a.toConfig ∧ Inv (State.resetWith a) ∧ ErrorRecords (State.resetWith a)) ∧
  (∃ a : AdmittedConfig, State.reset = State.resetWith a)

/-- R33, R37, R50, R56: from every state that meets the invariants a step answers a next state, and that state meets
them: no step faults and none is refused. -/
def Obligations.StepKeepsTheInvariants : Prop :=
  ∀ s : State, Inv s → ∃ t, step s = .next t ∧ Inv t

/-- R50, whole: every state a run of commands, register reads, drains and resets reaches from reset meets the invariants, the
counts and codes read through STATUS included. -/
def Obligations.EveryReachableStateMeetsTheInvariants : Prop :=
  ∀ (c : AdmittedConfig) (acts : List HostAction), ∃ t, runActions acts (State.resetWith c) = .next t ∧
    ((readReg 0#4 t).extractLsb' 1 3).toNat ≤ 4 ∧ ((readReg 0#4 t).extractLsb' 12 2).toNat ≤ 3 ∧
    (readReg 0#4 t).extractLsb' 10 2 ≠ 3#2 ∧ ((readReg 0#4 t).extractLsb' 16 3).toNat ≤ 4 ∧
    ((readReg 0#4 t).extractLsb' 24 3).toNat ≤ 2 ∧
    (t.encWrap ≠ 0#24 → t.encCol.toNat < t.encWrap.toNat) ∧ (t.encWrap = 0#24 → t.encCol = 0#24) ∧
    (t.decErr ≠ .none ↔ t.decSt = .error) ∧
    (t.encSt = .idle → t.encCnt = 0 ∧ t.encCol = 0#24) ∧
    (t.decSt = .done → t.decCnt = 0) ∧
    (t.decSt = .idle → t.decCnt = 0 ∧ t.decLock = .unlocked ∧ t.decPend = false) ∧
    (t.decSt = .done → t.decPend = false) ∧
    (t.decPend = true → t.decLock ≠ .unlocked) ∧
    (t.decPend = false → t.decPendCp = 0#21)

/-- R39, R40, R41, R43, R153: every step keeps the error records: the word recorded with a command error raises it, and
the code point recorded with a decode error is the one its cause says. -/
def Obligations.StepKeepsTheErrorRecords : Prop :=
  ∀ s t : State, Inv s → ErrorRecords s → step s = .next t → ErrorRecords t

/-- R51, whole: an encoder command reads and writes no decoder register, a decoder command no encoder register, and a
mapper command writes only MAP_RESULT. -/
def Obligations.UnitsShareNoState : Prop :=
  (∀ (i : Instr) (s t : State), isEncoder i = true → exec i s = .next t → sameDecoder s t) ∧
  (∀ (i : Instr) (s t : State), isDecoder i = true → exec i s = .next t → sameEncoder s t) ∧
  (∀ (i : Instr) (s s' t : State), isEncoder i = true → sameEncoder s s' → exec i s = .next t →
    ∃ t', exec i s' = .next t' ∧ sameEncoder t t') ∧
  (∀ (i : Instr) (s s' t : State), isDecoder i = true → sameDecoder s s' → exec i s = .next t →
    ∃ t', exec i s' = .next t' ∧ sameDecoder t t') ∧
  (∀ (i : Instr) (s t : State), (∃ v j, i = .mapMain v j) ∨ (∃ v j, i = .mapTail v j) ∨ i = .mapPad ∨
    (∃ cp, i = .mapRev cp) → exec i s = .next t → t = { s with mapResult := t.mapResult })

/-- R71, whole: any interleaving of encoder, decoder and other commands gives the encoder what its own commands alone
give it, and the decoder what its own give it. -/
def Obligations.UnitsInterleaveFreely : Prop :=
  ∀ (is : List Instr) (s : State), Inv s →
    ∃ t te td, runInstrs is s = .next t ∧
      runInstrs (is.filter isEncoder) s = .next te ∧ sameEncoder t te ∧
      runInstrs (is.filter isDecoder) s = .next td ∧ sameDecoder t td

/-- R52, whole: no command tests a flag. States that agree on the twelve registers the rule lists, and on the
configuration, take every command to states that agree on them again, append the same output and write MAP_RESULT and
the decode error alike, whatever the other registers hold; the command error differs only where it differed before. -/
def Obligations.OnlyTheListedStateSteersCommands : Prop :=
  ∀ (i : Instr) (s s' t : State), sameControl s s' → exec i s = .next t →
    ∃ t' syms bytes, exec i s' = .next t' ∧ sameControl t t' ∧
      t.symOut = s.symOut ++ syms ∧ t'.symOut = s'.symOut ++ syms ∧
      t.byteOut = s.byteOut ++ bytes ∧ t'.byteOut = s'.byteOut ++ bytes ∧
      (t.mapResult = t'.mapResult ∨ (t.mapResult = s.mapResult ∧ t'.mapResult = s'.mapResult)) ∧
      ((t.decErr = t'.decErr ∧ t.decErrCp = t'.decErrCp) ∨
        (t.decErr = s.decErr ∧ t'.decErr = s'.decErr ∧ t.decErrCp = s.decErrCp ∧ t'.decErrCp = s'.decErrCp)) ∧
      (s.cmdErr = s'.cmdErr → s.cmdErrWord = s'.cmdErrWord → t.cmdErr = t'.cmdErr ∧ t.cmdErrWord = t'.cmdErrWord)
end

