-- ==== Sys2Proof/Laws/Decode.lean ====
section
/-! SUPPORT. Laws/Decode.lean: the command word as a number. Each format's value and each field's value, so that a fact about
bits is a fact of linear arithmetic. -/

namespace Sys2Proof

theorem append_toNat {a b : Nat} (x : BitVec a) (y : BitVec b) : (x ++ y).toNat = x.toNat * 2 ^ b + y.toNat := by
  rw [BitVec.toNat_append, ← Nat.shiftLeft_add_eq_or_of_lt y.isLt, Nat.shiftLeft_eq]

theorem field_toNat (w : CmdWord) (lo len : Nat) : (field w lo len).toNat = w.toNat / 2 ^ lo % 2 ^ len := by
  simp [field, BitVec.extractLsb'_toNat, Nat.shiftRight_eq_div_pow]

theorem bit_eq (w : CmdWord) (k : Nat) : w.getLsbD k = decide (w.toNat / 2 ^ k % 2 = 1) := by
  rw [BitVec.getLsbD, Nat.testBit_eq_decide_div_mod_eq]

theorem variantOfBit_variantBit (v : Variant) : variantOfBit (decide ((variantBit v).toNat = 1)) = v := by
  cases v <;> rfl

theorem variantBit_variantOfBit (b : Bool) : variantBit (variantOfBit b) = BitVec.ofBool b := by
  cases b <;> rfl

theorem formatN_toNat (op : BitVec 4) : (formatN op).toNat = op.toNat * 2 ^ 28 := by
  rw [formatN, append_toNat]
  simp

theorem formatS_toNat (v : Variant) (wrap : WrapCount) :
    (formatS v wrap).toNat = 0x10000000 + (variantBit v).toNat * 2 ^ 27 + wrap.toNat := by
  simp only [formatS, append_toNat, BitVec.toNat_ofNat]
  omega

theorem formatB_toNat (b : Byte) : (formatB b).toNat = 0x20000000 + b.toNat := by
  simp only [formatB, append_toNat, BitVec.toNat_ofNat]
  omega

theorem formatC_toNat (op : BitVec 4) (cp : CodePoint) : (formatC op cp).toNat = op.toNat * 2 ^ 28 + cp.toNat := by
  simp only [formatC, append_toNat, BitVec.toNat_ofNat]
  omega

theorem formatM_toNat (v : BitVec 1) (tsel : BitVec 2) (idx : BitVec 10) :
    (formatM v tsel idx).toNat = 0x70000000 + v.toNat * 2 ^ 27 + tsel.toNat * 2 ^ 25 + idx.toNat := by
  simp only [formatM, append_toNat, BitVec.toNat_ofNat]
  omega

/-- A field is a value exactly when the word's number says so. -/
theorem field_eq_iff (w : CmdWord) (lo len : Nat) (x : BitVec len) :
    field w lo len = x ↔ w.toNat / 2 ^ lo % 2 ^ len = x.toNat := by
  rw [← BitVec.toNat_inj, field_toNat]

theorem whenMbz_eq_ok {z : Bool} {i j : Instr} : whenMbz z i = .ok j ↔ z = true ∧ i = j := by
  cases z <;> simp [whenMbz]

theorem whenMbz_eq_error {z : Bool} {i : Instr} {e : Illegal} :
    whenMbz z i = .error e ↔ z = false ∧ e = .mbzBitSet := by
  cases z <;> simp [whenMbz, eq_comm]

/-- Decoding reads nothing but the opcode first: the value of the opcode field. -/
theorem opcode_lt (w : CmdWord) : (field w 28 4).toNat < 16 := (field w 28 4).isLt

theorem decodeTableWord_of_lt {w : Nat} (h : w < 2 ^ 32) :
    decodeTableWord 32 w = (decode (BitVec.ofNat 32 w)).toOption := by
  unfold decodeTableWord
  rw [Nat.mod_eq_of_lt h]
  cases decode (BitVec.ofNat 32 w) <;> rfl

end Sys2Proof
end

