-- ==== Sys2Proof/Laws/BitPacker.lean ====
section
/-! SUPPORT. Laws/BitPacker.lean: the per-byte forms of the window functions (41_bitpacker.md R110, R114), and each field as
a number. -/

namespace Sys2Proof.Machine

theorem extract_toNat {n : Nat} (x : BitVec n) (lo len : Nat) :
    (x.extractLsb' lo len).toNat = x.toNat / 2 ^ lo % 2 ^ len := by
  simp [BitVec.extractLsb'_toNat, Nat.shiftRight_eq_div_pow]

/-- A five-byte window as a number (R58). -/
theorem window5_toNat (b0 b1 b2 b3 b4 : Byte) :
    (window5 b0 b1 b2 b3 b4).toNat =
      b0.toNat * 2 ^ 32 + b1.toNat * 2 ^ 24 + b2.toNat * 2 ^ 16 + b3.toNat * 2 ^ 8 + b4.toNat := by
  simp only [window5, append_toNat]
  omega

theorem packFirst_toNat (b0 b1 : Byte) : (packFirst b0 b1).toNat = b0.toNat * 4 + b1.toNat / 64 := by
  have := b1.isLt
  simp only [packFirst, append_toNat, extract_toNat]
  omega

theorem packSecond_toNat (b1 b2 : Byte) : (packSecond b1 b2).toNat = b1.toNat % 64 * 16 + b2.toNat / 16 := by
  have := b2.isLt
  simp only [packSecond, append_toNat, extract_toNat]
  omega

theorem packThird_toNat (b2 b3 : Byte) : (packThird b2 b3).toNat = b2.toNat % 16 * 64 + b3.toNat / 4 := by
  have := b3.isLt
  simp only [packThird, append_toNat, extract_toNat]
  omega

theorem unpackFirst_toNat (c0 : Chunk) : (unpackFirst c0).toNat = c0.toNat / 4 := by
  have := c0.isLt
  simp only [unpackFirst, extract_toNat]
  omega

theorem unpackSecond_toNat (c0 c1 : Chunk) : (unpackSecond c0 c1).toNat = c0.toNat % 4 * 64 + c1.toNat / 16 := by
  have := c1.isLt
  simp only [unpackSecond, append_toNat, extract_toNat]
  omega

theorem unpackThird_toNat (c1 c2 : Chunk) : (unpackThird c1 c2).toNat = c1.toNat % 16 * 16 + c2.toNat / 64 := by
  have := c2.isLt
  simp only [unpackThird, append_toNat, extract_toNat]
  omega

/-- R110, the second form: the four chunks of a full group, byte by byte. -/
theorem pack5_eq (b0 b1 b2 b3 b4 : Byte) :
    pack5 b0 b1 b2 b3 b4 =
      (packFirst b0 b1, packSecond b1 b2, packThird b2 b3, b3.extractLsb' 0 2 ++ b4) := by
  have h0 := b0.isLt
  have h1 := b1.isLt
  have h2 := b2.isLt
  have h3 := b3.isLt
  have h4 := b4.isLt
  simp only [pack5, windowChunk, Prod.mk.injEq]
  refine ⟨?_, ?_, ?_, ?_⟩ <;> apply BitVec.eq_of_toNat_eq <;>
    simp only [extract_toNat, window5_toNat, packFirst_toNat, packSecond_toNat, packThird_toNat, append_toNat] <;>
    omega

end Sys2Proof.Machine
end

