-- ==== Sys2Proof/Laws/Operands.lean ====
section
/-! SUPPORT. Laws/Operands.lean: what the ROM addresses and lookups answer, and what an answer of `Classify` says. -/

namespace Sys2Proof

/-- The table and index of a Main word. -/
theorem main_mem (a : Alphabet) (v : Variant) (i : Chunk) : a.main v i ∈ (a.mainTable v).toList := by
  simp [Alphabet.main]

theorem tail_mem (a : Alphabet) (v : Variant) (t : TailIdx) : a.tail v t ∈ (a.tailTable v).toList := by
  simp [Alphabet.tail]

theorem main_mem_words (a : Alphabet) (v : Variant) (i : Chunk) : a.main v i ∈ a.words := by
  have h := main_mem a v i
  cases v <;> simp_all [Alphabet.words, Alphabet.mainTable]

theorem tail_mem_words (a : Alphabet) (v : Variant) (t : TailIdx) : a.tail v t ∈ a.words := by
  have h := tail_mem a v t
  cases v <;> simp_all [Alphabet.words, Alphabet.tailTable]

theorem pad_mem_words (a : Alphabet) : a.pad ∈ a.words := by
  simp [Alphabet.words]

/-- A table's entries are the values of its function (R97). -/
theorem mem_mainTable {a : Alphabet} {v : Variant} {cp : CodePoint} :
    cp ∈ (a.mainTable v).toList ↔ ∃ i, a.main v i = cp := by
  refine ⟨fun h => ?_, fun ⟨i, hi⟩ => hi ▸ main_mem a v i⟩
  obtain ⟨n, hn, rfl⟩ := List.getElem_of_mem h
  have hn' : n < 1024 := by simpa using hn
  refine ⟨BitVec.ofNat 10 n, ?_⟩
  simp [Alphabet.main, Nat.mod_eq_of_lt hn']

theorem mem_tailTable {a : Alphabet} {v : Variant} {cp : CodePoint} :
    cp ∈ (a.tailTable v).toList ↔ ∃ t, a.tail v t = cp := by
  refine ⟨fun h => ?_, fun ⟨i, hi⟩ => hi ▸ tail_mem a v i⟩
  obtain ⟨n, hn, rfl⟩ := List.getElem_of_mem h
  have hn' : n < 4 := by simpa using hn
  refine ⟨BitVec.ofNat 2 n, ?_⟩
  simp [Alphabet.tail, Nat.mod_eq_of_lt hn']

/-- A code point of the ROM is a Main, a Tail or the PAD symbol. -/
theorem mem_words {a : Alphabet} {cp : CodePoint} :
    cp ∈ a.words ↔ (∃ v i, a.main v i = cp) ∨ (∃ v t, a.tail v t = cp) ∨ cp = a.pad := by
  have hm := fun v => @mem_mainTable a v cp
  have ht := fun v => @mem_tailTable a v cp
  have hm1 := hm .V1
  have hm2 := hm .V2
  have ht1 := ht .V1
  have ht2 := ht .V2
  simp only [Alphabet.mainTable, Alphabet.tailTable] at hm1 hm2 ht1 ht2
  simp only [Alphabet.words, List.mem_append, List.mem_singleton, hm1, hm2, ht1, ht2]
  constructor
  · rintro ((((h | h) | h) | h) | h)
    · exact .inl ⟨.V1, h⟩
    · exact .inl ⟨.V2, h⟩
    · exact .inr (.inl ⟨.V1, h⟩)
    · exact .inr (.inl ⟨.V2, h⟩)
    · exact .inr (.inr h)
  · rintro (⟨v, h⟩ | ⟨v, h⟩ | h)
    · cases v
      · exact .inl (.inl (.inl (.inl h)))
      · exact .inl (.inl (.inl (.inr h)))
    · cases v
      · exact .inl (.inl (.inr h))
      · exact .inl (.inr h)
    · exact .inr h

/-- What R98 gives of one table and of two, each invariant under its own name. -/
structure AdmittedFacts (c : Config) : Prop where
  mainInj : ∀ v i j, c.alphabet.main v i = c.alphabet.main v j → i = j
  tailInj : ∀ v t u, c.alphabet.tail v t = c.alphabet.tail v u → t = u
  mainOne : ∀ v w i j, c.alphabet.main v i = c.alphabet.main w j → v = w
  tailOne : ∀ v w t u, c.alphabet.tail v t = c.alphabet.tail w u → v = w
  mainNotTail : ∀ v w i t, c.alphabet.main v i ≠ c.alphabet.tail w t
  padNotMain : ∀ v i, c.alphabet.main v i ≠ c.alphabet.pad
  padNotTail : ∀ v t, c.alphabet.tail v t ≠ c.alphabet.pad
  unicode : ∀ cp ∈ c.alphabet.words, cp.toNat ≤ 0x10FFFF
  notWs : ∀ cp ∈ c.alphabet.words, cp ∉ c.wsSet
  lbIsWs : c.lbCp ∈ c.wsSet

/-- The invariants of an admitted configuration, read off the check (R98). -/
theorem Config.Admitted.facts {c : Config} (h : c.Admitted) : AdmittedFacts c := by
  simp only [Config.Admitted, Config.admitted, Bool.and_eq_true, decide_eq_true_eq, tablesDisjoint_iff,
    List.all_eq_true, List.contains_iff_mem, List.mem_singleton, forall_eq] at h
  obtain ⟨⟨⟨⟨⟨⟨hm1, hm2⟩, ht1, ht2⟩, hd⟩, hu⟩, hw⟩, hl⟩ := h
  obtain ⟨⟨⟨⟨⟨⟨⟨⟨⟨d1, d2⟩, d3⟩, d4⟩, d5⟩, d6⟩, p1⟩, p2⟩, p3⟩, p4⟩ := hd
  have mm : ∀ v i, c.alphabet.main v i ∈ (c.alphabet.mainTable v).toList := main_mem _
  have tm : ∀ v t, c.alphabet.tail v t ∈ (c.alphabet.tailTable v).toList := tail_mem _
  have hm : ∀ v, (c.alphabet.mainTable v).toList.Nodup := by rintro (_ | _) <;> assumption
  have ht : ∀ v, (c.alphabet.tailTable v).toList.Nodup := by rintro (_ | _) <;> assumption
  have hmt : ∀ v w cp, cp ∈ (c.alphabet.mainTable v).toList → cp ∉ (c.alphabet.tailTable w).toList := by
    rintro (_ | _) (_ | _) <;> assumption
  have hpm : ∀ v, c.alphabet.pad ∉ (c.alphabet.mainTable v).toList := by rintro (_ | _) <;> assumption
  have hpt : ∀ v, c.alphabet.pad ∉ (c.alphabet.tailTable v).toList := by rintro (_ | _) <;> assumption
  refine ⟨fun v i j e => ?_, fun v t u e => ?_, fun v w i j e => ?_, fun v w t u e => ?_,
    fun v w i t e => hmt v w _ (mm v i) (e ▸ tm w t), fun v i e => hpm v (e ▸ mm v i),
    fun v t e => hpt v (e ▸ tm v t), hu, hw, hl⟩
  · have := (List.Nodup.getElem_inj_iff (hm v) (i := i.toNat) (j := j.toNat)
      (hi := by simpa using i.isLt) (hj := by simpa using j.isLt)).1 (by simpa [Alphabet.main] using e)
    exact BitVec.eq_of_toNat_eq this
  · have := (List.Nodup.getElem_inj_iff (ht v) (i := t.toNat) (j := u.toNat)
      (hi := by simpa using t.isLt) (hj := by simpa using u.isLt)).1 (by simpa [Alphabet.tail] using e)
    exact BitVec.eq_of_toNat_eq this
  · have h1 := mm v i
    have h2 := mm w j
    rw [e] at h1
    cases v <;> cases w <;> simp only [Alphabet.mainTable] at h1 h2 <;> first | rfl | exact absurd h2 (d1 _ h1) | exact absurd h1 (d1 _ h2)
  · have h1 := tm v t
    have h2 := tm w u
    rw [e] at h1
    cases v <;> cases w <;> simp only [Alphabet.tailTable] at h1 h2 <;> first | rfl | exact absurd h2 (d6 _ h1) | exact absurd h1 (d6 _ h2)

/-- An admitted configuration meets R98 in the rule's own words. -/
theorem Config.Admitted.meets {c : Config} (h : c.Admitted) : Machine.MeetsR98 c where
  mainInjective := h.facts.mainInj
  tailInjective := h.facts.tailInj
  mainsDisjoint i j e := Variant.noConfusion (h.facts.mainOne _ _ i j e)
  tailsDisjoint t u e := Variant.noConfusion (h.facts.tailOne _ _ t u e)
  mainTailDisjoint := h.facts.mainNotTail
  padIsNoMain v i e := h.facts.padNotMain v i e.symm
  padIsNoTail v t e := h.facts.padNotTail v t e.symm
  mainsUnicode v i := h.facts.unicode _ (main_mem_words _ v i)
  tailsUnicode v t := h.facts.unicode _ (tail_mem_words _ v t)
  padUnicode := h.facts.unicode _ (pad_mem_words _)
  mainsNotWhitespace v i := h.facts.notWs _ (main_mem_words _ v i)
  tailsNotWhitespace v t := h.facts.notWs _ (tail_mem_words _ v t)
  padNotWhitespace := h.facts.notWs _ (pad_mem_words _)
  lineBreakIsWhitespace := h.facts.lbIsWs

namespace Machine

theorem mainAddr_toNat (v : Variant) (i : Chunk) : (mainAddr v i).toNat = 0x400 * (variantBit v).toNat + i.toNat := by
  have hv : (variantBit v).toNat < 2 := (variantBit v).isLt
  have hi := i.isLt
  simp only [mainAddr, BitVec.truncate_eq_setWidth, BitVec.toNat_setWidth, append_toNat]
  omega

theorem tailAddr_toNat (v : Variant) (t : TailIdx) :
    (tailAddr v t).toNat = 0x800 + 4 * (variantBit v).toNat + t.toNat := by
  have ht := t.isLt
  cases v <;>
    simp only [tailAddr, variantBit, BitVec.truncate_eq_setWidth, BitVec.toNat_setWidth, BitVec.toNat_add,
      BitVec.toNat_mul, BitVec.toNat_ofNat] <;> omega

@[simp] theorem romRead_mainAddr (a : Alphabet) (v : Variant) (i : Chunk) :
    romRead a (mainAddr v i) = some (a.main v i) := by
  have hi : i.toNat < 1024 := i.isLt
  have h := mainAddr_toNat v i
  cases v
  · simp only [variantBit, BitVec.toNat_ofNat] at h
    have e : (mainAddr .V1 i).toNat = i.toNat := by omega
    simp [romRead, e, hi, Alphabet.main, Alphabet.mainTable]
  · simp only [variantBit, BitVec.toNat_ofNat] at h
    have e : (mainAddr .V2 i).toNat = 1024 + i.toNat := by omega
    have e2 : 1024 + i.toNat < 2048 := by omega
    simp [romRead, e, e2, hi, Alphabet.main, Alphabet.mainTable]

@[simp] theorem romRead_tailAddr (a : Alphabet) (v : Variant) (t : TailIdx) :
    romRead a (tailAddr v t) = some (a.tail v t) := by
  have ht : t.toNat < 4 := t.isLt
  have h := tailAddr_toNat v t
  cases v
  · simp only [variantBit, BitVec.toNat_ofNat] at h
    have e : (tailAddr .V1 t).toNat = 2048 + t.toNat := by omega
    have e2 : 2048 + t.toNat < 2052 := by omega
    have e3 : ¬ 2048 + t.toNat < 1024 := by omega
    simp [romRead, e, e2, e3, ht, Alphabet.tail, Alphabet.tailTable]
  · simp only [variantBit, BitVec.toNat_ofNat] at h
    have e : (tailAddr .V2 t).toNat = 2052 + t.toNat := by omega
    have e2 : 2052 + t.toNat < 2056 := by omega
    have e3 : ¬ 2052 + t.toNat < 1024 := by omega
    have e4 : ¬ 2052 + t.toNat < 2048 := by omega
    simp [romRead, e, e2, e3, e4, ht, Alphabet.tail, Alphabet.tailTable]

@[simp] theorem romRead_padAddr (a : Alphabet) : romRead a padAddr = some a.pad := by
  simp [romRead, padAddr]

/-- The index a table lookup finds holds the code point. -/
theorem tableIndex_some {t : List CodePoint} {cp : CodePoint} {i : Nat} (h : tableIndex t cp = some i) :
    ∃ hi : i < t.length, t[i] = cp := by
  obtain ⟨hi, he, _⟩ := List.findIdx?_eq_some_iff_getElem.1 h
  exact ⟨hi, by simpa using he⟩

theorem tableIndex_none {t : List CodePoint} {cp : CodePoint} : tableIndex t cp = none ↔ cp ∉ t := by
  simp only [tableIndex, List.findIdx?_eq_none_iff, beq_eq_false_iff_ne, ne_eq]
  exact ⟨fun h hm => h _ hm rfl, fun h x hx e => h (e ▸ hx)⟩

theorem mainIndex_some {a : Alphabet} {v : Variant} {cp : CodePoint} {i : Nat}
    (h : tableIndex (a.mainTable v).toList cp = some i) : a.main v (BitVec.ofNat 10 i) = cp := by
  obtain ⟨hi, he⟩ := tableIndex_some h
  have hi' : i < 1024 := by simpa using hi
  simpa [Alphabet.main, Nat.mod_eq_of_lt hi'] using he

theorem tailIndex_some {a : Alphabet} {v : Variant} {cp : CodePoint} {i : Nat}
    (h : tableIndex (a.tailTable v).toList cp = some i) : a.tail v (BitVec.ofNat 2 i) = cp := by
  obtain ⟨hi, he⟩ := tableIndex_some h
  have hi' : i < 4 := by simpa using hi
  simpa [Alphabet.tail, Nat.mod_eq_of_lt hi'] using he

/-- What each answer of `Classify` says, on any configuration (R100). -/
theorem classify_cases (c : Config) (cp : CodePoint) :
    (∃ v i, classify c cp = .main v i ∧ c.alphabet.main v i = cp) ∨
    (∃ v t, classify c cp = .tail v t ∧ c.alphabet.tail v t = cp) ∨
    (classify c cp = .pad ∧ cp = c.alphabet.pad) ∨
    (classify c cp = .ws ∧ cp ∉ c.alphabet.words ∧ cp ∈ c.wsSet) ∨
    (classify c cp = .invalid ∧ cp ∉ c.alphabet.words ∧ cp ∉ c.wsSet) := by
  unfold classify
  cases h1 : tableIndex c.alphabet.mainV1.toList cp with
  | some i => exact .inl ⟨.V1, _, rfl, mainIndex_some (v := .V1) h1⟩
  | none =>
    cases h2 : tableIndex c.alphabet.mainV2.toList cp with
    | some i => exact .inl ⟨.V2, _, rfl, mainIndex_some (v := .V2) h2⟩
    | none =>
      cases h3 : tableIndex c.alphabet.tailV1.toList cp with
      | some t => exact .inr (.inl ⟨.V1, _, rfl, tailIndex_some (v := .V1) h3⟩)
      | none =>
        cases h4 : tableIndex c.alphabet.tailV2.toList cp with
        | some t => exact .inr (.inl ⟨.V2, _, rfl, tailIndex_some (v := .V2) h4⟩)
        | none =>
          rw [tableIndex_none] at h1 h2 h3 h4
          simp only [classifyRest]
          split_ifs with hp hw
          · exact .inr (.inr (.inl ⟨rfl, hp⟩))
          · exact .inr (.inr (.inr (.inl ⟨rfl, by simp [Alphabet.words, *] , hw⟩)))
          · exact .inr (.inr (.inr (.inr ⟨rfl, by simp [Alphabet.words, *], hw⟩)))

/-- No code point above 0x10FFFF is a symbol or whitespace, so each is `INVALID` (R100, D3, U14). -/
theorem classify_above_unicode {c : Config} (h : c.Admitted) {cp : CodePoint} (hu : 0x110000 ≤ cp.toNat) :
    classify c cp = .invalid := by
  have hw : cp ∉ c.alphabet.words := fun hm => by have := h.facts.unicode cp hm; omega
  rcases classify_cases c cp with ⟨v, i, _, e⟩ | ⟨v, t, _, e⟩ | ⟨_, e⟩ | ⟨_, _, e⟩ | ⟨e, _⟩
  · exact absurd (e ▸ main_mem_words _ v i) hw
  · exact absurd (e ▸ tail_mem_words _ v t) hw
  · exact absurd (e ▸ pad_mem_words _) hw
  · have := c.wsUnicode cp e; omega
  · exact e

end Machine

end Sys2Proof
end

