-- ==== Sys2Proof/Laws/State.lean ====
section
/-! SUPPORT. Laws/State.lean: for each named update of State, what each field is after it. -/

namespace Sys2Proof.Machine

/-! `decError` -/

@[simp] theorem decError_cfg (code : DecErr) (cp : CodePoint) (s : State) : (decError code cp s).cfg = s.cfg := rfl
@[simp] theorem decError_encSt (code : DecErr) (cp : CodePoint) (s : State) : (decError code cp s).encSt = s.encSt := rfl
@[simp] theorem decError_encVar (code : DecErr) (cp : CodePoint) (s : State) : (decError code cp s).encVar = s.encVar := rfl
@[simp] theorem decError_encWrap (code : DecErr) (cp : CodePoint) (s : State) : (decError code cp s).encWrap = s.encWrap := rfl
@[simp] theorem decError_encCol (code : DecErr) (cp : CodePoint) (s : State) : (decError code cp s).encCol = s.encCol := rfl
@[simp] theorem decError_encCnt (code : DecErr) (cp : CodePoint) (s : State) : (decError code cp s).encCnt = s.encCnt := rfl
@[simp] theorem decError_encBuf (code : DecErr) (cp : CodePoint) (s : State) : (decError code cp s).encBuf = s.encBuf := rfl
@[simp] theorem decError_decSt (code : DecErr) (cp : CodePoint) (s : State) : (decError code cp s).decSt = .error := rfl
@[simp] theorem decError_decLock (code : DecErr) (cp : CodePoint) (s : State) : (decError code cp s).decLock = s.decLock := rfl
@[simp] theorem decError_decCnt (code : DecErr) (cp : CodePoint) (s : State) : (decError code cp s).decCnt = s.decCnt := rfl
@[simp] theorem decError_decAcc (code : DecErr) (cp : CodePoint) (s : State) : (decError code cp s).decAcc = s.decAcc := rfl
@[simp] theorem decError_decErr (code : DecErr) (cp : CodePoint) (s : State) : (decError code cp s).decErr = code := rfl
@[simp] theorem decError_decErrCp (code : DecErr) (cp : CodePoint) (s : State) : (decError code cp s).decErrCp = cp := rfl
@[simp] theorem decError_decPend (code : DecErr) (cp : CodePoint) (s : State) : (decError code cp s).decPend = s.decPend := rfl
@[simp] theorem decError_decPendCp (code : DecErr) (cp : CodePoint) (s : State) : (decError code cp s).decPendCp = s.decPendCp := rfl
@[simp] theorem decError_cmdErr (code : DecErr) (cp : CodePoint) (s : State) : (decError code cp s).cmdErr = s.cmdErr := rfl
@[simp] theorem decError_cmdErrWord (code : DecErr) (cp : CodePoint) (s : State) : (decError code cp s).cmdErrWord = s.cmdErrWord := rfl
@[simp] theorem decError_mapResult (code : DecErr) (cp : CodePoint) (s : State) : (decError code cp s).mapResult = s.mapResult := rfl
@[simp] theorem decError_symOut (code : DecErr) (cp : CodePoint) (s : State) : (decError code cp s).symOut = s.symOut := rfl
@[simp] theorem decError_byteOut (code : DecErr) (cp : CodePoint) (s : State) : (decError code cp s).byteOut = s.byteOut := rfl
@[simp] theorem decError_symDrained (code : DecErr) (cp : CodePoint) (s : State) : (decError code cp s).symDrained = s.symDrained := rfl
@[simp] theorem decError_byteDrained (code : DecErr) (cp : CodePoint) (s : State) : (decError code cp s).byteDrained = s.byteDrained := rfl
@[simp] theorem decError_pending (code : DecErr) (cp : CodePoint) (s : State) : (decError code cp s).pending = s.pending := rfl
@[simp] theorem decError_replies (code : DecErr) (cp : CodePoint) (s : State) : (decError code cp s).replies = s.replies := rfl

/-! `emitRaw` -/

@[simp] theorem emitRaw_cfg (cp : CodePoint) (s : State) : (emitRaw cp s).cfg = s.cfg := rfl
@[simp] theorem emitRaw_encSt (cp : CodePoint) (s : State) : (emitRaw cp s).encSt = s.encSt := rfl
@[simp] theorem emitRaw_encVar (cp : CodePoint) (s : State) : (emitRaw cp s).encVar = s.encVar := rfl
@[simp] theorem emitRaw_encWrap (cp : CodePoint) (s : State) : (emitRaw cp s).encWrap = s.encWrap := rfl
@[simp] theorem emitRaw_encCol (cp : CodePoint) (s : State) : (emitRaw cp s).encCol = s.encCol := rfl
@[simp] theorem emitRaw_encCnt (cp : CodePoint) (s : State) : (emitRaw cp s).encCnt = s.encCnt := rfl
@[simp] theorem emitRaw_encBuf (cp : CodePoint) (s : State) : (emitRaw cp s).encBuf = s.encBuf := rfl
@[simp] theorem emitRaw_decSt (cp : CodePoint) (s : State) : (emitRaw cp s).decSt = s.decSt := rfl
@[simp] theorem emitRaw_decLock (cp : CodePoint) (s : State) : (emitRaw cp s).decLock = s.decLock := rfl
@[simp] theorem emitRaw_decCnt (cp : CodePoint) (s : State) : (emitRaw cp s).decCnt = s.decCnt := rfl
@[simp] theorem emitRaw_decAcc (cp : CodePoint) (s : State) : (emitRaw cp s).decAcc = s.decAcc := rfl
@[simp] theorem emitRaw_decErr (cp : CodePoint) (s : State) : (emitRaw cp s).decErr = s.decErr := rfl
@[simp] theorem emitRaw_decErrCp (cp : CodePoint) (s : State) : (emitRaw cp s).decErrCp = s.decErrCp := rfl
@[simp] theorem emitRaw_decPend (cp : CodePoint) (s : State) : (emitRaw cp s).decPend = s.decPend := rfl
@[simp] theorem emitRaw_decPendCp (cp : CodePoint) (s : State) : (emitRaw cp s).decPendCp = s.decPendCp := rfl
@[simp] theorem emitRaw_cmdErr (cp : CodePoint) (s : State) : (emitRaw cp s).cmdErr = s.cmdErr := rfl
@[simp] theorem emitRaw_cmdErrWord (cp : CodePoint) (s : State) : (emitRaw cp s).cmdErrWord = s.cmdErrWord := rfl
@[simp] theorem emitRaw_mapResult (cp : CodePoint) (s : State) : (emitRaw cp s).mapResult = s.mapResult := rfl
@[simp] theorem emitRaw_symOut (cp : CodePoint) (s : State) : (emitRaw cp s).symOut = s.symOut ++ [cp] := rfl
@[simp] theorem emitRaw_byteOut (cp : CodePoint) (s : State) : (emitRaw cp s).byteOut = s.byteOut := rfl
@[simp] theorem emitRaw_symDrained (cp : CodePoint) (s : State) : (emitRaw cp s).symDrained = s.symDrained := rfl
@[simp] theorem emitRaw_byteDrained (cp : CodePoint) (s : State) : (emitRaw cp s).byteDrained = s.byteDrained := rfl
@[simp] theorem emitRaw_pending (cp : CodePoint) (s : State) : (emitRaw cp s).pending = s.pending := rfl
@[simp] theorem emitRaw_replies (cp : CodePoint) (s : State) : (emitRaw cp s).replies = s.replies := rfl

/-! `emitBytes` -/

@[simp] theorem emitBytes_cfg (bs : List Byte) (s : State) : (emitBytes bs s).cfg = s.cfg := rfl
@[simp] theorem emitBytes_encSt (bs : List Byte) (s : State) : (emitBytes bs s).encSt = s.encSt := rfl
@[simp] theorem emitBytes_encVar (bs : List Byte) (s : State) : (emitBytes bs s).encVar = s.encVar := rfl
@[simp] theorem emitBytes_encWrap (bs : List Byte) (s : State) : (emitBytes bs s).encWrap = s.encWrap := rfl
@[simp] theorem emitBytes_encCol (bs : List Byte) (s : State) : (emitBytes bs s).encCol = s.encCol := rfl
@[simp] theorem emitBytes_encCnt (bs : List Byte) (s : State) : (emitBytes bs s).encCnt = s.encCnt := rfl
@[simp] theorem emitBytes_encBuf (bs : List Byte) (s : State) : (emitBytes bs s).encBuf = s.encBuf := rfl
@[simp] theorem emitBytes_decSt (bs : List Byte) (s : State) : (emitBytes bs s).decSt = s.decSt := rfl
@[simp] theorem emitBytes_decLock (bs : List Byte) (s : State) : (emitBytes bs s).decLock = s.decLock := rfl
@[simp] theorem emitBytes_decCnt (bs : List Byte) (s : State) : (emitBytes bs s).decCnt = s.decCnt := rfl
@[simp] theorem emitBytes_decAcc (bs : List Byte) (s : State) : (emitBytes bs s).decAcc = s.decAcc := rfl
@[simp] theorem emitBytes_decErr (bs : List Byte) (s : State) : (emitBytes bs s).decErr = s.decErr := rfl
@[simp] theorem emitBytes_decErrCp (bs : List Byte) (s : State) : (emitBytes bs s).decErrCp = s.decErrCp := rfl
@[simp] theorem emitBytes_decPend (bs : List Byte) (s : State) : (emitBytes bs s).decPend = s.decPend := rfl
@[simp] theorem emitBytes_decPendCp (bs : List Byte) (s : State) : (emitBytes bs s).decPendCp = s.decPendCp := rfl
@[simp] theorem emitBytes_cmdErr (bs : List Byte) (s : State) : (emitBytes bs s).cmdErr = s.cmdErr := rfl
@[simp] theorem emitBytes_cmdErrWord (bs : List Byte) (s : State) : (emitBytes bs s).cmdErrWord = s.cmdErrWord := rfl
@[simp] theorem emitBytes_mapResult (bs : List Byte) (s : State) : (emitBytes bs s).mapResult = s.mapResult := rfl
@[simp] theorem emitBytes_symOut (bs : List Byte) (s : State) : (emitBytes bs s).symOut = s.symOut := rfl
@[simp] theorem emitBytes_byteOut (bs : List Byte) (s : State) : (emitBytes bs s).byteOut = s.byteOut ++ bs := rfl
@[simp] theorem emitBytes_symDrained (bs : List Byte) (s : State) : (emitBytes bs s).symDrained = s.symDrained := rfl
@[simp] theorem emitBytes_byteDrained (bs : List Byte) (s : State) : (emitBytes bs s).byteDrained = s.byteDrained := rfl
@[simp] theorem emitBytes_pending (bs : List Byte) (s : State) : (emitBytes bs s).pending = s.pending := rfl
@[simp] theorem emitBytes_replies (bs : List Byte) (s : State) : (emitBytes bs s).replies = s.replies := rfl

/-! `pushEncByte` -/

@[simp] theorem pushEncByte_cfg (b : Byte) (s : State) : (pushEncByte b s).cfg = s.cfg := rfl
@[simp] theorem pushEncByte_encSt (b : Byte) (s : State) : (pushEncByte b s).encSt = s.encSt := rfl
@[simp] theorem pushEncByte_encVar (b : Byte) (s : State) : (pushEncByte b s).encVar = s.encVar := rfl
@[simp] theorem pushEncByte_encWrap (b : Byte) (s : State) : (pushEncByte b s).encWrap = s.encWrap := rfl
@[simp] theorem pushEncByte_encCol (b : Byte) (s : State) : (pushEncByte b s).encCol = s.encCol := rfl
@[simp] theorem pushEncByte_encCnt (b : Byte) (s : State) : (pushEncByte b s).encCnt = s.encCnt + 1 := rfl
@[simp] theorem pushEncByte_encBuf (b : Byte) (s : State) : (pushEncByte b s).encBuf = s.encBuf.setIfInBounds s.encCnt.val (some b) := rfl
@[simp] theorem pushEncByte_decSt (b : Byte) (s : State) : (pushEncByte b s).decSt = s.decSt := rfl
@[simp] theorem pushEncByte_decLock (b : Byte) (s : State) : (pushEncByte b s).decLock = s.decLock := rfl
@[simp] theorem pushEncByte_decCnt (b : Byte) (s : State) : (pushEncByte b s).decCnt = s.decCnt := rfl
@[simp] theorem pushEncByte_decAcc (b : Byte) (s : State) : (pushEncByte b s).decAcc = s.decAcc := rfl
@[simp] theorem pushEncByte_decErr (b : Byte) (s : State) : (pushEncByte b s).decErr = s.decErr := rfl
@[simp] theorem pushEncByte_decErrCp (b : Byte) (s : State) : (pushEncByte b s).decErrCp = s.decErrCp := rfl
@[simp] theorem pushEncByte_decPend (b : Byte) (s : State) : (pushEncByte b s).decPend = s.decPend := rfl
@[simp] theorem pushEncByte_decPendCp (b : Byte) (s : State) : (pushEncByte b s).decPendCp = s.decPendCp := rfl
@[simp] theorem pushEncByte_cmdErr (b : Byte) (s : State) : (pushEncByte b s).cmdErr = s.cmdErr := rfl
@[simp] theorem pushEncByte_cmdErrWord (b : Byte) (s : State) : (pushEncByte b s).cmdErrWord = s.cmdErrWord := rfl
@[simp] theorem pushEncByte_mapResult (b : Byte) (s : State) : (pushEncByte b s).mapResult = s.mapResult := rfl
@[simp] theorem pushEncByte_symOut (b : Byte) (s : State) : (pushEncByte b s).symOut = s.symOut := rfl
@[simp] theorem pushEncByte_byteOut (b : Byte) (s : State) : (pushEncByte b s).byteOut = s.byteOut := rfl
@[simp] theorem pushEncByte_symDrained (b : Byte) (s : State) : (pushEncByte b s).symDrained = s.symDrained := rfl
@[simp] theorem pushEncByte_byteDrained (b : Byte) (s : State) : (pushEncByte b s).byteDrained = s.byteDrained := rfl
@[simp] theorem pushEncByte_pending (b : Byte) (s : State) : (pushEncByte b s).pending = s.pending := rfl
@[simp] theorem pushEncByte_replies (b : Byte) (s : State) : (pushEncByte b s).replies = s.replies := rfl

/-! `pushDecChunk` -/

@[simp] theorem pushDecChunk_cfg (i : Chunk) (s : State) : (pushDecChunk i s).cfg = s.cfg := rfl
@[simp] theorem pushDecChunk_encSt (i : Chunk) (s : State) : (pushDecChunk i s).encSt = s.encSt := rfl
@[simp] theorem pushDecChunk_encVar (i : Chunk) (s : State) : (pushDecChunk i s).encVar = s.encVar := rfl
@[simp] theorem pushDecChunk_encWrap (i : Chunk) (s : State) : (pushDecChunk i s).encWrap = s.encWrap := rfl
@[simp] theorem pushDecChunk_encCol (i : Chunk) (s : State) : (pushDecChunk i s).encCol = s.encCol := rfl
@[simp] theorem pushDecChunk_encCnt (i : Chunk) (s : State) : (pushDecChunk i s).encCnt = s.encCnt := rfl
@[simp] theorem pushDecChunk_encBuf (i : Chunk) (s : State) : (pushDecChunk i s).encBuf = s.encBuf := rfl
@[simp] theorem pushDecChunk_decSt (i : Chunk) (s : State) : (pushDecChunk i s).decSt = s.decSt := rfl
@[simp] theorem pushDecChunk_decLock (i : Chunk) (s : State) : (pushDecChunk i s).decLock = s.decLock := rfl
@[simp] theorem pushDecChunk_decCnt (i : Chunk) (s : State) : (pushDecChunk i s).decCnt = s.decCnt + 1 := rfl
@[simp] theorem pushDecChunk_decAcc (i : Chunk) (s : State) : (pushDecChunk i s).decAcc = s.decAcc.setIfInBounds s.decCnt.val (some i) := rfl
@[simp] theorem pushDecChunk_decErr (i : Chunk) (s : State) : (pushDecChunk i s).decErr = s.decErr := rfl
@[simp] theorem pushDecChunk_decErrCp (i : Chunk) (s : State) : (pushDecChunk i s).decErrCp = s.decErrCp := rfl
@[simp] theorem pushDecChunk_decPend (i : Chunk) (s : State) : (pushDecChunk i s).decPend = s.decPend := rfl
@[simp] theorem pushDecChunk_decPendCp (i : Chunk) (s : State) : (pushDecChunk i s).decPendCp = s.decPendCp := rfl
@[simp] theorem pushDecChunk_cmdErr (i : Chunk) (s : State) : (pushDecChunk i s).cmdErr = s.cmdErr := rfl
@[simp] theorem pushDecChunk_cmdErrWord (i : Chunk) (s : State) : (pushDecChunk i s).cmdErrWord = s.cmdErrWord := rfl
@[simp] theorem pushDecChunk_mapResult (i : Chunk) (s : State) : (pushDecChunk i s).mapResult = s.mapResult := rfl
@[simp] theorem pushDecChunk_symOut (i : Chunk) (s : State) : (pushDecChunk i s).symOut = s.symOut := rfl
@[simp] theorem pushDecChunk_byteOut (i : Chunk) (s : State) : (pushDecChunk i s).byteOut = s.byteOut := rfl
@[simp] theorem pushDecChunk_symDrained (i : Chunk) (s : State) : (pushDecChunk i s).symDrained = s.symDrained := rfl
@[simp] theorem pushDecChunk_byteDrained (i : Chunk) (s : State) : (pushDecChunk i s).byteDrained = s.byteDrained := rfl
@[simp] theorem pushDecChunk_pending (i : Chunk) (s : State) : (pushDecChunk i s).pending = s.pending := rfl
@[simp] theorem pushDecChunk_replies (i : Chunk) (s : State) : (pushDecChunk i s).replies = s.replies := rfl

/-! `answerRead` -/

@[simp] theorem answerRead_cfg (sel : BitVec 4) (s : State) : (answerRead sel s).cfg = s.cfg := rfl
@[simp] theorem answerRead_encSt (sel : BitVec 4) (s : State) : (answerRead sel s).encSt = s.encSt := rfl
@[simp] theorem answerRead_encVar (sel : BitVec 4) (s : State) : (answerRead sel s).encVar = s.encVar := rfl
@[simp] theorem answerRead_encWrap (sel : BitVec 4) (s : State) : (answerRead sel s).encWrap = s.encWrap := rfl
@[simp] theorem answerRead_encCol (sel : BitVec 4) (s : State) : (answerRead sel s).encCol = s.encCol := rfl
@[simp] theorem answerRead_encCnt (sel : BitVec 4) (s : State) : (answerRead sel s).encCnt = s.encCnt := rfl
@[simp] theorem answerRead_encBuf (sel : BitVec 4) (s : State) : (answerRead sel s).encBuf = s.encBuf := rfl
@[simp] theorem answerRead_decSt (sel : BitVec 4) (s : State) : (answerRead sel s).decSt = s.decSt := rfl
@[simp] theorem answerRead_decLock (sel : BitVec 4) (s : State) : (answerRead sel s).decLock = s.decLock := rfl
@[simp] theorem answerRead_decCnt (sel : BitVec 4) (s : State) : (answerRead sel s).decCnt = s.decCnt := rfl
@[simp] theorem answerRead_decAcc (sel : BitVec 4) (s : State) : (answerRead sel s).decAcc = s.decAcc := rfl
@[simp] theorem answerRead_decErr (sel : BitVec 4) (s : State) : (answerRead sel s).decErr = s.decErr := rfl
@[simp] theorem answerRead_decErrCp (sel : BitVec 4) (s : State) : (answerRead sel s).decErrCp = s.decErrCp := rfl
@[simp] theorem answerRead_decPend (sel : BitVec 4) (s : State) : (answerRead sel s).decPend = s.decPend := rfl
@[simp] theorem answerRead_decPendCp (sel : BitVec 4) (s : State) : (answerRead sel s).decPendCp = s.decPendCp := rfl
@[simp] theorem answerRead_cmdErr (sel : BitVec 4) (s : State) : (answerRead sel s).cmdErr = s.cmdErr := rfl
@[simp] theorem answerRead_cmdErrWord (sel : BitVec 4) (s : State) : (answerRead sel s).cmdErrWord = s.cmdErrWord := rfl
@[simp] theorem answerRead_mapResult (sel : BitVec 4) (s : State) : (answerRead sel s).mapResult = s.mapResult := rfl
@[simp] theorem answerRead_symOut (sel : BitVec 4) (s : State) : (answerRead sel s).symOut = s.symOut := rfl
@[simp] theorem answerRead_byteOut (sel : BitVec 4) (s : State) : (answerRead sel s).byteOut = s.byteOut := rfl
@[simp] theorem answerRead_symDrained (sel : BitVec 4) (s : State) : (answerRead sel s).symDrained = s.symDrained := rfl
@[simp] theorem answerRead_byteDrained (sel : BitVec 4) (s : State) : (answerRead sel s).byteDrained = s.byteDrained := rfl
@[simp] theorem answerRead_pending (sel : BitVec 4) (s : State) : (answerRead sel s).pending = s.pending := rfl
@[simp] theorem answerRead_replies (sel : BitVec 4) (s : State) : (answerRead sel s).replies = s.replies ++ [.register (readReg sel s)] := rfl

/-! `issueWord` -/

@[simp] theorem issueWord_cfg (w : CmdWord) (s : State) : (issueWord w s).cfg = s.cfg := rfl
@[simp] theorem issueWord_encSt (w : CmdWord) (s : State) : (issueWord w s).encSt = s.encSt := rfl
@[simp] theorem issueWord_encVar (w : CmdWord) (s : State) : (issueWord w s).encVar = s.encVar := rfl
@[simp] theorem issueWord_encWrap (w : CmdWord) (s : State) : (issueWord w s).encWrap = s.encWrap := rfl
@[simp] theorem issueWord_encCol (w : CmdWord) (s : State) : (issueWord w s).encCol = s.encCol := rfl
@[simp] theorem issueWord_encCnt (w : CmdWord) (s : State) : (issueWord w s).encCnt = s.encCnt := rfl
@[simp] theorem issueWord_encBuf (w : CmdWord) (s : State) : (issueWord w s).encBuf = s.encBuf := rfl
@[simp] theorem issueWord_decSt (w : CmdWord) (s : State) : (issueWord w s).decSt = s.decSt := rfl
@[simp] theorem issueWord_decLock (w : CmdWord) (s : State) : (issueWord w s).decLock = s.decLock := rfl
@[simp] theorem issueWord_decCnt (w : CmdWord) (s : State) : (issueWord w s).decCnt = s.decCnt := rfl
@[simp] theorem issueWord_decAcc (w : CmdWord) (s : State) : (issueWord w s).decAcc = s.decAcc := rfl
@[simp] theorem issueWord_decErr (w : CmdWord) (s : State) : (issueWord w s).decErr = s.decErr := rfl
@[simp] theorem issueWord_decErrCp (w : CmdWord) (s : State) : (issueWord w s).decErrCp = s.decErrCp := rfl
@[simp] theorem issueWord_decPend (w : CmdWord) (s : State) : (issueWord w s).decPend = s.decPend := rfl
@[simp] theorem issueWord_decPendCp (w : CmdWord) (s : State) : (issueWord w s).decPendCp = s.decPendCp := rfl
@[simp] theorem issueWord_cmdErr (w : CmdWord) (s : State) : (issueWord w s).cmdErr = s.cmdErr := rfl
@[simp] theorem issueWord_cmdErrWord (w : CmdWord) (s : State) : (issueWord w s).cmdErrWord = s.cmdErrWord := rfl
@[simp] theorem issueWord_mapResult (w : CmdWord) (s : State) : (issueWord w s).mapResult = s.mapResult := rfl
@[simp] theorem issueWord_symOut (w : CmdWord) (s : State) : (issueWord w s).symOut = s.symOut := rfl
@[simp] theorem issueWord_byteOut (w : CmdWord) (s : State) : (issueWord w s).byteOut = s.byteOut := rfl
@[simp] theorem issueWord_symDrained (w : CmdWord) (s : State) : (issueWord w s).symDrained = s.symDrained := rfl
@[simp] theorem issueWord_byteDrained (w : CmdWord) (s : State) : (issueWord w s).byteDrained = s.byteDrained := rfl
@[simp] theorem issueWord_pending (w : CmdWord) (s : State) : (issueWord w s).pending = .command w :: s.pending := rfl
@[simp] theorem issueWord_replies (w : CmdWord) (s : State) : (issueWord w s).replies = s.replies := rfl

/-! `resetEvent` -/

@[simp] theorem resetEvent_cfg (s : State) : (resetEvent s).cfg = s.cfg := rfl
@[simp] theorem resetEvent_encSt (s : State) : (resetEvent s).encSt = .idle := rfl
@[simp] theorem resetEvent_encVar (s : State) : (resetEvent s).encVar = .V1 := rfl
@[simp] theorem resetEvent_encWrap (s : State) : (resetEvent s).encWrap = 0#24 := rfl
@[simp] theorem resetEvent_encCol (s : State) : (resetEvent s).encCol = 0#24 := rfl
@[simp] theorem resetEvent_encCnt (s : State) : (resetEvent s).encCnt = 0 := rfl
@[simp] theorem resetEvent_encBuf (s : State) : (resetEvent s).encBuf = Vector.replicate 4 none := rfl
@[simp] theorem resetEvent_decSt (s : State) : (resetEvent s).decSt = .idle := rfl
@[simp] theorem resetEvent_decLock (s : State) : (resetEvent s).decLock = .unlocked := rfl
@[simp] theorem resetEvent_decCnt (s : State) : (resetEvent s).decCnt = 0 := rfl
@[simp] theorem resetEvent_decAcc (s : State) : (resetEvent s).decAcc = Vector.replicate 3 none := rfl
@[simp] theorem resetEvent_decErr (s : State) : (resetEvent s).decErr = .none := rfl
@[simp] theorem resetEvent_decErrCp (s : State) : (resetEvent s).decErrCp = 0#21 := rfl
@[simp] theorem resetEvent_decPend (s : State) : (resetEvent s).decPend = false := rfl
@[simp] theorem resetEvent_decPendCp (s : State) : (resetEvent s).decPendCp = 0#21 := rfl
@[simp] theorem resetEvent_cmdErr (s : State) : (resetEvent s).cmdErr = .none := rfl
@[simp] theorem resetEvent_cmdErrWord (s : State) : (resetEvent s).cmdErrWord = 0#32 := rfl
@[simp] theorem resetEvent_mapResult (s : State) : (resetEvent s).mapResult = 0#32 := rfl
@[simp] theorem resetEvent_symOut (s : State) : (resetEvent s).symOut = [] := rfl
@[simp] theorem resetEvent_byteOut (s : State) : (resetEvent s).byteOut = [] := rfl
@[simp] theorem resetEvent_symDrained (s : State) : (resetEvent s).symDrained = 0 := rfl
@[simp] theorem resetEvent_byteDrained (s : State) : (resetEvent s).byteDrained = 0 := rfl
@[simp] theorem resetEvent_pending (s : State) : (resetEvent s).pending = s.pending := rfl
@[simp] theorem resetEvent_replies (s : State) : (resetEvent s).replies = s.replies := rfl

/-! `State.resetWith` -/

@[simp] theorem resetWith_cfg (c : AdmittedConfig) : (State.resetWith c).cfg = c := rfl
@[simp] theorem resetWith_encSt (c : AdmittedConfig) : (State.resetWith c).encSt = .idle := rfl
@[simp] theorem resetWith_encVar (c : AdmittedConfig) : (State.resetWith c).encVar = .V1 := rfl
@[simp] theorem resetWith_encWrap (c : AdmittedConfig) : (State.resetWith c).encWrap = 0#24 := rfl
@[simp] theorem resetWith_encCol (c : AdmittedConfig) : (State.resetWith c).encCol = 0#24 := rfl
@[simp] theorem resetWith_encCnt (c : AdmittedConfig) : (State.resetWith c).encCnt = 0 := rfl
@[simp] theorem resetWith_encBuf (c : AdmittedConfig) : (State.resetWith c).encBuf = Vector.replicate 4 none := rfl
@[simp] theorem resetWith_decSt (c : AdmittedConfig) : (State.resetWith c).decSt = .idle := rfl
@[simp] theorem resetWith_decLock (c : AdmittedConfig) : (State.resetWith c).decLock = .unlocked := rfl
@[simp] theorem resetWith_decCnt (c : AdmittedConfig) : (State.resetWith c).decCnt = 0 := rfl
@[simp] theorem resetWith_decAcc (c : AdmittedConfig) : (State.resetWith c).decAcc = Vector.replicate 3 none := rfl
@[simp] theorem resetWith_decErr (c : AdmittedConfig) : (State.resetWith c).decErr = .none := rfl
@[simp] theorem resetWith_decErrCp (c : AdmittedConfig) : (State.resetWith c).decErrCp = 0#21 := rfl
@[simp] theorem resetWith_decPend (c : AdmittedConfig) : (State.resetWith c).decPend = false := rfl
@[simp] theorem resetWith_decPendCp (c : AdmittedConfig) : (State.resetWith c).decPendCp = 0#21 := rfl
@[simp] theorem resetWith_cmdErr (c : AdmittedConfig) : (State.resetWith c).cmdErr = .none := rfl
@[simp] theorem resetWith_cmdErrWord (c : AdmittedConfig) : (State.resetWith c).cmdErrWord = 0#32 := rfl
@[simp] theorem resetWith_mapResult (c : AdmittedConfig) : (State.resetWith c).mapResult = 0#32 := rfl
@[simp] theorem resetWith_symOut (c : AdmittedConfig) : (State.resetWith c).symOut = [] := rfl
@[simp] theorem resetWith_byteOut (c : AdmittedConfig) : (State.resetWith c).byteOut = [] := rfl
@[simp] theorem resetWith_symDrained (c : AdmittedConfig) : (State.resetWith c).symDrained = 0 := rfl
@[simp] theorem resetWith_byteDrained (c : AdmittedConfig) : (State.resetWith c).byteDrained = 0 := rfl
@[simp] theorem resetWith_pending (c : AdmittedConfig) : (State.resetWith c).pending = [] := rfl
@[simp] theorem resetWith_replies (c : AdmittedConfig) : (State.resetWith c).replies = [] := rfl

end Sys2Proof.Machine
end

