-- ==== Sys2Proof/Laws/Ops.lean ====
section
/-! SUPPORT. Laws/Ops.lean: once for each shared operation, everything it can do. -/

namespace Sys2Proof.Machine

/-! ## Error entries -/

/-- R155: recorded if and only if nothing is recorded yet. -/
theorem cmdError_eq (code : CmdErr) (w : CmdWord) (s : State) :
    cmdError code w s = if s.cmdErr = .none then { s with cmdErr := code, cmdErrWord := w } else s := by
  unfold cmdError
  cases h : s.cmdErr <;> simp

/-- A command error touches its two registers only. -/
theorem cmdError_frame (code : CmdErr) (w : CmdWord) (s : State) :
    cmdError code w s =
      { s with cmdErr := (cmdError code w s).cmdErr, cmdErrWord := (cmdError code w s).cmdErrWord } := by
  unfold cmdError
  cases h : s.cmdErr <;> simp

theorem sequenceError_frame (i : Instr) (s : State) :
    sequenceError i s =
      { s with cmdErr := (sequenceError i s).cmdErr, cmdErrWord := (sequenceError i s).cmdErrWord } :=
  cmdError_frame _ _ _

/-! ## Buffers -/

/-- A run of entries reads as values exactly when each is written. -/
theorem written_eq_some {α : Type} {l : List (Option α)} {as : List α} : written l = some as ↔ l = as.map some := by
  induction l generalizing as with
  | nil => cases as <;> simp [written]
  | cons x l ih =>
    cases x with
    | none => cases as <;> simp [written]
    | some a =>
      cases as with
      | nil => simp [written]
      | cons b bs => simp [written, ih, and_comm]

theorem encPending_eq_some {s : State} {bs : List Byte} :
    encPending s = some bs ↔ s.encBuf.toList.take s.encCnt.val = bs.map some := written_eq_some

theorem decPending_eq_some {s : State} {cs : List Chunk} :
    decPending s = some cs ↔ s.decAcc.toList.take s.decCnt.val = cs.map some := written_eq_some

/-- There are as many pending bytes as the count says. -/
theorem encPending_length {s : State} {bs : List Byte} (h : encPending s = some bs) : bs.length = s.encCnt.val := by
  have := congrArg List.length (encPending_eq_some.1 h)
  have hc := s.encCnt.isLt
  simp at this
  omega

theorem decPending_length {s : State} {cs : List Chunk} (h : decPending s = some cs) : cs.length = s.decCnt.val := by
  have := congrArg List.length (decPending_eq_some.1 h)
  have hc := s.decCnt.isLt
  simp at this
  omega

theorem written_isSome {α : Type} {l : List (Option α)} (h : ∀ x ∈ l, x.isSome = true) :
    ∃ as, written l = some as := by
  induction l with
  | nil => exact ⟨[], rfl⟩
  | cons x l ih =>
    obtain ⟨as, ha⟩ := ih fun y hy => h y (List.mem_cons_of_mem _ hy)
    obtain ⟨a, rfl⟩ := Option.isSome_iff_exists.1 (h x List.mem_cons_self)
    exact ⟨a :: as, by simp [written, ha]⟩

/-- Where the invariants hold, the pending bytes are all written. -/
theorem encPending_of_inv {s : State} (h : Inv s) : ∃ bs, encPending s = some bs := by
  refine written_isSome fun x hx => ?_
  obtain ⟨n, hn, rfl⟩ := List.getElem_of_mem hx
  have hc := s.encCnt.isLt
  simp only [List.length_take, Vector.length_toList] at hn
  simpa using h.encBufWritten n (by omega) (by omega)

theorem decPending_of_inv {s : State} (h : Inv s) : ∃ cs, decPending s = some cs := by
  refine written_isSome fun x hx => ?_
  obtain ⟨n, hn, rfl⟩ := List.getElem_of_mem hx
  have hc := s.decCnt.isLt
  simp only [List.length_take, Vector.length_toList] at hn
  simpa using h.decAccWritten n (by omega) (by omega)

/-! ## Emission -/

/-- The symbols of a list, emitted in order. -/
def emitAll (cps : List CodePoint) (s : State) : State := cps.foldl (fun t cp => emitSym cp t) s

@[simp] theorem emitAll_nil (s : State) : emitAll [] s = s := rfl

@[simp] theorem emitAll_cons (cp : CodePoint) (cps : List CodePoint) (s : State) :
    emitAll (cp :: cps) s = emitAll cps (emitSym cp s) := rfl

theorem emitAll_append (l m : List CodePoint) (s : State) : emitAll (l ++ m) s = emitAll m (emitAll l s) := by
  simp [emitAll, List.foldl_append]

/-- Emitting a symbol touches `SYM_OUT` and `ENC_COL` only (R122). -/
theorem emitSym_frame (cp : CodePoint) (s : State) :
    emitSym cp s = { s with symOut := (emitSym cp s).symOut, encCol := (emitSym cp s).encCol } := by
  unfold emitSym wrapAccount
  split_ifs <;> rfl

theorem emitAll_frame (cps : List CodePoint) (s : State) :
    emitAll cps s = { s with symOut := (emitAll cps s).symOut, encCol := (emitAll cps s).encCol } := by
  induction cps generalizing s with
  | nil => rfl
  | cons cp cps ih => rw [emitAll_cons, ih, emitSym_frame]

@[simp] theorem emitSym_cfg (cp : CodePoint) (s : State) : (emitSym cp s).cfg = s.cfg := by rw [emitSym_frame]

@[simp] theorem emitSym_encWrap (cp : CodePoint) (s : State) : (emitSym cp s).encWrap = s.encWrap := by
  rw [emitSym_frame]

@[simp] theorem emitAll_cfg (cps : List CodePoint) (s : State) : (emitAll cps s).cfg = s.cfg := by rw [emitAll_frame]

@[simp] theorem emitAll_encWrap (cps : List CodePoint) (s : State) : (emitAll cps s).encWrap = s.encWrap := by
  rw [emitAll_frame]

/-- A list of present ROM addresses is emitted as its words. -/
theorem emitRom_eq {addrs : List RomAddr} {cps : List CodePoint} {s : State}
    (h : addrs.map (romRead s.cfg.alphabet) = cps.map some) : emitRom addrs s = .next (emitAll cps s) := by
  induction addrs generalizing cps s with
  | nil => cases cps <;> simp_all [emitRom]
  | cons a addrs ih =>
    cases cps with
    | nil => simp at h
    | cons cp cps =>
      simp only [List.map_cons, List.cons.injEq] at h
      simp only [emitRom, h.1, emitAll_cons]
      exact ih (by simpa using h.2)

/-- The addresses of a full group read as its symbols (R121). -/
theorem fullGroupAddrs_read (a : Alphabet) (v : Variant) (b0 b1 b2 b3 b4 : Byte) :
    (fullGroupAddrs v b0 b1 b2 b3 b4).map (romRead a) = (fullGroupSymbols a v b0 b1 b2 b3 b4).map some := by
  simp [fullGroupAddrs, fullGroupSymbols]

/-- The addresses of a final partial group read as its symbols (R123). -/
theorem partialGroupAddrs_read (a : Alphabet) (v : Variant) {bs : List Byte} (h : bs.length ≤ 4) :
    (partialGroupAddrs v bs).map (romRead a) = (finalGroupSymbols a v bs).map some := by
  match bs, h with
  | [], _ => cases v <;> simp [partialGroupAddrs, finalGroupSymbols, packPartial, tailSymbols, fillerPads]
  | [_], _ =>
    cases v <;> simp [partialGroupAddrs, framingAddrs, finalGroupSymbols, packPartial, tailSymbols, fillerPads]
  | [_, _], _ =>
    cases v <;> simp [partialGroupAddrs, framingAddrs, finalGroupSymbols, packPartial, tailSymbols, fillerPads]
  | [_, _, _], _ =>
    cases v <;> simp [partialGroupAddrs, framingAddrs, finalGroupSymbols, packPartial, tailSymbols, fillerPads]
  | [_, _, _, _], _ =>
    cases v <;> simp [partialGroupAddrs, framingAddrs, finalGroupSymbols, packPartial, tailSymbols, fillerPads]

/-- The fifth byte of a group whose four bytes are written (R121). -/
theorem closeEncGroup_eq {s : State} {b0 b1 b2 b3 : Byte} (b : Byte) (h : encPending s = some [b0, b1, b2, b3]) :
    closeEncGroup b s =
      .next (endEncGroup (emitAll (fullGroupSymbols s.cfg.alphabet s.encVar b0 b1 b2 b3 b) s)) := by
  simp only [closeEncGroup, h, emitRom_eq (fullGroupAddrs_read s.cfg.alphabet s.encVar b0 b1 b2 b3 b), andThen]

/-- `enc.end` in an open message whose pending bytes are written (R123). -/
theorem execEncEnd_eq {s : State} {bs : List Byte} (ha : s.encSt = .active) (h : encPending s = some bs) :
    execEncEnd s = .next (closeMessage (emitAll (finalGroupSymbols s.cfg.alphabet s.encVar bs) s)) := by
  have hl : bs.length ≤ 4 := by
    have := encPending_length h
    have := s.encCnt.isLt
    omega
  simp only [execEncEnd, ha, h, emitRom_eq (partialGroupAddrs_read s.cfg.alphabet s.encVar hl), andThen]

/-- Emission on a line of `col` symbols, as one equation: the line breaks of R128 and the column after them. -/
theorem emitAll_wrapped (cps : List CodePoint) (s : State) (hc : s.encCol.toNat < s.encWrap.toNat) :
    emitAll cps s =
      { s with
        symOut := s.symOut ++ breakLines s.cfg.lbCp s.encWrap.toNat s.encCol.toNat cps
        encCol := BitVec.ofNat 24 ((s.encCol.toNat + cps.length) % s.encWrap.toNat) } := by
  induction cps generalizing s with
  | nil =>
    simp [breakLines, Nat.mod_eq_of_lt hc]
  | cons cp cps ih =>
    have hw : s.encWrap ≠ 0#24 := by
      intro e
      rw [e] at hc
      simp at hc
    have hlt := s.encWrap.isLt
    by_cases he : s.encCol.toNat + 1 = s.encWrap.toNat
    · have e1 : emitSym cp s = { s with symOut := s.symOut ++ [cp, s.cfg.lbCp], encCol := 0#24 } := by
        simp [emitSym, wrapAccount, hw, he, emitRaw]
      rw [emitAll_cons, e1, ih _ (by simp; omega)]
      simp only [breakLines, he, if_true]
      congr 1
      · have : (s.encCol.toNat + (cps.length + 1)) = s.encWrap.toNat + cps.length := by omega
        simp [this]
      · simp
    · have e1 : emitSym cp s = { s with symOut := s.symOut ++ [cp], encCol := s.encCol + 1#24 } := by
        simp [emitSym, wrapAccount, hw, he, emitRaw]
      have e2 : (s.encCol + 1#24).toNat = s.encCol.toNat + 1 := by
        rw [BitVec.toNat_add]
        simp
        omega
      rw [emitAll_cons, e1, ih _ (by simp only [e2]; omega)]
      simp only [breakLines, he, if_false, e2]
      congr 1
      · congr 2
        simp
        omega
      · simp

/-- Emission with wrapping off. -/
theorem emitAll_unwrapped (cps : List CodePoint) (s : State) (hw : s.encWrap = 0#24) :
    emitAll cps s = { s with symOut := s.symOut ++ cps } := by
  induction cps generalizing s with
  | nil => simp
  | cons cp cps ih =>
    have e1 : emitSym cp s = { s with symOut := s.symOut ++ [cp] } := by
      simp [emitSym, wrapAccount, hw, emitRaw]
    rw [emitAll_cons, e1, ih { s with symOut := s.symOut ++ [cp] } hw]
    simp

/-! ## Lock, host actions -/

theorem lockRejects_eq_false {l : Lock} {v : Variant} :
    lockRejects l v = false ↔ l = .unlocked ∨ l = .locked v := by
  cases l <;> simp [lockRejects]

theorem lockRejects_eq_true {l : Lock} {v : Variant} :
    lockRejects l v = true ↔ ∃ v', l = .locked v' ∧ v' ≠ v := by
  cases l <;> simp [lockRejects]

theorem takeAction_nil {s : State} (h : s.pending = []) : takeAction s = none := by
  simp [takeAction, h]

theorem takeAction_cons {s : State} {a : HostAction} {rest : List HostAction} (h : s.pending = a :: rest) :
    takeAction s = some (a, { s with pending := rest }) := by
  simp [takeAction, h]

/-- A drain with an unread symbol returns it and moves the position (R181). -/
theorem drainSymbol_unread {s : State} {cp : CodePoint} (h : s.symOut[s.symDrained]? = some cp) :
    drainSymbol s = { s with symDrained := s.symDrained + 1, replies := s.replies ++ [.symbol cp] } := by
  simp [drainSymbol, h]

/-- A drain with none changes nothing (log 19). -/
theorem drainSymbol_empty {s : State} (h : s.symOut.length ≤ s.symDrained) : drainSymbol s = s := by
  simp [drainSymbol, List.getElem?_eq_none h]

theorem drainOneByte_unread {s : State} {b : Byte} (h : s.byteOut[s.byteDrained]? = some b) :
    drainOneByte s = { s with byteDrained := s.byteDrained + 1, replies := s.replies ++ [.byte b] } := by
  simp [drainOneByte, h]

theorem drainOneByte_empty {s : State} (h : s.byteOut.length ≤ s.byteDrained) : drainOneByte s = s := by
  simp [drainOneByte, List.getElem?_eq_none h]

/-- A drain touches its position and the replies only. -/
theorem drainSymbol_frame (s : State) :
    drainSymbol s = { s with symDrained := (drainSymbol s).symDrained, replies := (drainSymbol s).replies } := by
  unfold drainSymbol
  split <;> rfl

theorem drainOneByte_frame (s : State) :
    drainOneByte s = { s with byteDrained := (drainOneByte s).byteDrained, replies := (drainOneByte s).replies } := by
  unfold drainOneByte
  split <;> rfl

/-- An answer of `mapLookup` on a present address (R107). -/
theorem mapLookup_eq {s : State} {addr : RomAddr} {cp : CodePoint} (h : romRead s.cfg.alphabet addr = some cp) :
    mapLookup addr s = .next { s with mapResult := cp.zeroExtend 32 } := by
  simp [mapLookup, h]

/-- A step takes the host's next action and applies it; with none it changes nothing. -/
theorem step_cases (s : State) :
    (s.pending = [] ∧ step s = .next s) ∨
    (∃ a rest, s.pending = a :: rest ∧ step s = applyAction a { s with pending := rest }) := by
  cases h : s.pending with
  | nil => exact .inl ⟨rfl, by simp [step, takeAction, h]⟩
  | cons a rest => exact .inr ⟨a, rest, rfl, by simp [step, takeAction, h]⟩

end Sys2Proof.Machine
end

