-- ==== Sys2Proof/Laws/Exec.lean ====
section
/-! SUPPORT. Laws/Exec.lean: for each command that has more than one path, everything its next state can be. -/

namespace Sys2Proof.Machine

theorem length_four {α : Type} {l : List α} (h : l.length = 4) : ∃ a b c d, l = [a, b, c, d] := by
  match l, h with
  | [a, b, c, d], _ => exact ⟨a, b, c, d, rfl⟩

theorem length_three {α : Type} {l : List α} (h : l.length = 3) : ∃ a b c, l = [a, b, c] := by
  match l, h with
  | [a, b, c], _ => exact ⟨a, b, c, rfl⟩

/-- The next states of `enc.byte` (R121). -/
theorem encByte_cases {b : Byte} {s t : State} (h : exec (.encByte b) s = .next t) :
    (s.encSt = .idle ∧ t = sequenceError (.encByte b) s) ∨
    (s.encSt = .active ∧ s.encCnt.val < 4 ∧ t = pushEncByte b s) ∨
    (s.encSt = .active ∧ s.encCnt = 4 ∧ ∃ b0 b1 b2 b3, encPending s = some [b0, b1, b2, b3] ∧
      t = endEncGroup (emitAll (fullGroupSymbols s.cfg.alphabet s.encVar b0 b1 b2 b3 b) s)) := by
  simp only [exec, execEncByte] at h
  split at h
  · rename_i hi
    exact .inl ⟨hi, by simpa using h.symm⟩
  · rename_i hi
    split at h
    · rename_i hc
      exact .inr (.inl ⟨hi, hc, by simpa using h.symm⟩)
    · rename_i hc
      have hc4 : s.encCnt = 4 := by
        have := s.encCnt.isLt
        apply Fin.ext
        show _ = 4
        omega
      cases hp : encPending s with
      | none => simp [closeEncGroup, hp] at h
      | some bs =>
        have hl := encPending_length hp
        rw [hc4] at hl
        obtain ⟨b0, b1, b2, b3, rfl⟩ := length_four hl
        rw [closeEncGroup_eq b hp] at h
        exact .inr (.inr ⟨hi, hc4, b0, b1, b2, b3, rfl, by simpa using h.symm⟩)

/-- The next states of `enc.end` (R123). -/
theorem encEnd_cases {s t : State} (h : exec .encEnd s = .next t) :
    (s.encSt = .idle ∧ t = sequenceError .encEnd s) ∨
    (s.encSt = .active ∧ ∃ bs, encPending s = some bs ∧
      t = closeMessage (emitAll (finalGroupSymbols s.cfg.alphabet s.encVar bs) s)) := by
  cases hi : s.encSt with
  | idle => exact .inl ⟨rfl, by simpa [exec, execEncEnd, hi] using h.symm⟩
  | active =>
    cases hp : encPending s with
    | none => simp [exec, execEncEnd, hi, hp] at h
    | some bs =>
      simp only [exec, execEncEnd_eq hi hp] at h
      exact .inr ⟨rfl, bs, rfl, by simpa using h.symm⟩

/-- Closing a message touches the encoder registers and `SYM_OUT` only (R123). -/
theorem closeMessage_frame (s : State) :
    closeMessage s =
      { s with symOut := (closeMessage s).symOut, encCol := 0#24, encCnt := 0, encSt := .idle } := by
  unfold closeMessage finalLineBreak emitRaw
  split_ifs <;> rfl

/-- The lock admits a discriminating symbol of variant `v` (R134). -/
abbrev Admits (s : State) (v : Variant) : Prop := s.decLock = .unlocked ∨ s.decLock = .locked v

/-- The next states of `dec.sym cp` (R133), one constructor per path of the rule. -/
inductive SymStep (cp : CodePoint) (s : State) : State → Prop
  | ignored (st : s.decSt = .error) : SymStep cp s s
  | sequence (st : s.decSt = .idle ∨ s.decSt = .done) : SymStep cp s (sequenceError (.decSym cp) s)
  | ws (st : s.decSt = .active) (cl : classify s.cfg.toConfig cp = .ws) : SymStep cp s s
  | invalid (st : s.decSt = .active) (cl : classify s.cfg.toConfig cp = .invalid) :
      SymStep cp s (decError .nonAlphabet cp s)
  | mixed (v v' : Variant) (st : s.decSt = .active) (cl : classVariant (classify s.cfg.toConfig cp) = some v)
      (lock : s.decLock = .locked v') (ne : v' ≠ v) : SymStep cp s (decError .mixedVersions cp s)
  | pad (cs : List Chunk) (st : s.decSt = .active) (cl : classify s.cfg.toConfig cp = .pad)
      (acc : decPending s = some cs) : SymStep cp s { s with byteOut := s.byteOut ++ unpackPad cs, decCnt := 0 }
  | main (v : Variant) (i : Chunk) (st : s.decSt = .active) (cl : classify s.cfg.toConfig cp = .main v i)
      (lock : Admits s v) (cnt : s.decCnt.val < 3) : SymStep cp s (pushDecChunk i { s with decLock := .locked v })
  | fourthMain (v : Variant) (i c0 c1 c2 : Chunk) (st : s.decSt = .active) (cl : classify s.cfg.toConfig cp = .main v i)
      (lock : Admits s v) (cnt : s.decCnt.val = 3) (acc : decPending s = some [c0, c1, c2]) :
      SymStep cp s { s with decLock := .locked v, byteOut := s.byteOut ++ unpack5 c0 c1 c2 i, decCnt := 0 }
  | tail (v : Variant) (t : TailIdx) (c0 c1 c2 : Chunk) (st : s.decSt = .active)
      (cl : classify s.cfg.toConfig cp = .tail v t) (lock : Admits s v) (cnt : s.decCnt.val = 3)
      (acc : decPending s = some [c0, c1, c2]) :
      SymStep cp s { s with decLock := .locked v, byteOut := s.byteOut ++ unpackTail c0 c1 c2 t, decCnt := 0 }
  | early (v : Variant) (t : TailIdx) (st : s.decSt = .active) (cl : classify s.cfg.toConfig cp = .tail v t)
      (lock : Admits s v) (cnt : s.decCnt.val < 3) : SymStep cp s (earlyTail cp { s with decLock := .locked v })

theorem takeMain_cases {cp : CodePoint} {v : Variant} {i : Chunk} {s t : State} (st : s.decSt = .active)
    (cl : classify s.cfg.toConfig cp = .main v i) (lock : Admits s v) (h : takeMain v i s = .next t) : SymStep cp s t := by
  have hlt := s.decCnt.isLt
  simp only [takeMain] at h
  split at h
  · rename_i h3
    obtain rfl : pushDecChunk i { s with decLock := .locked v } = t := by simpa using h
    exact .main v i st cl lock h3
  · rename_i h3
    have h3' : s.decCnt.val = 3 := by omega
    cases hp : decPending s with
    | none =>
      have hp' : decPending { s with decLock := .locked v } = none := hp
      simp [closeDecGroup, hp'] at h
    | some cs =>
      have hl := decPending_length hp
      rw [h3'] at hl
      obtain ⟨c0, c1, c2, rfl⟩ := length_three hl
      have hp' : decPending { s with decLock := .locked v } = some [c0, c1, c2] := hp
      simp only [closeDecGroup, hp', emitBytes, Host.Outcome.next.injEq] at h
      exact h ▸ .fourthMain v i c0 c1 c2 st cl lock h3' hp

theorem takeTail_cases {cp : CodePoint} {v : Variant} {i : TailIdx} {s t : State} (st : s.decSt = .active)
    (cl : classify s.cfg.toConfig cp = .tail v i) (lock : Admits s v) (h : takeTail v i cp s = .next t) : SymStep cp s t := by
  have hlt := s.decCnt.isLt
  simp only [takeTail] at h
  split at h
  · rename_i h3
    cases hp : decPending s with
    | none =>
      have hp' : decPending { s with decLock := .locked v } = none := hp
      simp [closeTailGroup, hp'] at h
    | some cs =>
      have hl := decPending_length hp
      rw [h3] at hl
      obtain ⟨c0, c1, c2, rfl⟩ := length_three hl
      have hp' : decPending { s with decLock := .locked v } = some [c0, c1, c2] := hp
      simp only [closeTailGroup, hp', emitBytes, Host.Outcome.next.injEq] at h
      exact h ▸ .tail v i c0 c1 c2 st cl lock h3 hp
  · rename_i h3
    replace h3 : ¬ s.decCnt.val = 3 := h3
    obtain rfl : earlyTail cp { s with decLock := .locked v } = t := by simpa using h
    exact .early v i st cl lock (by omega)

/-- Every next state of `dec.sym` is one of `SymStep`. -/
theorem decSym_cases {cp : CodePoint} {s t : State} (h : exec (.decSym cp) s = .next t) : SymStep cp s t := by
  simp only [exec, execDecSym] at h
  cases st : s.decSt with
  | error =>
    obtain rfl : s = t := by simpa [st] using h
    exact .ignored st
  | idle =>
    obtain rfl : sequenceError (.decSym cp) s = t := by simpa [st] using h
    exact .sequence (.inl st)
  | done =>
    obtain rfl : sequenceError (.decSym cp) s = t := by simpa [st] using h
    exact .sequence (.inr st)
  | active =>
    simp only [st, takeSymbol] at h
    cases cl : classify s.cfg.toConfig cp with
    | ws =>
      obtain rfl : s = t := by simpa [cl] using h
      exact .ws st cl
    | invalid =>
      obtain rfl : decError .nonAlphabet cp s = t := by simpa [cl] using h
      exact .invalid st cl
    | pad =>
      simp only [cl, takePad] at h
      cases hp : decPending s with
      | none => simp [hp] at h
      | some cs =>
        simp only [hp, emitBytes, Host.Outcome.next.injEq] at h
        exact h ▸ .pad cs st cl hp
    | main v i =>
      simp only [cl] at h
      split at h
      · rename_i hl
        obtain ⟨v', h1, h2⟩ := lockRejects_eq_true.1 hl
        obtain rfl : decError .mixedVersions cp s = t := by simpa using h
        exact .mixed v v' st (by rw [cl]; rfl) h1 h2
      · rename_i hl
        exact takeMain_cases st cl (lockRejects_eq_false.1 (by simpa using hl)) h
    | tail v i =>
      simp only [cl] at h
      split at h
      · rename_i hl
        obtain ⟨v', h1, h2⟩ := lockRejects_eq_true.1 hl
        obtain rfl : decError .mixedVersions cp s = t := by simpa using h
        exact .mixed v v' st (by rw [cl]; rfl) h1 h2
      · rename_i hl
        exact takeTail_cases st cl (lockRejects_eq_false.1 (by simpa using hl)) h

/-- The next states of `dec.end` (R140). -/
theorem decEnd_cases {s t : State} (h : exec .decEnd s = .next t) :
    (s.decSt = .error ∧ t = s) ∨ ((s.decSt = .idle ∨ s.decSt = .done) ∧ t = sequenceError .decEnd s) ∨
    (s.decSt = .active ∧ t = endStream s) := by
  simp only [exec, execDecEnd] at h
  cases hd : s.decSt <;> simp [hd] at h <;> subst h <;> simp

/-- The next state of a command on a present ROM address, for each of the three forward lookups (R104 to R106). -/
theorem execMapMain_eq (v : Variant) (i : Chunk) (s : State) :
    execMapMain v i s = .next { s with mapResult := (s.cfg.alphabet.main v i).zeroExtend 32 } :=
  mapLookup_eq (romRead_mainAddr _ _ _)

theorem execMapTail_eq (v : Variant) (t : TailIdx) (s : State) :
    execMapTail v t s = .next { s with mapResult := (s.cfg.alphabet.tail v t).zeroExtend 32 } :=
  mapLookup_eq (romRead_tailAddr _ _ _)

theorem execMapPad_eq (s : State) :
    execMapPad s = .next { s with mapResult := s.cfg.alphabet.pad.zeroExtend 32 } :=
  mapLookup_eq (romRead_padAddr _)

/-- A chunk pushed on the accumulator is the last of its pending chunks (R133). -/
theorem decPending_push {s : State} {cs : List Chunk} (i : Chunk) (hp : decPending s = some cs)
    (h3 : s.decCnt.val < 3) : decPending (pushDecChunk i s) = some (cs ++ [i]) := by
  rw [decPending_eq_some] at *
  have hv : (s.decCnt + 1 : Fin 4).val = s.decCnt.val + 1 := by
    rw [Fin.val_add]
    simp
    omega
  have hs : (s.decAcc.setIfInBounds s.decCnt.val (some i)).toList = s.decAcc.toList.set s.decCnt.val (some i) := by
    simp
  simp only [pushDecChunk, hv]
  rw [hs, List.take_add_one, List.take_set_of_le (by omega), hp]
  simp [h3]

/-- A byte pushed on the buffer is the last of its pending bytes (R121). -/
theorem encPending_push {s : State} {bs : List Byte} (b : Byte) (hp : encPending s = some bs)
    (h4 : s.encCnt.val < 4) : encPending (pushEncByte b s) = some (bs ++ [b]) := by
  rw [encPending_eq_some] at *
  have hv : (s.encCnt + 1 : Fin 5).val = s.encCnt.val + 1 := by
    rw [Fin.val_add]
    simp
    omega
  have hs : (s.encBuf.setIfInBounds s.encCnt.val (some b)).toList = s.encBuf.toList.set s.encCnt.val (some b) := by
    simp
  simp only [pushEncByte, hv]
  rw [hs, List.take_add_one, List.take_set_of_le (by omega), hp]
  simp [h4]

end Sys2Proof.Machine
end

