-- ==== Sys2Proof/Laws/PerInstr.lean ====
section
/-! SUPPORT. Laws/PerInstr.lean: statements for all instructions, one lemma per constructor. `OperandsInRange`: a command's
operands are in the assembler's ranges (30_encoding.md R92), whatever they are. `EncodeFitsRow`: a command's word has its
row's opcode (30_encoding.md R80). -/

namespace Sys2Proof.Laws

/-- Every command is well-formed: its operands' widths are its fields' widths (R83, R92). -/
def OperandsInRange.Statement (i : Instr) : Prop := i.wellFormed = true

theorem OperandsInRange.encStart (v : Variant) (wrap : WrapCount) : OperandsInRange.Statement (.encStart v wrap) := by
  have := wrap.isLt
  simp [OperandsInRange.Statement, Instr.wellFormed, Instr.toAsm, AsmLine.wellFormed, wrapInRange]
  omega

theorem OperandsInRange.encByte (b : Byte) : OperandsInRange.Statement (.encByte b) := by
  have := b.isLt
  simp [OperandsInRange.Statement, Instr.wellFormed, Instr.toAsm, AsmLine.wellFormed, imm8InRange]
  omega

theorem OperandsInRange.encEnd : OperandsInRange.Statement .encEnd := rfl

theorem OperandsInRange.decStart : OperandsInRange.Statement .decStart := rfl

theorem OperandsInRange.decSym (cp : CodePoint) : OperandsInRange.Statement (.decSym cp) := by
  have := cp.isLt
  simp [OperandsInRange.Statement, Instr.wellFormed, Instr.toAsm, AsmLine.wellFormed, cpInRange]
  omega

theorem OperandsInRange.decEnd : OperandsInRange.Statement .decEnd := rfl

theorem OperandsInRange.mapMain (v : Variant) (i : Chunk) : OperandsInRange.Statement (.mapMain v i) := by
  have := i.isLt
  simp [OperandsInRange.Statement, Instr.wellFormed, Instr.toAsm, AsmLine.wellFormed, idx10InRange]
  omega

theorem OperandsInRange.mapTail (v : Variant) (t : TailIdx) : OperandsInRange.Statement (.mapTail v t) := by
  have := t.isLt
  simp [OperandsInRange.Statement, Instr.wellFormed, Instr.toAsm, AsmLine.wellFormed, idx2InRange]
  omega

theorem OperandsInRange.mapPad : OperandsInRange.Statement .mapPad := rfl

theorem OperandsInRange.mapRev (cp : CodePoint) : OperandsInRange.Statement (.mapRev cp) := by
  have := cp.isLt
  simp [OperandsInRange.Statement, Instr.wellFormed, Instr.toAsm, AsmLine.wellFormed, cpInRange]
  omega

theorem OperandsInRange.clrCmdErr : OperandsInRange.Statement .clrCmdErr := rfl

/-- The opcode field of a command's word is its row's (R80). -/
def EncodeFitsRow.Statement (i : Instr) : Prop :=
  (encode i).toNat / 2 ^ 28 = (opcodeRow i).matchBits.toNat / 2 ^ 28

theorem EncodeFitsRow.encStart (v : Variant) (wrap : WrapCount) : EncodeFitsRow.Statement (.encStart v wrap) := by
  have h1 := (variantBit v).isLt
  have h2 := wrap.isLt
  simp only [EncodeFitsRow.Statement, encode, formatS_toNat, opcodeRow, BitVec.toNat_ofNat]
  omega

theorem EncodeFitsRow.encByte (b : Byte) : EncodeFitsRow.Statement (.encByte b) := by
  have h1 := b.isLt
  simp only [EncodeFitsRow.Statement, encode, formatB_toNat, opcodeRow, BitVec.toNat_ofNat]
  omega

theorem EncodeFitsRow.encEnd : EncodeFitsRow.Statement .encEnd := rfl

theorem EncodeFitsRow.decStart : EncodeFitsRow.Statement .decStart := rfl

theorem EncodeFitsRow.decSym (cp : CodePoint) : EncodeFitsRow.Statement (.decSym cp) := by
  have h1 := cp.isLt
  simp only [EncodeFitsRow.Statement, encode, formatC_toNat, opcodeRow, BitVec.toNat_ofNat]
  omega

theorem EncodeFitsRow.decEnd : EncodeFitsRow.Statement .decEnd := rfl

theorem EncodeFitsRow.mapMain (v : Variant) (i : Chunk) : EncodeFitsRow.Statement (.mapMain v i) := by
  have h1 := (variantBit v).isLt
  have h2 := i.isLt
  simp only [EncodeFitsRow.Statement, encode, formatM_toNat, opcodeRow, BitVec.toNat_ofNat]
  omega

theorem EncodeFitsRow.mapTail (v : Variant) (t : TailIdx) : EncodeFitsRow.Statement (.mapTail v t) := by
  have h1 := (variantBit v).isLt
  have h2 := t.isLt
  simp only [EncodeFitsRow.Statement, encode, formatM_toNat, opcodeRow, append_toNat, BitVec.toNat_ofNat]
  omega

theorem EncodeFitsRow.mapPad : EncodeFitsRow.Statement .mapPad := rfl

theorem EncodeFitsRow.mapRev (cp : CodePoint) : EncodeFitsRow.Statement (.mapRev cp) := by
  have h1 := cp.isLt
  simp only [EncodeFitsRow.Statement, encode, formatC_toNat, opcodeRow, BitVec.toNat_ofNat]
  omega

theorem EncodeFitsRow.clrCmdErr : EncodeFitsRow.Statement .clrCmdErr := rfl

end Sys2Proof.Laws
end

