-- ==== Sys2Proof/Laws/Run.lean ====
section
/-! SUPPORT. Laws/Run.lean: runs of a list of commands, taken apart and put together. -/

namespace Sys2Proof.Machine

@[simp] theorem runInstrs_nil (s : State) : runInstrs [] s = .next s := rfl

theorem runInstrs_cons_next {i : Instr} {is : List Instr} {s t : State} (h : exec i s = .next t) :
    runInstrs (i :: is) s = runInstrs is t := by
  simp [runInstrs, h]

/-- Where a run answers a next state, its first command did. -/
theorem runInstrs_cons_inv {i : Instr} {is : List Instr} {s u : State} (h : runInstrs (i :: is) s = .next u) :
    ∃ t, exec i s = .next t ∧ runInstrs is t = .next u := by
  unfold runInstrs at h
  cases he : exec i s with
  | next t => exact ⟨t, rfl, by simpa [he] using h⟩
  | fault e => simp [he] at h
  | refused e => simp [he] at h

theorem runInstrs_append_next {is js : List Instr} {s t : State} (h : runInstrs is s = .next t) :
    runInstrs (is ++ js) s = runInstrs js t := by
  induction is generalizing s with
  | nil => simp only [runInstrs_nil, Host.Outcome.next.injEq] at h; simp [h]
  | cons i is ih =>
    obtain ⟨u, hu, hr⟩ := runInstrs_cons_inv h
    rw [List.cons_append, runInstrs_cons_next hu, ih hr]

/-- A property that every command of a list keeps holds at the end of the run. -/
theorem runInstrs_keeps {P : State → Prop} {is : List Instr}
    (hk : ∀ i ∈ is, ∀ s t, P s → exec i s = .next t → P t) {s t : State} (hs : P s)
    (h : runInstrs is s = .next t) : P t := by
  induction is generalizing s with
  | nil => simp only [runInstrs_nil, Host.Outcome.next.injEq] at h; exact h ▸ hs
  | cons i is ih =>
    obtain ⟨u, hu, hr⟩ := runInstrs_cons_inv h
    exact ih (fun j hj => hk j (List.mem_cons_of_mem _ hj)) (hk i List.mem_cons_self s u hs hu) hr

/-- A list of commands each of which completes wherever a property holds, and keeps it, completes. -/
theorem runInstrs_completes {P : State → Prop} {is : List Instr}
    (hk : ∀ i ∈ is, ∀ s, P s → ∃ t, exec i s = .next t ∧ P t) {s : State} (hs : P s) :
    ∃ t, runInstrs is s = .next t ∧ P t := by
  induction is generalizing s with
  | nil => exact ⟨s, rfl, hs⟩
  | cons i is ih =>
    obtain ⟨u, hu, hp⟩ := hk i List.mem_cons_self s hs
    obtain ⟨t, ht, hq⟩ := ih (fun j hj => hk j (List.mem_cons_of_mem _ hj)) hp
    exact ⟨t, by rw [runInstrs_cons_next hu, ht], hq⟩

/-- The same for the host's actions. -/
theorem runActions_completes {P : State → Prop} {acts : List HostAction}
    (hk : ∀ a ∈ acts, ∀ s, P s → ∃ t, applyAction a s = .next t ∧ P t) {s : State} (hs : P s) :
    ∃ t, runActions acts s = .next t ∧ P t := by
  induction acts generalizing s with
  | nil => exact ⟨s, rfl, hs⟩
  | cons a acts ih =>
    obtain ⟨u, hu, hp⟩ := hk a List.mem_cons_self s hs
    obtain ⟨t, ht, hq⟩ := ih (fun b hb => hk b (List.mem_cons_of_mem _ hb)) hp
    exact ⟨t, by simp [runActions, hu, ht], hq⟩

end Sys2Proof.Machine
end

