-- ==== Sys2Proof/Tests/Slice0.lean ====
section
/-! SUPPORT. Tests/Slice0.lean: the ill-formed lines the assembler refuses; words written out bit by bit from the formats
R75 to R79; single steps with the results 95_test_vectors.md and the rules' own examples give, over the test alphabet
`TROM`; and for every obligation with hypotheses a state and operands that meet them. -/

namespace Sys2Proof.Tests

open Sys2Proof.Machine

-- One theorem after the other, so that the kernel evaluations do not hold their memory at the same time.
set_option Elab.async false

/-! ## Helpers -/

/-- The configuration with `TROM`, which is admitted. -/
def tromAdmitted : AdmittedConfig := { toConfig := tromConfig, meetsR98 := tromConfig_admitted }

/-- The reset state with `TROM`. -/
def trom : State := State.resetWith tromAdmitted

/-- An open message with nothing pending. -/
def encOpen (v : Variant) (wrap : WrapCount) : State :=
  { trom with encSt := .active, encVar := v, encWrap := wrap }

/-- An open message with the bytes 00 01 02 03 pending. -/
def encFour (v : Variant) (wrap : WrapCount) : State :=
  { encOpen v wrap with encCnt := 4, encBuf := #v[some 0x00#8, some 0x01#8, some 0x02#8, some 0x03#8] }

/-- An open message with the byte 6B pending. -/
def encK (v : Variant) (wrap : WrapCount) : State :=
  { encOpen v wrap with encCnt := 1, encBuf := #v[some 0x6B#8, none, none, none] }

/-- An open stream with nothing pending. -/
def decOpen : State := { trom with decSt := .active }

/-- An open stream locked to `v` with the Mains 0, 16, 128 pending. -/
def decThree (v : Variant) : State :=
  { decOpen with decLock := .locked v, decCnt := 3, decAcc := #v[some 0#10, some 16#10, some 128#10] }

/-- An aborted stream. -/
def decFailed : State := { decOpen with decSt := .error, decErr := .nonAlphabet, decErrCp := 0x41#21 }

/-- The next state, if there is one. -/
def nextOf (r : Result) : Option State :=
  match r with
  | .next s => some s
  | .fault _ => none
  | .refused _ => none

/-- A field of the next state. -/
def sees {α : Type} (f : State → α) (r : Result) : Option α := (nextOf r).map f

theorem next_of_some {r : Result} (h : (nextOf r).isSome = true) : ∃ t, r = .next t := by
  cases r <;> simp [nextOf] at h ⊢

/-! ## Ill-formed lines (R92) -/

theorem test_wrap_out_of_range : (AsmLine.encStart .V1 16777216).wellFormed = false := by decide
theorem test_wrap_refused : assemble (.encStart .V1 16777216) = none := by decide
theorem test_imm8_out_of_range : (AsmLine.encByte 256).wellFormed = false := by decide
theorem test_cp_out_of_range : (AsmLine.decSym 0x200000).wellFormed = false := by decide
theorem test_rev_cp_out_of_range : (AsmLine.mapRev 0x200000).wellFormed = false := by decide
theorem test_idx10_out_of_range : (AsmLine.mapMain .V2 1024).wellFormed = false := by decide
theorem test_idx2_out_of_range : (AsmLine.mapTail .V2 4).wellFormed = false := by decide
theorem test_bytes_out_of_range : (AsmLine.encBytes [0, 256]).wellFormed = false := by decide
theorem test_syms_out_of_range : (AsmLine.decSyms [0x1FFFFF, 0x200000]).wellFormed = false := by decide
theorem test_encode_out_of_range : (AsmLine.encodeMsg .V1 16777216 []).wellFormed = false := by decide
theorem test_encode_byte_out_of_range : (AsmLine.encodeMsg .V1 0 [256]).wellFormed = false := by decide
theorem test_decode_out_of_range : (AsmLine.decodeStream [0x200000]).wellFormed = false := by decide
theorem test_largest_wrap_in_range : (AsmLine.encStart .V2 16777215).wellFormed = true := by decide

/-! ## Words written out bit by bit (R75 to R79) -/

/-- Format S: OP 0001, V 1, MBZ 000, WRAP 20. -/
theorem test_decode_encStart :
    decode 0b00011000000000000000000000010100#32 = .ok (.encStart .V2 20#24) := by decide
/-- Format B: OP 0010, 20 MBZ bits, BYTE 01101011. -/
theorem test_decode_encByte :
    decode 0b00100000000000000000000001101011#32 = .ok (.encByte 0x6B#8) := by decide
theorem test_decode_encEnd : decode 0b00110000000000000000000000000000#32 = .ok .encEnd := by decide
theorem test_decode_decStart : decode 0b01000000000000000000000000000000#32 = .ok .decStart := by decide
/-- Format C: OP 0101, 7 MBZ bits, CP 0x1005AC. -/
theorem test_decode_decSym :
    decode 0b01010000000100000000010110101100#32 = .ok (.decSym 0x1005AC#21) := by decide
theorem test_decode_decEnd : decode 0b01100000000000000000000000000000#32 = .ok .decEnd := by decide
/-- Format M: OP 0111, V 1, TSEL 00, 15 MBZ bits, IDX 428. -/
theorem test_decode_mapMain :
    decode 0b01111000000000000000000110101100#32 = .ok (.mapMain .V2 428#10) := by decide
/-- Format M: OP 0111, V 0, TSEL 01, 15 MBZ bits, IDX 3. -/
theorem test_decode_mapTail :
    decode 0b01110010000000000000000000000011#32 = .ok (.mapTail .V1 3#2) := by decide
/-- Format M: OP 0111, V 0, TSEL 10, the rest 0. -/
theorem test_decode_mapPad : decode 0b01110100000000000000000000000000#32 = .ok .mapPad := by decide
theorem test_decode_mapRev :
    decode 0b10000000000100000000100000000011#32 = .ok (.mapRev 0x100803#21) := by decide
theorem test_decode_clrCmdErr : decode 0b10010000000000000000000000000000#32 = .ok .clrCmdErr := by decide
theorem test_decode_opcode_A : decode 0b10100000000000000000000000000000#32 = .error .reservedOpcode := by decide
theorem test_decode_tail_index_4 : decode 0b01110010000000000000000000000100#32 = .error .mbzBitSet := by decide
/-- `map.pad` with V = 1 (R106). -/
theorem test_decode_pad_of_V2 : decode 0b01111100000000000000000000000000#32 = .error .mbzBitSet := by decide
theorem test_decode_byte_bit_8 : decode 0x20000100#32 = .error .mbzBitSet := by decide
theorem test_tableWord : decodeTableWord 32 0x780001AC = some (.mapMain .V2 428#10) := by decide

/-! ## The bit-packer (R110 to R116, their examples) -/

theorem test_pack5 : pack5 0x00#8 0x01#8 0x02#8 0x03#8 0x04#8 = (0#10, 16#10, 128#10, 772#10) := by decide
theorem test_packPartial_1 : packPartial [0x6B#8] = ([428#10], none) := by decide
theorem test_packPartial_4 :
    packPartial [0x00#8, 0x01#8, 0x02#8, 0x00#8] = ([0#10, 16#10, 128#10], some 0#2) := by decide
theorem test_unpack5 : unpack5 0#10 16#10 128#10 772#10 = [0x00#8, 0x01#8, 0x02#8, 0x03#8, 0x04#8] := by decide
theorem test_unpackPad : unpackPad [431#10] = [0x6B#8] := by decide
theorem test_unpackTail : unpackTail 0#10 16#10 128#10 0#2 = [0x00#8, 0x01#8, 0x02#8, 0x00#8] := by decide

/-! ## Single steps -/

/-- R120's example. -/
theorem test_encStart : sees (readReg 0#4) (exec (.encStart .V2 0#24) trom) = some 0x00000011#32 := by decide +kernel
/-- R121's example: the fifth byte. -/
theorem test_encByte_fifth : sees State.symOut (exec (.encByte 0x04#8) (encFour .V1 0#24)) =
    some [0x100000#21, 0x100010#21, 0x100080#21, 0x100304#21] := by decide +kernel
/-- 95 E32. -/
theorem test_encByte_idle : sees (readReg 5#4) (exec (.encByte 0x6B#8) trom) = some 0x2000006B#32 := by decide +kernel
/-- 95 E21: wrap 2 under V1. -/
theorem test_encEnd_wrapped : sees State.symOut (exec .encEnd (encK .V1 2#24)) =
    some [0x1001AC#21, 0x100808#21, 0x00000A#21, 0x100808#21, 0x100808#21, 0x00000A#21] := by decide +kernel
/-- R123's example under V2, with 95 E25's line break. -/
theorem test_encEnd_V2 : sees State.symOut (exec .encEnd (encK .V2 3#24)) =
    some [0x1005AC#21, 0x100808#21, 0x00000A#21] := by decide +kernel
/-- R132's example. -/
theorem test_decStart : sees (readReg 0#4) (exec .decStart trom) = some 0x00000100#32 := by decide +kernel
/-- 95 D37: an early Tail. -/
theorem test_decSym_early : sees (readReg 0#4) (exec (.decSym 0x100805#21) decOpen) = some 0x00004900#32 := by
  decide +kernel
/-- R140's example: the Tail after three Mains. -/
theorem test_decSym_tail : sees State.byteOut (exec (.decSym 0x100800#21) (decThree .V1)) =
    some [0x00#8, 0x01#8, 0x02#8, 0x00#8] := by decide +kernel
/-- 95 D33: dec.end of an empty stream. -/
theorem test_decEnd_done : sees (readReg 0#4) (exec .decEnd decOpen) = some 0x00000200#32 := by decide +kernel
/-- R140: three Mains pending, so the stream is truncated. -/
theorem test_decEnd_truncated :
    sees (fun t => (t.decErr, t.decSt)) (exec .decEnd (decThree .V2)) = some (.frameTruncated, .error) := by
  decide +kernel
/-- R104's example. -/
theorem test_mapMain : sees (readReg 4#4) (exec (.mapMain .V2 428#10) trom) = some 0x001005AC#32 := by decide +kernel
/-- R105's example. -/
theorem test_mapTail : sees (readReg 4#4) (exec (.mapTail .V1 3#2) trom) = some 0x00100803#32 := by decide +kernel
/-- R106's example. -/
theorem test_mapPad : sees (readReg 4#4) (exec .mapPad trom) = some 0x00100808#32 := by decide +kernel
/-- R108's examples. -/
theorem test_mapRev_tail : sees (readReg 4#4) (exec (.mapRev 0x100803#21) trom) = some 0x40000003#32 := by
  decide +kernel
theorem test_mapRev_invalid : sees (readReg 4#4) (exec (.mapRev 0x41#21) trom) = some 0x00000000#32 := by
  decide +kernel
/-- R148's example. -/
theorem test_illegal : sees (readReg 0#4) (applyCommand 0xF0000000#32 trom) = some 0x01000000#32 := by decide +kernel
theorem test_clrCmdErr : sees (readReg 5#4)
    (exec .clrCmdErr { trom with cmdErr := .illegalCmd, cmdErrWord := 0xF0000000#32 }) = some 0x00000000#32 := by
  decide +kernel

/-- A fetched word is the next action and runs (log 4). -/
theorem test_withFetchWord : sees (readReg 0#4) (step (trom.withFetchWord 32 0x18000000)) = some 0x00000011#32 := by
  decide +kernel
/-- 95 C10: a reset closes an open message. -/
theorem test_reset : sees (readReg 0#4) (step { encK .V2 3#24 with pending := [.reset] }) = some 0x00000000#32 := by
  decide +kernel
/-- 95 E36: the read port shows the wrap. -/
theorem test_read : sees State.replies (step { encK .V2 3#24 with pending := [.read 1#4] }) =
    some [.register 0x00000003#32] := by
  decide +kernel
/-- R181: the host drains the oldest unread symbol, and with none left nothing. -/
theorem test_drain_second :
    sees State.replies (step { trom with symOut := [1#21, 2#21], symDrained := 1, pending := [.drainSym] }) =
      some [.symbol 2#21] := by decide +kernel
theorem test_drain_empty :
    sees State.replies (step { trom with byteOut := [1#8], byteDrained := 1, pending := [.drainByte] }) = some [] := by
  decide +kernel
/-- R98: the default configuration with `TROM` is built. -/
theorem test_powerOn : ∃ t, powerOn tromConfig = .next t := ⟨_, dif_pos tromConfig_admitted⟩
/-- R98, invariant 6: without the line break in the whitespace set the configuration is refused. -/
theorem test_powerOn_refused :
    powerOn { tromConfig with wsSet := [], wsUnicode := by simp } = .refused .configNotAdmitted := by
  refine dif_neg ?_
  simp [Config.Admitted, Config.admitted]

/-! ## Invariants of the test states -/

theorem trom_inv : Inv trom := by
  constructor <;> simp [trom, State.resetWith]

theorem decOpen_inv : Inv decOpen := by
  constructor <;> simp [decOpen, trom, State.resetWith]

theorem encFour_inv : Inv (encFour .V2 1#24) := by
  constructor <;> simp [encFour, encOpen, trom, State.resetWith]
  decide

theorem trom_records : ErrorRecords trom := by
  constructor <;> simp [trom, State.resetWith]

/-! ## Witnesses: the hypotheses of each obligation are met -/

theorem witness_DecodeAndEncodeAgree :
    (Instr.mapTail .V2 3#2).wellFormed = true ∧ decode 0x7A000003#32 = .ok (.mapTail .V2 3#2) := by decide

theorem witness_OpcodeRowsNeverOverlap :
    (opcodeRow .clrCmdErr ∈ opcodeMap ∧
      0x90000000#32 &&& (opcodeRow .clrCmdErr).maskBits = (opcodeRow .clrCmdErr).matchBits) ∧
    (0x0FFFFFFF#32 : CmdWord).toNat / 2 ^ 28 = 0 ∧ 0xA ≤ (0xA0000000#32 : CmdWord).toNat / 2 ^ 28 ∧
    0xA ≤ (0xFFFFFFFF#32 : CmdWord).toNat / 2 ^ 28 := by decide

theorem witness_DecodeAnswersTheFittingRow :
    decode 0x2000006B#32 = .ok (.encByte 0x6B#8) ∧ decode 0x76000000#32 = .error .reservedTsel := by decide

theorem witness_OperandsAreTheWordsFields :
    decode 0x18FFFFFF#32 = .ok (.encStart .V2 0xFFFFFF#24) ∧ decode 0x200000FF#32 = .ok (.encByte 0xFF#8) ∧
    decode 0x501FFFFF#32 = .ok (.decSym 0x1FFFFF#21) ∧ decode 0x780003FF#32 = .ok (.mapMain .V2 1023#10) ∧
    decode 0x7A000003#32 = .ok (.mapTail .V2 3#2) ∧ decode 0x80000000#32 = .ok (.mapRev 0#21) ∧
    0x10FFFF < (0x110000#21 : CodePoint).toNat := by decide

theorem witness_IllegalWordsAreExactlyTheListedOnes :
    decode 0x0FFFFFFF#32 = .error .reservedOpcode ∧ decode 0xA0000000#32 = .error .reservedOpcode ∧
    decode 0x11000000#32 = .error .mbzBitSet ∧ decode 0x20000100#32 = .error .mbzBitSet ∧
    decode 0x30000001#32 = .error .mbzBitSet ∧ decode 0x50200000#32 = .error .mbzBitSet ∧
    decode 0x70000400#32 = .error .mbzBitSet ∧ decode 0x72000004#32 = .error .mbzBitSet ∧
    decode 0x74000001#32 = .error .mbzBitSet ∧ decode 0x76000000#32 = .error .reservedTsel := by decide

theorem witness_StepAppliesTheHostsNextAction :
    (∃ s : State, s.pending = [.command 0x30000000#32] ∧ decode 0x30000000#32 = .ok .encEnd ∧
      Instr.encEnd.wellFormed = true) ∧
    (∃ s : State, s.pending = [.command 0#32] ∧ decode 0#32 = .error .reservedOpcode) ∧
    (∃ s : State, s.pending = [.read 15#4]) ∧ (∃ s : State, s.pending = [.reset]) ∧
    (∃ (s : State) (cp : CodePoint), s.pending = [.drainSym] ∧ s.symOut[s.symDrained]? = some cp) ∧
    (∃ (s : State) (b : Byte), s.pending = [.drainByte] ∧ s.byteOut[s.byteDrained]? = some b) ∧
    (∃ s : State, s.pending = [.drainSym] ∧ s.symOut.length ≤ s.symDrained) ∧ (∃ s : State, s.pending = []) :=
  ⟨⟨{ trom with pending := [.command 0x30000000#32] }, rfl, rfl, rfl⟩,
   ⟨{ trom with pending := [.command 0#32] }, rfl, rfl⟩, ⟨{ trom with pending := [.read 15#4] }, rfl⟩,
   ⟨{ trom with pending := [.reset] }, rfl⟩,
   ⟨{ trom with pending := [.drainSym], symOut := [0x41#21] }, 0x41#21, rfl, rfl⟩,
   ⟨{ trom with pending := [.drainByte], byteOut := [0x6B#8] }, 0x6B#8, rfl, rfl⟩,
   ⟨{ trom with pending := [.drainSym] }, rfl, Nat.le_refl 0⟩, ⟨trom, rfl⟩⟩

theorem witness_ReadPortShowsTheRegisterMap : 7 ≤ (7#4 : BitVec 4).toNat ∧ 7 ≤ (15#4 : BitVec 4).toNat := by decide

theorem witness_CommandsAppendBoundedOutput :
    (∃ t, exec (.encByte 0x04#8) (encFour .V1 1#24) = .next t) ∧
    (∃ s : State, s.symDrained + 2 ≤ s.symOut.length) ∧ (∃ s : State, s.byteDrained + 1 ≤ s.byteOut.length) :=
  ⟨next_of_some (by decide +kernel), ⟨{ trom with symOut := [0#21, 1#21, 2#21], symDrained := 1 }, Nat.le_refl 3⟩,
   ⟨{ trom with byteOut := [0#8] }, Nat.le_refl 1⟩⟩

theorem witness_NothingWritesTheRom : ∃ t, step { encK .V1 1#24 with pending := [.reset] } = .next t := ⟨_, rfl⟩

theorem witness_RomIsLaidOutByAddress :
    (0x3FF#12 : RomAddr).toNat = 0x000 + (1023#10 : Chunk).toNat ∧
    (0x400#12 : RomAddr).toNat = 0x400 + (0#10 : Chunk).toNat ∧
    (0x7FF#12 : RomAddr).toNat = 0x400 + (1023#10 : Chunk).toNat ∧
    (0x803#12 : RomAddr).toNat = 0x800 + (3#2 : TailIdx).toNat ∧
    (0x807#12 : RomAddr).toNat = 0x804 + (3#2 : TailIdx).toNat ∧
    (0x808#12 : RomAddr).toNat = 0x808 ∧ 0x809 ≤ (0x809#12 : RomAddr).toNat ∧ 0x809 ≤ (0xFFF#12 : RomAddr).toNat := by
  decide

theorem witness_ClassifyMeansMembership :
    0x110000 ≤ (0x110000#21 : CodePoint).toNat ∧ 0x110000 ≤ (0x1FFFFF#21 : CodePoint).toNat := by decide

theorem witness_MapRevClassifiesWithoutLocking :
    (0x100400#21 = trom.cfg.alphabet.main .V2 0#10) ∧
    (0x100803#21 = trom.cfg.alphabet.tail .V1 3#2) ∧ (0x100808#21 = trom.cfg.alphabet.pad) ∧
    (0x20#21 ∈ trom.cfg.wsSet) ∧ (0x41#21 ∉ trom.cfg.alphabet.words) ∧ (0x41#21 ∉ trom.cfg.wsSet) ∧
    0x110000 ≤ (0x110000#21 : CodePoint).toNat :=
  ⟨by decide +kernel, by decide +kernel, by decide +kernel, by decide +kernel, by decide +kernel, by decide +kernel, by decide +kernel⟩

theorem witness_UnpackInvertsPack : (1 ≤ [0x6B#8].length ∧ [0x6B#8].length ≤ 3) ∧ [0#8, 1#8, 2#8].length ≤ 3 := by decide

theorem witness_PartialGroupHasZeroPadding :
    1 ≤ [0x6B#8].length ∧ [0#8, 1#8, 2#8, 3#8].length ≤ 4 := by decide

theorem witness_UnpackLosesOnlyThePadding :
    (([] : List Chunk).length < 3 ∧ (428#10 : Chunk).toNat / 4 ^ 1 = (431#10 : Chunk).toNat / 4 ^ 1) ∧
    ([0#10, 1#10] : List Chunk).length < 3 ∧
    unpack5 0#10 16#10 128#10 772#10 = unpack5 0#10 16#10 128#10 772#10 := by decide

theorem witness_EncByteStoresAPendingByte :
    ((encOpen .V1 0#24).encSt = .active ∧ (encOpen .V1 0#24).encCnt = (0 : Fin 4).castSucc) ∧
    ({ encFour .V1 0#24 with encCnt := 3 } : State).encCnt = (3 : Fin 4).castSucc := by
  decide +kernel

theorem witness_EncByteEmitsAFullGroup :
    (encFour .V2 1#24).encSt = .active ∧ (encFour .V2 1#24).encCnt = 4 ∧
    (encFour .V2 1#24).encBuf = #v[some 0x00#8, some 0x01#8, some 0x02#8, some 0x03#8] := by decide +kernel

theorem witness_EmitSymCountsTheLine :
    (encOpen .V1 0#24).encWrap = 0#24 ∧
    ((encOpen .V1 1#24).encWrap ≠ 0#24 ∧ (encOpen .V1 1#24).encCol.toNat + 1 = (encOpen .V1 1#24).encWrap.toNat) ∧
    ((encOpen .V1 2#24).encWrap ≠ 0#24 ∧ (encOpen .V1 2#24).encCol.toNat + 1 ≠ (encOpen .V1 2#24).encWrap.toNat) ∧
    (encOpen .V1 2#24).encCol.toNat < (encOpen .V1 2#24).encWrap.toNat := by decide +kernel

theorem witness_EncEndFlushesTheGroup :
    (encOpen .V1 0#24).encBuf.toList.take (encOpen .V1 0#24).encCnt.val = ([] : List Byte).map some ∧
    (encFour .V2 5#24).encBuf.toList.take (encFour .V2 5#24).encCnt.val =
      [0x00#8, 0x01#8, 0x02#8, 0x03#8].map some ∧ (encFour .V2 5#24).encSt = .active := by decide +kernel

theorem witness_OutOfSequenceCommandsAreRejected :
    trom.encSt = .idle ∧ trom.decSt = .idle ∧ ({ trom with decSt := .done } : State).decSt = .done := by decide +kernel

theorem witness_EncoderCommandsFrame :
    (∃ t, exec (.encStart .V2 7#24) (encK .V1 0#24) = .next t) ∧
    ((encK .V1 0#24).encSt = .active ∧ (encK .V1 0#24).encCnt ≠ 4 ∧
      ∃ t, exec (.encByte 1#8) (encK .V1 0#24) = .next t) ∧
    ((encFour .V1 2#24).encCnt = 4 ∧ ∃ t, exec (.encByte 1#8) (encFour .V1 2#24) = .next t) ∧
    (∃ t, exec .encEnd (encFour .V1 2#24) = .next t) :=
  ⟨⟨_, rfl⟩, ⟨rfl, by decide +kernel, next_of_some (by decide +kernel)⟩, ⟨rfl, next_of_some (by decide +kernel)⟩,
   next_of_some (by decide +kernel)⟩

theorem witness_EncodeEmitsTheTabledCounts :
    (1#24 : WrapCount) ≠ 0#24 ∧ trom.cfg.finalLb = true ∧
    ({ tromConfig with finalLb := false } : Config).finalLb = false :=
  ⟨by decide, rfl, rfl⟩

theorem witness_WrappingIsCosmetic :
    (∃ t, runInstrs (encodeInstrs .V2 1#24 [0x6B#8]) trom = .next t) ∧
    (∃ t, runInstrs (encodeInstrs .V2 0#24 [0x6B#8]) trom = .next t) :=
  ⟨next_of_some (by decide +kernel), next_of_some (by decide +kernel)⟩

/-- A whole group followed by 0, 1, 3 or 4 bytes. -/
theorem witness_FinalGroupIsFramedByVariant : [0#8, 1#8, 2#8, 3#8, 4#8].length % 5 = 0 ∧
    (∃ t, runInstrs (encodeInstrs .V1 0#24 ([0#8, 1#8, 2#8, 3#8, 4#8] ++ [])) trom = .next t) ∧
    (∃ t, runInstrs (encodeInstrs .V1 1#24 ([] ++ [0x6B#8])) trom = .next t) ∧
    (∃ t, runInstrs (encodeInstrs .V2 0#24 ([] ++ [0#8, 1#8, 2#8])) trom = .next t) ∧
    (∃ t, runInstrs (encodeInstrs .V2 0#24 ([] ++ [0#8, 1#8, 2#8, 3#8])) trom = .next t) :=
  ⟨rfl, next_of_some (by decide +kernel), next_of_some (by decide +kernel),
   next_of_some (by decide +kernel), next_of_some (by decide +kernel)⟩

theorem witness_MessageHoldsOneVariant :
    ∃ t, runInstrs (encodeInstrs .V1 3#24 [0x6B#8]) trom = .next t :=
  next_of_some (by decide +kernel)

theorem witness_EncoderRaisesNoDataError :
    (Inv (encFour .V2 1#24) ∧ isEncoder (.encByte 0#8) = true) ∧
    (0x1 ≤ (0x11000000#32 : CmdWord).toNat / 2 ^ 28 ∧ decode 0x11000000#32 = .error .mbzBitSet) ∧
    ((0x30000001#32 : CmdWord).toNat / 2 ^ 28 ≤ 0x3 ∧ decode 0x30000001#32 = .error .mbzBitSet) ∧ trom.cmdErr = .none :=
  ⟨⟨encFour_inv, rfl⟩, by decide, by decide, rfl⟩

theorem witness_WhitespaceIsSkipped :
    decOpen.decSt = .active ∧ classify decOpen.cfg.toConfig 0x20#21 = .ws ∧ trom.cfg = decOpen.cfg :=
  ⟨rfl, by decide +kernel, rfl⟩

theorem witness_LockFollowsTheFirstVariant :
    (Inv decOpen ∧ decOpen.decSt = .active ∧
      classVariant (classify decOpen.cfg.toConfig 0x100400#21) = some .V2 ∧ decOpen.decLock = .unlocked) ∧
    ((decThree .V2).decLock = .locked .V2 ∧
      classVariant (classify (decThree .V2).cfg.toConfig 0x100800#21) = some .V1) ∧
    (classVariant (classify decOpen.cfg.toConfig 0x100808#21) = none ∧ ∃ t, exec (.decSym 0x100808#21) decOpen = .next t) ∧
    (∃ t, exec .decEnd (decThree .V1) = .next t) ∧ (∃ t, exec .decStart (decThree .V1) = .next t) :=
  ⟨⟨decOpen_inv, rfl, by decide +kernel, rfl⟩, ⟨rfl, by decide +kernel⟩,
   ⟨by decide +kernel, next_of_some (by decide +kernel)⟩, ⟨_, rfl⟩, ⟨_, rfl⟩⟩

theorem witness_GroupsCloseOnTheFirstOfThree :
    (decOpen.decAcc.toList.take decOpen.decCnt.val = ([] : List Chunk).map some ∧
      classify decOpen.cfg.toConfig 0x100808#21 = .pad ∧ classify decOpen.cfg.toConfig 0x1003FF#21 = .main .V1 1023#10 ∧
      decOpen.decLock = .unlocked ∧ decOpen.decCnt = (0 : Fin 3).castSucc) ∧
    ((decThree .V2).decAcc.toList.take (decThree .V2).decCnt.val = [0#10, 16#10, 128#10].map some ∧
      classify (decThree .V2).cfg.toConfig 0x100807#21 = .tail .V2 3#2 ∧
      classify (decThree .V2).cfg.toConfig 0x100400#21 = .main .V2 0#10 ∧ (decThree .V2).decLock = .locked .V2) ∧
    ({ decThree .V2 with decCnt := 2 } : State).decCnt = (2 : Fin 3).castSucc := by decide +kernel

theorem witness_FrameFaultsWaitForDecEnd :
    (decOpen.decSt = .active ∧ decOpen.decCnt.val < 3 ∧ classify decOpen.cfg.toConfig 0x100805#21 = .tail .V2 1#2 ∧
      decOpen.decLock = .unlocked ∧ decOpen.decPend = false ∧ decOpen.decCnt = 0) ∧
    ({ decThree .V2 with decCnt := 2, decPend := true } : State).decCnt.val < 3 ∧
    (decThree .V1).decCnt ≠ 0 ∧ (decThree .V1).decPend = false := by decide +kernel

theorem witness_DecodeErrorWritesThreeRegisters :
    decOpen.decSt ≠ .error ∧ sees State.decSt (exec (.decSym 0x41#21) decOpen) = some .error := by decide +kernel

theorem witness_CommandErrorIsStickyAndAlone :
    decode 0xA0000000#32 = .error .reservedOpcode ∧ trom.cmdErr = .none ∧
    ({ trom with cmdErr := .sequence } : State).cmdErr ≠ .none ∧
    (decode 0x30000000#32 = .ok .encEnd ∧ raisesSequence .encEnd = true ∧ trom.encSt = .idle) ∧
    (decode 0x60000000#32 = .ok .decEnd ∧ raisesSequence .decEnd = true ∧ isEncoder .decEnd = false ∧
      trom.decSt = .idle) := by decide +kernel

theorem witness_OneErrorByPriority :
    (decode 0x20000100#32 = .error .mbzBitSet ∧ trom.cmdErr = .none) ∧
    (raisesSequence (.encByte 0#8) = true ∧ isDecoder (.encByte 0#8) = false ∧ trom.encSt = .idle) ∧
    (decOpen.decSt = .active ∧ classify decOpen.cfg.toConfig 0x41#21 = .invalid) ∧
    (classVariant (classify (decThree .V1).cfg.toConfig 0x100804#21) = some .V2 ∧ (decThree .V1).decLock = .locked .V1) ∧
    (({ decThree .V1 with decPend := true } : State).decPend = true ∧ (decThree .V1).decCnt ≠ 0) ∧
    sees State.decErr (exec (.decSym 0x41#21) decOpen) = some .nonAlphabet ∧ decFailed.decSt = .error := by
  decide +kernel

theorem witness_DecodeErrorIsFatal : decFailed.decSt = .error ∧
    (∀ i ∈ [Instr.decSym 0#21, .encStart .V1 0#24, .decEnd], i ≠ .decStart) ∧
    ∃ t, runInstrs [.decSym 0#21, .encStart .V1 0#24, .decEnd] decFailed = .next t :=
  ⟨rfl, by simp, ⟨_, rfl⟩⟩

theorem witness_ErrorsLeaveOnlyByTheirExits :
    ((∃ t, exec .decEnd decFailed = .next t) ∧ decFailed.decSt = .error) ∧
    ((∃ t, exec .clrCmdErr { trom with cmdErr := .sequence } = .next t) ∧
      ({ trom with cmdErr := .sequence } : State).cmdErr ≠ .none) ∧
    (sees State.cmdErr (exec .decEnd trom) = some .sequence ∧ trom.cmdErr = .none) ∧
    sees State.decErr (exec (.decSym 0x41#21) decOpen) = some .nonAlphabet ∧ decOpen.decErr = .none :=
  ⟨⟨⟨_, rfl⟩, rfl⟩, ⟨⟨_, rfl⟩, by decide +kernel⟩, by decide +kernel, by decide +kernel, rfl⟩

theorem witness_DecoderCommandsFrame :
    (∃ t, exec .decStart decFailed = .next t) ∧
    (decOpen.decSt = .active ∧ ∃ t, exec (.decSym 0x100000#21) decOpen = .next t) ∧
    (∃ t, exec .decEnd decOpen = .next t) ∧ (∃ t, exec .clrCmdErr trom = .next t) ∧
    isDecoder .decStart = true :=
  ⟨⟨_, rfl⟩, ⟨rfl, next_of_some (by decide +kernel)⟩, ⟨_, rfl⟩, ⟨_, rfl⟩, rfl⟩

/-- A stream of one Main and one PAD, an empty stream, a lone Tail: none holds an invalid symbol or a mixed pair. -/
theorem witness_DecodeFollowsTheGroupGrammar :
    streamBytes [] ([0x1005AC#21, 0x100808#21].map (classify trom.cfg.toConfig)) = some [0x6B#8] ∧
    streamBytes [] ([0x100804#21].map (classify trom.cfg.toConfig)) = none ∧
    (¬ holdsInvalid trom.cfg.toConfig [0x1005AC#21, 0x100808#21] ∧ ¬ holdsMixed trom.cfg.toConfig [0x1005AC#21, 0x100808#21] ∧
      holdsVariant trom.cfg.toConfig .V2 [0x1005AC#21, 0x100808#21]) ∧
    (∀ v, ¬ holdsVariant trom.cfg.toConfig v []) := by
  have m : classify trom.cfg.toConfig 0x1005AC#21 = .main .V2 428#10 := by decide +kernel
  have p : classify trom.cfg.toConfig 0x100808#21 = .pad := by decide +kernel
  refine ⟨by decide +kernel, by decide +kernel, ?_, by simp [holdsVariant]⟩
  simp [holdsInvalid, holdsMixed, holdsVariant, m, p, classVariant]

/-- Two messages of one byte each: of one variant, and of two. -/
theorem witness_ConcatenatedMessagesDecodeTogether :
    (∃ t, runInstrs (encodeInstrs .V1 0#24 [0x6B#8]) trom = .next t ∧
      t.symOut = trom.symOut ++ [0x1001AC#21, 0x100808#21, 0x100808#21, 0x100808#21]) ∧
    (∃ t, runInstrs (encodeInstrs .V2 0#24 [0x6B#8]) trom = .next t ∧
      t.symOut = trom.symOut ++ [0x1005AC#21, 0x100808#21]) ∧ [0x6B#8] ≠ [] := by
  have h1 : sees State.symOut (runInstrs (encodeInstrs .V1 0#24 [0x6B#8]) trom) =
    some [0x1001AC#21, 0x100808#21, 0x100808#21, 0x100808#21] := by decide +kernel
  have h2 : sees State.symOut (runInstrs (encodeInstrs .V2 0#24 [0x6B#8]) trom) =
    some [0x1005AC#21, 0x100808#21] := by decide +kernel
  refine ⟨?_, ?_, by simp⟩
  · obtain ⟨t, ht⟩ := next_of_some (r := runInstrs (encodeInstrs .V1 0#24 [0x6B#8]) trom) (by decide +kernel)
    rw [ht] at h1
    exact ⟨t, ht, by simpa [sees, nextOf, trom, State.resetWith] using h1⟩
  · obtain ⟨t, ht⟩ := next_of_some (r := runInstrs (encodeInstrs .V2 0#24 [0x6B#8]) trom) (by decide +kernel)
    rw [ht] at h2
    exact ⟨t, ht, by simpa [sees, nextOf, trom, State.resetWith] using h2⟩

/-- A mixed pair alone, an invalid symbol alone, and the first offending symbol after a clean prefix. -/
theorem witness_OffendingStreamsAreRejected :
    (holdsMixed trom.cfg.toConfig [0x100000#21, 0x100400#21] ∧ ¬ holdsInvalid trom.cfg.toConfig [0x100000#21, 0x100400#21]) ∧
    (holdsInvalid trom.cfg.toConfig [0x41#21] ∧ ¬ holdsMixed trom.cfg.toConfig [0x41#21]) ∧
    (¬ holdsInvalid trom.cfg.toConfig [0x100000#21] ∧ ¬ holdsMixed trom.cfg.toConfig [0x100000#21] ∧
      classify trom.cfg.toConfig 0x100400#21 ≠ .invalid ∧ holdsMixed trom.cfg.toConfig ([0x100000#21] ++ [0x100400#21])) ∧
    classify trom.cfg.toConfig 0x41#21 = .invalid := by
  have m1 : classify trom.cfg.toConfig 0x100000#21 = .main .V1 0#10 := by decide +kernel
  have m2 : classify trom.cfg.toConfig 0x100400#21 = .main .V2 0#10 := by decide +kernel
  have x : classify trom.cfg.toConfig 0x41#21 = .invalid := by decide +kernel
  simp [holdsInvalid, holdsMixed, holdsVariant, m1, m2, x, classVariant]

theorem witness_PaddingBitsAreDiscarded :
    (([] : List Chunk).length < 3 ∧ (428#10 : Chunk).toNat / 4 ^ 1 = (431#10 : Chunk).toNat / 4 ^ 1) ∧
    (([0#10, 16#10] : List Chunk).length < 3 ∧ (128#10 : Chunk).toNat / 4 ^ 3 = (191#10 : Chunk).toNat / 4 ^ 3) :=
  ⟨by decide, by decide⟩

theorem witness_ClrCmdErrClearsTheRecord : decode 0xF0000000#32 = .error .reservedOpcode := by decide

theorem witness_ResetMeetsTheInvariants :
    MeetsR98 tromConfig ∧ ¬ MeetsR98 { tromConfig with wsSet := [], wsUnicode := by simp } :=
  ⟨tromConfig_admitted.meets, fun h => by simpa using h.lineBreakIsWhitespace⟩

theorem witness_StepKeepsTheInvariants : Inv trom ∧ Inv decOpen ∧ Inv (encFour .V2 1#24) :=
  ⟨trom_inv, decOpen_inv, encFour_inv⟩

theorem witness_StepKeepsTheErrorRecords : Inv trom ∧ ErrorRecords trom ∧ ∃ t, step trom = .next t :=
  ⟨trom_inv, trom_records, ⟨_, rfl⟩⟩

theorem witness_UnitsShareNoState :
    (isEncoder .encEnd = true ∧ ∃ t, exec .encEnd (encOpen .V1 0#24) = .next t) ∧
    (isDecoder .decStart = true ∧ ∃ t, exec .decStart trom = .next t) ∧
    sameEncoder (encOpen .V1 0#24) { encOpen .V1 0#24 with decSt := .done } ∧
    sameDecoder trom (encOpen .V1 0#24) ∧ (∃ t, exec .mapPad trom = .next t) :=
  ⟨⟨rfl, next_of_some (by decide +kernel)⟩, ⟨rfl, ⟨_, rfl⟩⟩, ⟨rfl, rfl, rfl, rfl, rfl, rfl, rfl, rfl⟩,
   ⟨rfl, rfl, rfl, rfl, rfl, rfl, rfl, rfl, rfl, rfl⟩, ⟨_, execMapPad_eq trom⟩⟩

theorem witness_UnitsInterleaveFreely : Inv trom := trom_inv

theorem witness_OnlyTheListedStateSteersCommands :
    sameControl decOpen { decOpen with cmdErr := .sequence, mapResult := 1#32, symOut := [0#21] } ∧
    ∃ t, exec (.decSym 0x100000#21) decOpen = .next t :=
  ⟨⟨rfl, rfl, rfl, rfl, rfl, rfl, rfl, rfl, rfl, rfl, rfl, rfl, rfl⟩, next_of_some (by decide +kernel)⟩

end Sys2Proof.Tests
end

section
/-! SUPPORT. The fields of `STATUS` (10_state.md R49), each by the code of its register. -/

namespace Sys2Proof.Machine

/-- `w` is laid out as R49 lists it, every field in the code of its register in `s`. -/
structure StatusFields (s : State) (w : BitVec 32) : Prop where
  encSt : w.extractLsb' 0 1 = encStCode s.encSt
  encCnt : w.extractLsb' 1 3 = encCntCode s.encCnt
  encVar : w.extractLsb' 4 1 = variantBit s.encVar
  zeroAt5 : w.extractLsb' 5 3 = 0#3
  decSt : w.extractLsb' 8 2 = decStCode s.decSt
  decLock : w.extractLsb' 10 2 = lockCode s.decLock
  decCnt : w.extractLsb' 12 2 = decCntCode s.decCnt
  decPend : w.extractLsb' 14 1 = BitVec.ofBool s.decPend
  zeroAt15 : w.extractLsb' 15 1 = 0#1
  decErr : w.extractLsb' 16 3 = decErrCode s.decErr
  zeroAt19 : w.extractLsb' 19 5 = 0#5
  cmdErr : w.extractLsb' 24 3 = cmdErrCode s.cmdErr
  zeroAt27 : w.extractLsb' 27 5 = 0#5

/-- The concatenation R49 writes out, as a number: each code at the weight of its lowest bit. -/
theorem statusWord_toNat (s : State) :
    (statusWord s).toNat =
      (encStCode s.encSt).toNat + (encCntCode s.encCnt).toNat * 2 ^ 1 + (variantBit s.encVar).toNat * 2 ^ 4 +
      (decStCode s.decSt).toNat * 2 ^ 8 + (lockCode s.decLock).toNat * 2 ^ 10 +
      (decCntCode s.decCnt).toNat * 2 ^ 12 + (BitVec.ofBool s.decPend).toNat * 2 ^ 14 +
      (decErrCode s.decErr).toNat * 2 ^ 16 + (cmdErrCode s.cmdErr).toNat * 2 ^ 24 := by
  simp only [statusWord, append_toNat, BitVec.toNat_ofNat]
  omega

/-- Every code is below the weight of its field, so each field holds its code and the gaps hold zeros. -/
theorem statusWord_fields (s : State) : StatusFields s (statusWord s) := by
  have hw := statusWord_toNat s
  have := (encStCode s.encSt).isLt
  have := (encCntCode s.encCnt).isLt
  have := (variantBit s.encVar).isLt
  have := (decStCode s.decSt).isLt
  have := (lockCode s.decLock).isLt
  have := (decCntCode s.decCnt).isLt
  have := (BitVec.ofBool s.decPend).isLt
  have := (decErrCode s.decErr).isLt
  have := (cmdErrCode s.cmdErr).isLt
  constructor <;> apply BitVec.eq_of_toNat_eq <;>
    simp only [BitVec.extractLsb'_toNat, Nat.shiftRight_eq_div_pow, BitVec.toNat_ofNat] <;> omega

@[simp] theorem encCntCode_toNat (n : Fin 5) : (encCntCode n).toNat = n.val := by
  have := n.isLt
  simp only [encCntCode, BitVec.toNat_ofNat]
  omega

@[simp] theorem decCntCode_toNat (n : Fin 4) : (decCntCode n).toNat = n.val := by
  have := n.isLt
  simp only [decCntCode, BitVec.toNat_ofNat]
  omega

theorem statusWord_resetWith (c : AdmittedConfig) : statusWord (State.resetWith c) = 0x00000000#32 := by
  apply BitVec.eq_of_toNat_eq
  simp [statusWord_toNat, encStCode, variantBit, decStCode, lockCode, decErrCode, cmdErrCode]

theorem lockCode_ne_three (l : Lock) : lockCode l ≠ 3#2 := by
  rcases l with _ | _ | _ <;> decide

theorem decErrCode_le (e : DecErr) : (decErrCode e).toNat ≤ 4 := by
  cases e <;> decide

theorem cmdErrCode_le (e : CmdErr) : (cmdErrCode e).toNat ≤ 2 := by
  cases e <;> decide

/-- Bit 14 as a Boolean. -/
theorem StatusFields.decPend_getLsbD {s : State} {w : BitVec 32} (h : StatusFields s w) :
    w.getLsbD 14 = s.decPend := by
  rw [BitVec.getLsbD_eq_extractLsb', h.decPend]
  cases s.decPend <;> rfl

/-- Settles O11: each field of the concatenation by `statusWord_fields`; at reset every code is 0. -/
theorem statusWordHoldsTheFields : Obligations.StatusWordHoldsTheFields := by
  refine ⟨fun s => ?_, statusWord_resetWith⟩
  have h := statusWord_fields s
  exact ⟨h.encSt, by rw [h.encCnt, encCntCode_toNat], h.encVar, h.zeroAt5, h.decSt, h.decLock,
    by rw [h.decCnt, decCntCode_toNat], h.decPend_getLsbD, h.zeroAt15, h.decErr, h.zeroAt19, h.cmdErr, h.zeroAt27⟩

end Sys2Proof.Machine
end

section
/-! SUPPORT. One equation for each path of `enc.byte`, `enc.end`, `dec.sym` and `dec.end`: the converses of the case
lemmas of Laws/Exec.lean. -/

namespace Sys2Proof.Machine

theorem exec_encByte_idle {s : State} (b : Byte) (hi : s.encSt = .idle) :
    exec (.encByte b) s = .next (sequenceError (.encByte b) s) := by
  simp [exec, execEncByte, hi]

theorem exec_encByte_pending {s : State} (b : Byte) (ha : s.encSt = .active) (h4 : s.encCnt.val < 4) :
    exec (.encByte b) s = .next (pushEncByte b s) := by
  simp [exec, execEncByte, ha, h4]

theorem exec_encByte_full {s : State} {b0 b1 b2 b3 : Byte} (b : Byte) (ha : s.encSt = .active)
    (hp : encPending s = some [b0, b1, b2, b3]) :
    exec (.encByte b) s =
      .next (endEncGroup (emitAll (fullGroupSymbols s.cfg.alphabet s.encVar b0 b1 b2 b3 b) s)) := by
  have h4 : 4 = s.encCnt.val := encPending_length hp
  simp [exec, execEncByte, ha, ← h4, closeEncGroup_eq b hp]

theorem exec_encEnd_idle {s : State} (hi : s.encSt = .idle) : exec .encEnd s = .next (sequenceError .encEnd s) := by
  simp [exec, execEncEnd, hi]

theorem exec_encEnd_active {s : State} {bs : List Byte} (ha : s.encSt = .active) (hp : encPending s = some bs) :
    exec .encEnd s = .next (closeMessage (emitAll (finalGroupSymbols s.cfg.alphabet s.encVar bs) s)) :=
  execEncEnd_eq ha hp

theorem exec_decEnd_error {s : State} (he : s.decSt = .error) : exec .decEnd s = .next s := by
  simp [exec, execDecEnd, he]

theorem exec_decEnd_closed {s : State} (hc : s.decSt = .idle ∨ s.decSt = .done) :
    exec .decEnd s = .next (sequenceError .decEnd s) := by
  rcases hc with h | h <;> simp [exec, execDecEnd, h]

theorem exec_decEnd_active {s : State} (ha : s.decSt = .active) : exec .decEnd s = .next (endStream s) := by
  simp [exec, execDecEnd, ha]

theorem exec_decSym_active {s : State} (cp : CodePoint) (ha : s.decSt = .active) :
    exec (.decSym cp) s = takeSymbol cp s := by
  simp [exec, execDecSym, ha]

theorem takeSymbol_main {cp : CodePoint} {v : Variant} {i : Chunk} {s : State}
    (cl : classify s.cfg.toConfig cp = .main v i) (lock : Admits s v) : takeSymbol cp s = takeMain v i s := by
  simp [takeSymbol, cl, lockRejects_eq_false.2 lock]

theorem takeSymbol_tail {cp : CodePoint} {v : Variant} {t : TailIdx} {s : State}
    (cl : classify s.cfg.toConfig cp = .tail v t) (lock : Admits s v) : takeSymbol cp s = takeTail v t cp s := by
  simp [takeSymbol, cl, lockRejects_eq_false.2 lock]

/-- A discriminating symbol of the other variant than the lock's is a decode error, Main or Tail (R134). -/
theorem takeSymbol_mixed {cp : CodePoint} {v v' : Variant} {s : State}
    (cl : classVariant (classify s.cfg.toConfig cp) = some v) (lock : s.decLock = .locked v') (ne : v' ≠ v) :
    takeSymbol cp s = .next (decError .mixedVersions cp s) := by
  have rejects : lockRejects s.decLock v = true := lockRejects_eq_true.2 ⟨v', lock, ne⟩
  cases hc : classify s.cfg.toConfig cp <;> rw [hc] at cl <;> cases cl <;> simp [takeSymbol, hc, rejects]

/-- The converse of `decSym_cases`: every path of `SymStep` is taken. -/
theorem SymStep.exec_eq {cp : CodePoint} {s t : State} (h : SymStep cp s t) : exec (.decSym cp) s = .next t := by
  cases h with
  | ignored st => simp [exec, execDecSym, st]
  | sequence st => rcases st with st | st <;> simp [exec, execDecSym, st]
  | ws st cl => rw [exec_decSym_active cp st]; simp [takeSymbol, cl]
  | invalid st cl => rw [exec_decSym_active cp st]; simp [takeSymbol, cl]
  | mixed v v' st cl lock ne => rw [exec_decSym_active cp st, takeSymbol_mixed cl lock ne]
  | pad cs st cl acc => rw [exec_decSym_active cp st]; simp [takeSymbol, cl, takePad, acc, emitBytes]
  | main v i st cl lock cnt => rw [exec_decSym_active cp st, takeSymbol_main cl lock]; simp [takeMain, cnt]
  | fourthMain v i c0 c1 c2 st cl lock cnt acc =>
    rw [exec_decSym_active cp st, takeSymbol_main cl lock]
    have acc' : decPending { s with decLock := .locked v } = some [c0, c1, c2] := acc
    simp [takeMain, cnt, closeDecGroup, acc', emitBytes]
  | tail v t c0 c1 c2 st cl lock cnt acc =>
    rw [exec_decSym_active cp st, takeSymbol_tail cl lock]
    have acc' : decPending { s with decLock := .locked v } = some [c0, c1, c2] := acc
    simp [takeTail, cnt, closeTailGroup, acc', emitBytes]
  | early v t st cl lock cnt =>
    rw [exec_decSym_active cp st, takeSymbol_tail cl lock]
    have cnt' : s.decCnt.val ≠ 3 := by omega
    simp [takeTail, cnt']

/-- A mapper command (40_alphabet_mapper.md R104 to R108). -/
def IsMapper (i : Instr) : Prop :=
  (∃ v j, i = .mapMain v j) ∨ (∃ v t, i = .mapTail v t) ∨ i = .mapPad ∨ ∃ cp, i = .mapRev cp

/-- A command is the encoder's, the decoder's, the mapper's or `clr.cmderr`. -/
theorem instr_cases (i : Instr) :
    isEncoder i = true ∨ isDecoder i = true ∨ IsMapper i ∨ i = .clrCmdErr := by
  cases i <;> simp [isEncoder, isDecoder, IsMapper]

/-- A mapper command completes in every state, and writes a word to `MAP_RESULT` that only the configuration fixes
(R104 to R109). -/
theorem exec_mapper {i : Instr} (hm : IsMapper i) :
    ∃ word : AdmittedConfig → BitVec 32, ∀ s, exec i s = .next { s with mapResult := word s.cfg } := by
  rcases hm with ⟨v, j, rfl⟩ | ⟨v, t, rfl⟩ | rfl | ⟨cp, rfl⟩
  · exact ⟨fun c => (c.alphabet.main v j).zeroExtend 32, execMapMain_eq v j⟩
  · exact ⟨fun c => (c.alphabet.tail v t).zeroExtend 32, execMapTail_eq v t⟩
  · exact ⟨fun c => c.alphabet.pad.zeroExtend 32, execMapPad_eq⟩
  · exact ⟨fun c => revWord (classify c.toConfig cp), fun _ => rfl⟩

end Sys2Proof.Machine
end

section
/-! SUPPORT. The invariants of 10_state.md R50 are kept: one lemma for each update of the state, then one for each command
and host action, which also completes. -/

namespace Sys2Proof.Machine

theorem Inv.cmdError {s : State} (h : Inv s) (code : CmdErr) (w : CmdWord) : Inv (cmdError code w s) := by
  rw [cmdError_frame]
  exact { h with }

/-! ## Encoder updates -/

theorem wrapCount_pos {w : WrapCount} (h : w ≠ 0#24) : 0 < w.toNat := by
  bv_omega

theorem Inv.encStart {s : State} (h : Inv s) (v : Variant) (wrap : WrapCount) :
    Inv { s with encSt := .active, encVar := v, encWrap := wrap, encCol := 0#24, encCnt := 0 } :=
  { h with
    colBelowWrap := wrapCount_pos
    colZeroUnwrapped := fun _ => rfl
    encIdle := nofun
    encBufWritten := nofun }

theorem Inv.pushEncByte {s : State} (h : Inv s) (ha : s.encSt = .active) (h4 : s.encCnt.val < 4) (b : Byte) :
    Inv (pushEncByte b s) :=
  { h with
    encIdle := fun hi => by simp [ha] at hi
    encBufWritten := fun j hj hc => by
      have hv : (s.encCnt + 1 : Fin 5).val = s.encCnt.val + 1 := by
        rw [Fin.val_add]
        simp
        omega
      simp only [pushEncByte_encCnt, hv] at hc
      rw [pushEncByte_encBuf, Vector.getElem_setIfInBounds]
      split
      · rfl
      · exact h.encBufWritten j hj (by omega) }

/-- Emission moves the column within the line (R122), and the host has not drained what it appends. -/
theorem Inv.emitSym {s : State} (h : Inv s) (ha : s.encSt = .active) (cp : CodePoint) : Inv (emitSym cp s) := by
  have drained : s.symDrained ≤ (s.symOut ++ [cp]).length := by
    have := h.symDrainedBelow
    simp
    omega
  unfold Machine.emitSym wrapAccount
  split_ifs with hw hb
  · exact { h with symDrainedBelow := drained }
  · exact { h with
      colBelowWrap := wrapCount_pos
      colZeroUnwrapped := fun _ => rfl
      encIdle := fun hi => by simp [ha] at hi
      symDrainedBelow := by simpa using Nat.le_succ_of_le drained }
  · exact { h with
      colBelowWrap := fun hw' => by
        have := h.colBelowWrap hw'
        simp at *
        bv_omega
      colZeroUnwrapped := fun hw' => absurd hw' hw
      encIdle := fun hi => by simp [ha] at hi
      symDrainedBelow := drained }

@[simp] theorem emitSym_encSt (cp : CodePoint) (s : State) : (emitSym cp s).encSt = s.encSt := by rw [emitSym_frame]

theorem Inv.emitAll {s : State} (h : Inv s) (ha : s.encSt = .active) (cps : List CodePoint) :
    Inv (emitAll cps s) := by
  induction cps generalizing s with
  | nil => exact h
  | cons cp cps ih => exact ih (h.emitSym ha cp) (by simpa using ha)

theorem Inv.endEncGroup {s : State} (h : Inv s) : Inv (endEncGroup s) :=
  { h with
    encIdle := fun hi => ⟨rfl, (h.encIdle hi).2⟩
    encBufWritten := nofun }

theorem closeMessage_symOut_length (s : State) : s.symOut.length ≤ (closeMessage s).symOut.length := by
  unfold closeMessage finalLineBreak
  split_ifs <;> simp

theorem Inv.closeMessage {s : State} (h : Inv s) : Inv (closeMessage s) := by
  have drained := h.symDrainedBelow.trans (closeMessage_symOut_length s)
  rw [closeMessage_frame]
  exact { h with
    colBelowWrap := wrapCount_pos
    colZeroUnwrapped := fun _ => rfl
    encIdle := fun _ => ⟨rfl, rfl⟩
    encBufWritten := nofun
    symDrainedBelow := drained }

/-! ## Decoder updates -/

theorem Inv.decStart {s : State} (h : Inv s) :
    Inv { s with decSt := .active, decLock := .unlocked, decCnt := 0, decErr := .none, decErrCp := 0#21,
                 decPend := false, decPendCp := 0#21 } :=
  { h with
    errIffError := by simp
    decDone := nofun
    decIdle := nofun
    pendLocked := nofun
    pendCpZero := fun _ => rfl
    decAccWritten := nofun }

/-- A decode error is recorded together with the state `ERROR` (R154). -/
theorem Inv.decError {s : State} (h : Inv s) {code : DecErr} (hc : code ≠ .none) (cp : CodePoint) :
    Inv (decError code cp s) :=
  { h with
    errIffError := iff_of_true hc rfl
    decDone := nofun
    decIdle := nofun }

theorem Inv.lock {s : State} (h : Inv s) (ha : s.decSt = .active) (v : Variant) :
    Inv { s with decLock := .locked v } :=
  { h with
    decIdle := fun hi => by simp [ha] at hi
    pendLocked := nofun }

theorem Inv.pushDecChunk {s : State} (h : Inv s) (ha : s.decSt = .active) (h3 : s.decCnt.val < 3) (i : Chunk) :
    Inv (pushDecChunk i s) :=
  { h with
    decDone := fun hd => by simp [ha] at hd
    decIdle := fun hi => by simp [ha] at hi
    decAccWritten := fun j hj hc => by
      have hv : (s.decCnt + 1 : Fin 4).val = s.decCnt.val + 1 := by
        rw [Fin.val_add]
        simp
        omega
      simp only [pushDecChunk_decCnt, hv] at hc
      rw [pushDecChunk_decAcc, Vector.getElem_setIfInBounds]
      split
      · rfl
      · exact h.decAccWritten j hj (by omega) }

/-- A group closes with its bytes (R133, R135). -/
theorem Inv.closeDecGroup {s : State} (h : Inv s) (bs : List Byte) :
    Inv { s with byteOut := s.byteOut ++ bs, decCnt := 0 } :=
  { h with
    decDone := fun hd => ⟨rfl, (h.decDone hd).2⟩
    decIdle := fun hi => ⟨rfl, (h.decIdle hi).2⟩
    decAccWritten := nofun
    byteDrainedBelow := by
      have := h.byteDrainedBelow
      simp
      omega }

/-- The first early Tail of a stream is pending from then on, and the lock is set with it (R136). -/
theorem Inv.earlyTail {s : State} (h : Inv s) (ha : s.decSt = .active) (hl : s.decLock ≠ .unlocked)
    (cp : CodePoint) : Inv (earlyTail cp s) := by
  unfold Machine.earlyTail
  split
  · exact { h with
      decDone := fun hd => by simp [ha] at hd
      decIdle := fun hi => by simp [ha] at hi
      decAccWritten := nofun }
  · exact { h with
      decDone := fun hd => by simp [ha] at hd
      decIdle := fun hi => by simp [ha] at hi
      pendLocked := fun _ => hl
      pendCpZero := nofun
      decAccWritten := nofun }

/-- `DONE` is entered with no pending frame fault and no open group only (R140). -/
theorem Inv.endStream {s : State} (h : Inv s) (ha : s.decSt = .active) : Inv (endStream s) := by
  unfold Machine.endStream
  split_ifs with hp hc
  · exact h.decError (by decide) _
  · exact h.decError (by decide) _
  · exact { h with
      errIffError := by simpa [ha] using h.errIffError
      decDone := fun _ => ⟨by simpa using hc, by simpa using hp⟩
      decIdle := nofun }

theorem SymStep.inv {cp : CodePoint} {s t : State} (step : SymStep cp s t) (h : Inv s) : Inv t := by
  cases step with
  | ignored st => exact h
  | sequence st => exact h.cmdError _ _
  | ws st cl => exact h
  | invalid st cl => exact h.decError (by decide) cp
  | mixed v v' st cl lock ne => exact h.decError (by decide) cp
  | pad cs st cl acc => exact h.closeDecGroup _
  | main v i st cl lock cnt => exact (h.lock st v).pushDecChunk st cnt i
  | fourthMain v i c0 c1 c2 st cl lock cnt acc => exact (h.lock st v).closeDecGroup _
  | tail v t c0 c1 c2 st cl lock cnt acc => exact (h.lock st v).closeDecGroup _
  | early v t st cl lock cnt => exact (h.lock st v).earlyTail st nofun cp

/-! ## Commands -/

/-- `r` is a next state, and it meets the invariants. -/
def CompletesWithInv (r : Result) : Prop := ∃ t, r = .next t ∧ Inv t

theorem Inv.exec_encByte_completes {s : State} (h : Inv s) (b : Byte) : CompletesWithInv (exec (.encByte b) s) := by
  cases hs : s.encSt with
  | idle => exact ⟨_, exec_encByte_idle b hs, h.cmdError _ _⟩
  | active =>
    by_cases h4 : s.encCnt.val < 4
    · exact ⟨_, exec_encByte_pending b hs h4, h.pushEncByte hs h4 b⟩
    · obtain ⟨bs, hp⟩ := encPending_of_inv h
      obtain ⟨b0, b1, b2, b3, rfl⟩ := length_four (l := bs) (by rw [encPending_length hp]; omega)
      exact ⟨_, exec_encByte_full b hs hp, (h.emitAll hs _).endEncGroup⟩

theorem Inv.exec_encEnd_completes {s : State} (h : Inv s) : CompletesWithInv (exec .encEnd s) := by
  cases hs : s.encSt with
  | idle => exact ⟨_, exec_encEnd_idle hs, h.cmdError _ _⟩
  | active =>
    obtain ⟨bs, hp⟩ := encPending_of_inv h
    exact ⟨_, exec_encEnd_active hs hp, (h.emitAll hs _).closeMessage⟩

theorem admits_or_locked (s : State) (v : Variant) : Admits s v ∨ ∃ v', s.decLock = .locked v' ∧ v' ≠ v := by
  cases h : lockRejects s.decLock v with
  | false => exact .inl (lockRejects_eq_false.1 h)
  | true => exact .inr (lockRejects_eq_true.1 h)

/-- A symbol of an open stream takes one of the paths of `SymStep`: the chunks it reads are written. -/
theorem Inv.symStep_active {s : State} (h : Inv s) (ha : s.decSt = .active) (cp : CodePoint) :
    ∃ t, SymStep cp s t := by
  obtain ⟨cs, acc⟩ := decPending_of_inv h
  have threeChunks (h3 : ¬ s.decCnt.val < 3) : ∃ c0 c1 c2, decPending s = some [c0, c1, c2] := by
    obtain ⟨c0, c1, c2, rfl⟩ := length_three (l := cs) (by rw [decPending_length acc]; omega)
    exact ⟨c0, c1, c2, acc⟩
  cases cl : classify s.cfg.toConfig cp with
  | ws => exact ⟨_, .ws ha cl⟩
  | invalid => exact ⟨_, .invalid ha cl⟩
  | pad => exact ⟨_, .pad cs ha cl acc⟩
  | main v i =>
    obtain lock | ⟨v', lock, ne⟩ := admits_or_locked s v
    · by_cases h3 : s.decCnt.val < 3
      · exact ⟨_, .main v i ha cl lock h3⟩
      · obtain ⟨c0, c1, c2, acc⟩ := threeChunks h3
        exact ⟨_, .fourthMain v i c0 c1 c2 ha cl lock (by omega) acc⟩
    · exact ⟨_, .mixed v v' ha (by rw [cl]; rfl) lock ne⟩
  | tail v t =>
    obtain lock | ⟨v', lock, ne⟩ := admits_or_locked s v
    · by_cases h3 : s.decCnt.val < 3
      · exact ⟨_, .early v t ha cl lock h3⟩
      · obtain ⟨c0, c1, c2, acc⟩ := threeChunks h3
        exact ⟨_, .tail v t c0 c1 c2 ha cl lock (by omega) acc⟩
    · exact ⟨_, .mixed v v' ha (by rw [cl]; rfl) lock ne⟩

theorem Inv.exec_decSym_completes {s : State} (h : Inv s) (cp : CodePoint) :
    CompletesWithInv (exec (.decSym cp) s) := by
  have : ∃ t, SymStep cp s t := by
    cases hs : s.decSt with
    | error => exact ⟨_, .ignored hs⟩
    | idle => exact ⟨_, .sequence (.inl hs)⟩
    | done => exact ⟨_, .sequence (.inr hs)⟩
    | active => exact h.symStep_active hs cp
  obtain ⟨t, step⟩ := this
  exact ⟨t, step.exec_eq, step.inv h⟩

theorem Inv.exec_decEnd_completes {s : State} (h : Inv s) : CompletesWithInv (exec .decEnd s) := by
  cases hs : s.decSt with
  | error => exact ⟨_, exec_decEnd_error hs, h⟩
  | idle => exact ⟨_, exec_decEnd_closed (.inl hs), h.cmdError _ _⟩
  | done => exact ⟨_, exec_decEnd_closed (.inr hs), h.cmdError _ _⟩
  | active => exact ⟨_, exec_decEnd_active hs, h.endStream hs⟩

theorem Inv.exec_mapper_completes {s : State} (h : Inv s) {i : Instr} (hm : IsMapper i) :
    CompletesWithInv (exec i s) := by
  obtain ⟨word, hw⟩ := exec_mapper hm
  exact ⟨_, hw s, { h with }⟩

/-- Where the invariants hold every command completes, and they hold after it. -/
theorem Inv.exec_completes {s : State} (h : Inv s) (i : Instr) : CompletesWithInv (exec i s) := by
  cases i with
  | encStart v wrap => exact ⟨_, rfl, h.encStart v wrap⟩
  | encByte b => exact h.exec_encByte_completes b
  | encEnd => exact h.exec_encEnd_completes
  | decStart => exact ⟨_, rfl, h.decStart⟩
  | decSym cp => exact h.exec_decSym_completes cp
  | decEnd => exact h.exec_decEnd_completes
  | mapMain v j => exact h.exec_mapper_completes (.inl ⟨v, j, rfl⟩)
  | mapTail v t => exact h.exec_mapper_completes (.inr (.inl ⟨v, t, rfl⟩))
  | mapPad => exact h.exec_mapper_completes (.inr (.inr (.inl rfl)))
  | mapRev cp => exact h.exec_mapper_completes (.inr (.inr (.inr ⟨cp, rfl⟩)))
  | clrCmdErr => exact ⟨_, rfl, { h with }⟩

/-! ## Host actions -/

theorem resetWith_inv (c : AdmittedConfig) : Inv (State.resetWith c) := by
  constructor <;> simp

theorem resetEvent_inv (s : State) : Inv (resetEvent s) :=
  { resetWith_inv s.cfg with }

theorem Inv.drainSymbol {s : State} (h : Inv s) : Inv (drainSymbol s) := by
  cases hc : s.symOut[s.symDrained]? with
  | none => rwa [drainSymbol_empty (List.getElem?_eq_none_iff.1 hc)]
  | some cp =>
    rw [drainSymbol_unread hc]
    exact { h with symDrainedBelow := (List.getElem?_eq_some_iff.1 hc).1 }

theorem Inv.drainOneByte {s : State} (h : Inv s) : Inv (drainOneByte s) := by
  cases hb : s.byteOut[s.byteDrained]? with
  | none => rwa [drainOneByte_empty (List.getElem?_eq_none_iff.1 hb)]
  | some b =>
    rw [drainOneByte_unread hb]
    exact { h with byteDrainedBelow := (List.getElem?_eq_some_iff.1 hb).1 }

theorem Inv.applyCommand_completes {s : State} (h : Inv s) (w : CmdWord) : CompletesWithInv (applyCommand w s) := by
  unfold applyCommand
  cases decode w with
  | ok i => exact h.exec_completes i
  | error e => exact ⟨_, rfl, h.cmdError _ _⟩

/-- Where the invariants hold every host action completes, and they hold after it. -/
theorem Inv.applyAction_completes {s : State} (h : Inv s) (a : HostAction) : CompletesWithInv (applyAction a s) := by
  cases a with
  | command w => exact h.applyCommand_completes w
  | read sel => exact ⟨_, rfl, { h with }⟩
  | drainSym => exact ⟨_, rfl, h.drainSymbol⟩
  | drainByte => exact ⟨_, rfl, h.drainOneByte⟩
  | reset => exact ⟨_, rfl, resetEvent_inv s⟩

/-- Settles O56, by induction on the run: `Inv` holds at reset (`resetWith_inv`) and every host action completes and
keeps it (`Inv.applyAction_completes`). The counts and codes are read through the fields of STATUS. -/
theorem everyReachableStateMeetsTheInvariants : Obligations.EveryReachableStateMeetsTheInvariants := by
  intro c acts
  have keeps : ∀ a ∈ acts, ∀ s, Inv s → CompletesWithInv (applyAction a s) :=
    fun a _ _ h => h.applyAction_completes a
  obtain ⟨t, run, inv⟩ := runActions_completes keeps (resetWith_inv c)
  have status : StatusFields t (readReg 0#4 t) := statusWord_fields t
  refine ⟨t, run, ?_, ?_, ?_, ?_, ?_, inv.colBelowWrap, inv.colZeroUnwrapped, inv.errIffError, inv.encIdle,
    fun hd => (inv.decDone hd).1, inv.decIdle, fun hd => (inv.decDone hd).2, inv.pendLocked, inv.pendCpZero⟩
  · rw [status.encCnt, encCntCode_toNat]
    omega
  · rw [status.decCnt, decCntCode_toNat]
    omega
  · rw [status.decLock]
    exact lockCode_ne_three _
  · rw [status.decErr]
    exact decErrCode_le _
  · rw [status.cmdErr]
    exact cmdErrCode_le _

end Sys2Proof.Machine
end

section
/-! SUPPORT. What a command leaves unchanged: an encoder command touches encoder registers, `SYM_OUT` and the command
error, a decoder command decoder registers, `BYTE_OUT` and the command error (10_state.md R51); and when the
command error is touched (60_exceptions.md R153, R155). -/

namespace Sys2Proof.Machine

/-- `t` is `s` but for the encoder registers, `SYM_OUT` and the command error. -/
abbrev EncoderFrame (s t : State) : Prop :=
  t = { s with encSt := t.encSt, encVar := t.encVar, encWrap := t.encWrap, encCol := t.encCol, encCnt := t.encCnt,
               encBuf := t.encBuf, symOut := t.symOut, cmdErr := t.cmdErr, cmdErrWord := t.cmdErrWord }

/-- `t` is `s` but for the decoder registers, `BYTE_OUT` and the command error. -/
abbrev DecoderFrame (s t : State) : Prop :=
  t = { s with decSt := t.decSt, decLock := t.decLock, decCnt := t.decCnt, decAcc := t.decAcc, decErr := t.decErr,
               decErrCp := t.decErrCp, decPend := t.decPend, decPendCp := t.decPendCp, byteOut := t.byteOut,
               cmdErr := t.cmdErr, cmdErrWord := t.cmdErrWord }

theorem sequenceError_encoderFrame (i : Instr) (s : State) : EncoderFrame s (sequenceError i s) := by
  rw [sequenceError_frame]

theorem sequenceError_decoderFrame (i : Instr) (s : State) : DecoderFrame s (sequenceError i s) := by
  rw [sequenceError_frame]

theorem emitAll_encoderFrame (cps : List CodePoint) (s : State) : EncoderFrame s (emitAll cps s) := by
  rw [emitAll_frame]

theorem endEncGroup_encoderFrame (s : State) : EncoderFrame s (endEncGroup s) := rfl

theorem closeMessage_encoderFrame (s : State) : EncoderFrame s (closeMessage s) := by
  rw [closeMessage_frame]

theorem EncoderFrame.trans {s t u : State} (h : EncoderFrame s t) (k : EncoderFrame t u) : EncoderFrame s u := by
  rw [h] at k
  exact k

theorem encoder_frame {i : Instr} {s t : State} (hi : isEncoder i = true) (he : exec i s = .next t) :
    EncoderFrame s t := by
  cases i with
  | encStart v wrap => cases he; rfl
  | encByte b =>
    obtain ⟨-, rfl⟩ | ⟨-, -, rfl⟩ | ⟨-, -, b0, b1, b2, b3, -, rfl⟩ := encByte_cases he
    · exact sequenceError_encoderFrame _ s
    · rfl
    · exact (emitAll_encoderFrame _ s).trans (endEncGroup_encoderFrame _)
  | encEnd =>
    obtain ⟨-, rfl⟩ | ⟨-, bs, -, rfl⟩ := encEnd_cases he
    · exact sequenceError_encoderFrame _ s
    · exact (emitAll_encoderFrame _ s).trans (closeMessage_encoderFrame _)
  | _ => cases hi

theorem earlyTail_decoderFrame (cp : CodePoint) (s : State) : DecoderFrame s (earlyTail cp s) := by
  unfold earlyTail
  split <;> rfl

theorem endStream_decoderFrame (s : State) : DecoderFrame s (endStream s) := by
  unfold endStream
  split_ifs <;> rfl

theorem SymStep.decoderFrame {cp : CodePoint} {s t : State} (step : SymStep cp s t) : DecoderFrame s t := by
  cases step with
  | sequence st => exact sequenceError_decoderFrame _ s
  | early v t st cl lock cnt => exact earlyTail_decoderFrame cp { s with decLock := .locked v }
  | _ => rfl

theorem decoder_frame {i : Instr} {s t : State} (hi : isDecoder i = true) (he : exec i s = .next t) :
    DecoderFrame s t := by
  cases i with
  | decStart => cases he; rfl
  | decSym cp => exact (decSym_cases he).decoderFrame
  | decEnd =>
    obtain ⟨-, rfl⟩ | ⟨-, rfl⟩ | ⟨-, rfl⟩ := decEnd_cases he
    · rfl
    · exact sequenceError_decoderFrame _ s
    · exact endStream_decoderFrame s
  | _ => cases hi

theorem mapper_frame {i : Instr} {s t : State} (hm : IsMapper i) (he : exec i s = .next t) :
    t = { s with mapResult := t.mapResult } := by
  obtain ⟨word, hw⟩ := exec_mapper hm
  cases (hw s).symm.trans he
  rfl

theorem EncoderFrame.sameDecoder {s t : State} (h : EncoderFrame s t) : sameDecoder s t := by
  rw [h]
  exact ⟨rfl, rfl, rfl, rfl, rfl, rfl, rfl, rfl, rfl, rfl⟩

theorem DecoderFrame.sameEncoder {s t : State} (h : DecoderFrame s t) : sameEncoder s t := by
  rw [h]
  exact ⟨rfl, rfl, rfl, rfl, rfl, rfl, rfl, rfl⟩

/-- `Step` rejects the command with `SEQUENCE` (R121, R123, R133, R140). -/
def Rejected (s : State) : Instr → Prop
  | .encByte _ => s.encSt = .idle
  | .encEnd => s.encSt = .idle
  | .decSym _ => s.decSt = .idle ∨ s.decSt = .done
  | .decEnd => s.decSt = .idle ∨ s.decSt = .done
  | .encStart _ _ => False
  | .decStart => False
  | .mapMain _ _ => False
  | .mapTail _ _ => False
  | .mapPad => False
  | .mapRev _ => False
  | .clrCmdErr => False

@[simp] theorem emitAll_cmdErr (cps : List CodePoint) (s : State) : (emitAll cps s).cmdErr = s.cmdErr := by
  rw [emitAll_frame]

@[simp] theorem emitAll_cmdErrWord (cps : List CodePoint) (s : State) :
    (emitAll cps s).cmdErrWord = s.cmdErrWord := by
  rw [emitAll_frame]

@[simp] theorem endEncGroup_cmdErr (s : State) : (endEncGroup s).cmdErr = s.cmdErr := rfl

@[simp] theorem endEncGroup_cmdErrWord (s : State) : (endEncGroup s).cmdErrWord = s.cmdErrWord := rfl

@[simp] theorem closeMessage_cmdErr (s : State) : (closeMessage s).cmdErr = s.cmdErr := by
  rw [closeMessage_frame]

@[simp] theorem closeMessage_cmdErrWord (s : State) : (closeMessage s).cmdErrWord = s.cmdErrWord := by
  rw [closeMessage_frame]

theorem exec_rejected {i : Instr} {s : State} (h : Rejected s i) : exec i s = .next (sequenceError i s) := by
  cases i with
  | encByte b => exact exec_encByte_idle b h
  | encEnd => exact exec_encEnd_idle h
  | decSym cp => exact (SymStep.sequence h).exec_eq
  | decEnd => exact exec_decEnd_closed h
  | _ => cases h

/-- A command that is not rejected leaves the command error as it is, but for `clr.cmderr`. -/
theorem exec_keeps_cmdErr {i : Instr} {s t : State} (hr : ¬ Rejected s i) (hc : i ≠ .clrCmdErr)
    (he : exec i s = .next t) : t.cmdErr = s.cmdErr ∧ t.cmdErrWord = s.cmdErrWord := by
  cases i with
  | encStart v wrap => cases he; exact ⟨rfl, rfl⟩
  | encByte b =>
    obtain ⟨hi, -⟩ | ⟨-, -, rfl⟩ | ⟨-, -, b0, b1, b2, b3, -, rfl⟩ := encByte_cases he
    · exact absurd hi hr
    · exact ⟨rfl, rfl⟩
    · exact ⟨(endEncGroup_cmdErr _).trans (emitAll_cmdErr _ s),
        (endEncGroup_cmdErrWord _).trans (emitAll_cmdErrWord _ s)⟩
  | encEnd =>
    obtain ⟨hi, -⟩ | ⟨-, bs, -, rfl⟩ := encEnd_cases he
    · exact absurd hi hr
    · exact ⟨(closeMessage_cmdErr _).trans (emitAll_cmdErr _ s),
        (closeMessage_cmdErrWord _).trans (emitAll_cmdErrWord _ s)⟩
  | decStart => cases he; exact ⟨rfl, rfl⟩
  | decSym cp =>
    cases decSym_cases he with
    | sequence st => exact absurd st hr
    | early v t st cl lock cnt => unfold earlyTail; split <;> exact ⟨rfl, rfl⟩
    | _ => exact ⟨rfl, rfl⟩
  | decEnd =>
    obtain ⟨-, rfl⟩ | ⟨hd, -⟩ | ⟨-, rfl⟩ := decEnd_cases he
    · exact ⟨rfl, rfl⟩
    · exact absurd hd hr
    · unfold endStream; split_ifs <;> exact ⟨rfl, rfl⟩
  | clrCmdErr => exact absurd rfl hc
  | _ =>
    rw [mapper_frame (by simp [IsMapper]) he]
    exact ⟨rfl, rfl⟩

end Sys2Proof.Machine
end

section
/-! SUPPORT. Two states that agree on the registers of R52 that one unit reads: a command of that unit takes both
alike (10_state.md R51, R52). -/

namespace Sys2Proof.Machine

/-! ## Encoder -/

/-- The two states agree on the configuration and on the encoder registers. -/
structure EncControl (s s' : State) : Prop where
  cfg : s.cfg = s'.cfg
  encSt : s.encSt = s'.encSt
  encVar : s.encVar = s'.encVar
  encWrap : s.encWrap = s'.encWrap
  encCol : s.encCol = s'.encCol
  encCnt : s.encCnt = s'.encCnt
  encBuf : s.encBuf = s'.encBuf

/-- From `s` to `t` and from `s'` to `t'` the encoder registers become the same, and `SYM_OUT` grows by the same
symbols. -/
structure EncAlike (s s' t t' : State) : Prop where
  control : EncControl t t'
  symOut : ∃ syms, t.symOut = s.symOut ++ syms ∧ t'.symOut = s'.symOut ++ syms

/-- An update that appends nothing to `SYM_OUT`. -/
theorem EncAlike.ofSilent {s s' t t' : State} (h : EncControl t t') (ho : t.symOut = s.symOut)
    (ho' : t'.symOut = s'.symOut) : EncAlike s s' t t' :=
  ⟨h, [], by simp [ho], by simp [ho']⟩

theorem EncAlike.trans {s s' t t' u u' : State} (h : EncAlike s s' t t') (k : EncAlike t t' u u') :
    EncAlike s s' u u' := by
  obtain ⟨-, l, hl, hl'⟩ := h
  obtain ⟨control, m, hm, hm'⟩ := k
  exact ⟨control, l ++ m, by rw [hm, hl, List.append_assoc], by rw [hm', hl', List.append_assoc]⟩

section
variable {s s' : State} (h : EncControl s s')
include h

theorem EncControl.encPending : encPending s = encPending s' := by
  simp only [Machine.encPending, h.encBuf, h.encCnt]

theorem EncControl.sequenceError (i : Instr) : EncAlike s s' (sequenceError i s) (sequenceError i s') := by
  rw [sequenceError_frame i s, sequenceError_frame i s']
  exact .ofSilent { h with } rfl rfl

theorem EncControl.pushEncByte (b : Byte) : EncAlike s s' (pushEncByte b s) (pushEncByte b s') :=
  .ofSilent { h with encCnt := by simp [h.encCnt], encBuf := by simp [h.encBuf, h.encCnt] } rfl rfl

theorem EncControl.emitRaw (cp : CodePoint) : EncAlike s s' (emitRaw cp s) (emitRaw cp s') :=
  ⟨{ h with }, [cp], rfl, rfl⟩

/-- The wrap accounting reads `ENC_WRAP`, `ENC_COL` and the line break only (R122). -/
theorem EncControl.wrapAccount : EncAlike s s' (wrapAccount s) (wrapAccount s') := by
  unfold Machine.wrapAccount
  rw [← h.encWrap, ← h.encCol, ← h.cfg]
  split_ifs
  · exact .ofSilent h rfl rfl
  · exact ⟨{ h with encCol := rfl }, [s.cfg.lbCp], rfl, rfl⟩
  · exact .ofSilent { h with cfg := rfl, encWrap := rfl, encCol := rfl } rfl rfl

theorem EncControl.emitSym (cp : CodePoint) : EncAlike s s' (emitSym cp s) (emitSym cp s') :=
  (h.emitRaw cp).trans (h.emitRaw cp).control.wrapAccount

theorem EncControl.emitAll (cps : List CodePoint) : EncAlike s s' (emitAll cps s) (emitAll cps s') := by
  induction cps generalizing s s' with
  | nil => exact .ofSilent h rfl rfl
  | cons cp cps ih => exact (h.emitSym cp).trans (ih (h.emitSym cp).control)

theorem EncControl.endEncGroup : EncAlike s s' (endEncGroup s) (endEncGroup s') :=
  .ofSilent { h with encCnt := rfl } rfl rfl

theorem EncControl.closeMessage : EncAlike s s' (closeMessage s) (closeMessage s') := by
  unfold Machine.closeMessage finalLineBreak
  rw [← h.encWrap, ← h.encCol, ← h.cfg]
  split_ifs
  · exact ⟨{ h with encSt := rfl, encCol := rfl, encCnt := rfl }, [s.cfg.lbCp], rfl, rfl⟩
  · exact .ofSilent { h with encSt := rfl, encCol := rfl, encCnt := rfl } rfl rfl

/-- An encoder command reads the configuration and the encoder registers only. -/
theorem EncControl.exec_alike {i : Instr} {t : State} (hi : isEncoder i = true) (he : exec i s = .next t) :
    ∃ t', exec i s' = .next t' ∧ EncAlike s s' t t' := by
  cases i with
  | encStart v wrap =>
    cases he
    exact ⟨_, rfl, .ofSilent ⟨h.cfg, rfl, rfl, rfl, rfl, rfl, h.encBuf⟩ rfl rfl⟩
  | encByte b =>
    obtain ⟨hs, rfl⟩ | ⟨hs, h4, rfl⟩ | ⟨hs, -, b0, b1, b2, b3, hp, rfl⟩ := encByte_cases he
    · exact ⟨_, exec_encByte_idle b (h.encSt ▸ hs), h.sequenceError _⟩
    · exact ⟨_, exec_encByte_pending b (h.encSt ▸ hs) (h.encCnt ▸ h4), h.pushEncByte b⟩
    · refine ⟨_, exec_encByte_full b (h.encSt ▸ hs) (h.encPending ▸ hp), ?_⟩
      rw [← h.cfg, ← h.encVar]
      exact (h.emitAll _).trans (h.emitAll _).control.endEncGroup
  | encEnd =>
    obtain ⟨hs, rfl⟩ | ⟨hs, bs, hp, rfl⟩ := encEnd_cases he
    · exact ⟨_, exec_encEnd_idle (h.encSt ▸ hs), h.sequenceError _⟩
    · refine ⟨_, exec_encEnd_active (h.encSt ▸ hs) (h.encPending ▸ hp), ?_⟩
      rw [← h.cfg, ← h.encVar]
      exact (h.emitAll _).trans (h.emitAll _).control.closeMessage
  | _ => cases hi

end

/-! ## Decoder -/

/-- The two states agree on the configuration and on the decoder registers of R52. -/
structure DecControl (s s' : State) : Prop where
  cfg : s.cfg = s'.cfg
  decSt : s.decSt = s'.decSt
  decLock : s.decLock = s'.decLock
  decCnt : s.decCnt = s'.decCnt
  decAcc : s.decAcc = s'.decAcc
  decPend : s.decPend = s'.decPend
  decPendCp : s.decPendCp = s'.decPendCp

/-- The decode error is written alike in `t` and `t'`, or kept in both. -/
def DecErrAlike (s s' t t' : State) : Prop :=
  (t.decErr = t'.decErr ∧ t.decErrCp = t'.decErrCp) ∨
  (t.decErr = s.decErr ∧ t'.decErr = s'.decErr ∧ t.decErrCp = s.decErrCp ∧ t'.decErrCp = s'.decErrCp)

/-- From `s` to `t` and from `s'` to `t'` the decoder registers of R52 become the same, `BYTE_OUT` grows by the same
bytes, and the decode error is written alike. -/
structure DecAlike (s s' t t' : State) : Prop where
  control : DecControl t t'
  byteOut : ∃ bytes, t.byteOut = s.byteOut ++ bytes ∧ t'.byteOut = s'.byteOut ++ bytes
  decErr : DecErrAlike s s' t t'

theorem DecErrAlike.kept {s s' t t' : State} (he : t.decErr = s.decErr) (he' : t'.decErr = s'.decErr)
    (hcp : t.decErrCp = s.decErrCp) (hcp' : t'.decErrCp = s'.decErrCp) : DecErrAlike s s' t t' :=
  .inr ⟨he, he', hcp, hcp'⟩

theorem DecErrAlike.trans {s s' t t' u u' : State} (h : DecErrAlike s s' t t') (k : DecErrAlike t t' u u') :
    DecErrAlike s s' u u' := by
  rcases k with k | ⟨k1, k1', k2, k2'⟩
  · exact .inl k
  · rwa [DecErrAlike, k1, k1', k2, k2']

/-- An update that appends nothing to `BYTE_OUT`. -/
theorem DecAlike.ofSilent {s s' t t' : State} (h : DecControl t t') (hb : t.byteOut = s.byteOut)
    (hb' : t'.byteOut = s'.byteOut) (he : DecErrAlike s s' t t') : DecAlike s s' t t' :=
  ⟨h, ⟨[], by simp [hb], by simp [hb']⟩, he⟩

theorem DecAlike.trans {s s' t t' u u' : State} (h : DecAlike s s' t t') (k : DecAlike t t' u u') :
    DecAlike s s' u u' := by
  obtain ⟨-, ⟨l, hl, hl'⟩, he⟩ := h
  obtain ⟨control, ⟨m, hm, hm'⟩, ke⟩ := k
  exact ⟨control, ⟨l ++ m, by rw [hm, hl, List.append_assoc], by rw [hm', hl', List.append_assoc]⟩, he.trans ke⟩

section
variable {s s' : State} (h : DecControl s s')
include h

theorem DecControl.decPending : decPending s = decPending s' := by
  simp only [Machine.decPending, h.decAcc, h.decCnt]

theorem DecControl.admits {v : Variant} (ha : Admits s v) : Admits s' v := by
  rwa [Admits, ← h.decLock]

theorem DecControl.refl : DecAlike s s' s s' := .ofSilent h rfl rfl (.kept rfl rfl rfl rfl)

theorem DecControl.sequenceError (i : Instr) : DecAlike s s' (sequenceError i s) (sequenceError i s') := by
  rw [sequenceError_frame i s, sequenceError_frame i s']
  exact .ofSilent { h with } rfl rfl (.kept rfl rfl rfl rfl)

theorem DecControl.decError (code : DecErr) (cp : CodePoint) :
    DecAlike s s' (decError code cp s) (decError code cp s') :=
  .ofSilent { h with decSt := rfl } rfl rfl (.inl ⟨rfl, rfl⟩)

theorem DecControl.lock (v : Variant) :
    DecAlike s s' { s with decLock := .locked v } { s' with decLock := .locked v } :=
  .ofSilent { h with decLock := rfl } rfl rfl (.kept rfl rfl rfl rfl)

theorem DecControl.pushDecChunk (i : Chunk) : DecAlike s s' (pushDecChunk i s) (pushDecChunk i s') :=
  .ofSilent { h with decCnt := by simp [h.decCnt], decAcc := by simp [h.decAcc, h.decCnt] } rfl rfl
    (.kept rfl rfl rfl rfl)

theorem DecControl.closeDecGroup (bs : List Byte) :
    DecAlike s s' { s with byteOut := s.byteOut ++ bs, decCnt := 0 }
      { s' with byteOut := s'.byteOut ++ bs, decCnt := 0 } :=
  ⟨{ h with decCnt := rfl }, ⟨bs, rfl, rfl⟩, .kept rfl rfl rfl rfl⟩

theorem DecControl.earlyTail (cp : CodePoint) : DecAlike s s' (earlyTail cp s) (earlyTail cp s') := by
  unfold Machine.earlyTail
  rw [← h.decPend]
  split
  · exact .ofSilent { h with decCnt := rfl, decPend := rfl } rfl rfl (.kept rfl rfl rfl rfl)
  · exact .ofSilent { h with decCnt := rfl, decPend := rfl, decPendCp := rfl } rfl rfl (.kept rfl rfl rfl rfl)

theorem DecControl.endStream : DecAlike s s' (endStream s) (endStream s') := by
  unfold Machine.endStream
  rw [← h.decPend, ← h.decPendCp, ← h.decCnt]
  split_ifs
  · exact h.decError _ _
  · exact h.decError _ _
  · exact .ofSilent { h with decSt := rfl, decPend := rfl, decPendCp := rfl, decCnt := rfl } rfl rfl
      (.kept rfl rfl rfl rfl)

/-- The path a symbol takes is fixed by the class and the decoder registers of R52 (R133). -/
theorem DecControl.symStep {cp : CodePoint} {t : State} (step : SymStep cp s t) :
    ∃ t', SymStep cp s' t' ∧ DecAlike s s' t t' := by
  cases step with
  | ignored st => exact ⟨_, .ignored (h.decSt ▸ st), h.refl⟩
  | sequence st => exact ⟨_, .sequence (h.decSt ▸ st), h.sequenceError _⟩
  | ws st cl => exact ⟨_, .ws (h.decSt ▸ st) (h.cfg ▸ cl), h.refl⟩
  | invalid st cl => exact ⟨_, .invalid (h.decSt ▸ st) (h.cfg ▸ cl), h.decError _ cp⟩
  | mixed v v' st cl lock ne =>
    exact ⟨_, .mixed v v' (h.decSt ▸ st) (h.cfg ▸ cl) (h.decLock ▸ lock) ne, h.decError _ cp⟩
  | pad cs st cl acc => exact ⟨_, .pad cs (h.decSt ▸ st) (h.cfg ▸ cl) (h.decPending ▸ acc), h.closeDecGroup _⟩
  | main v i st cl lock cnt =>
    exact ⟨_, .main v i (h.decSt ▸ st) (h.cfg ▸ cl) (h.admits lock) (h.decCnt ▸ cnt),
      (h.lock v).trans ((h.lock v).control.pushDecChunk i)⟩
  | fourthMain v i c0 c1 c2 st cl lock cnt acc =>
    exact ⟨_, .fourthMain v i c0 c1 c2 (h.decSt ▸ st) (h.cfg ▸ cl) (h.admits lock) (h.decCnt ▸ cnt)
      (h.decPending ▸ acc),
      (h.lock v).trans ((h.lock v).control.closeDecGroup _)⟩
  | tail v t c0 c1 c2 st cl lock cnt acc =>
    exact ⟨_, .tail v t c0 c1 c2 (h.decSt ▸ st) (h.cfg ▸ cl) (h.admits lock) (h.decCnt ▸ cnt)
      (h.decPending ▸ acc),
      (h.lock v).trans ((h.lock v).control.closeDecGroup _)⟩
  | early v t st cl lock cnt =>
    exact ⟨_, .early v t (h.decSt ▸ st) (h.cfg ▸ cl) (h.admits lock) (h.decCnt ▸ cnt),
      (h.lock v).trans ((h.lock v).control.earlyTail cp)⟩

/-- A decoder command reads the configuration and the decoder registers of R52 only. -/
theorem DecControl.exec_alike {i : Instr} {t : State} (hi : isDecoder i = true) (he : exec i s = .next t) :
    ∃ t', exec i s' = .next t' ∧ DecAlike s s' t t' := by
  cases i with
  | decStart =>
    cases he
    exact ⟨_, rfl, .ofSilent ⟨h.cfg, rfl, rfl, rfl, h.decAcc, rfl, rfl⟩ rfl rfl (.inl ⟨rfl, rfl⟩)⟩
  | decSym cp =>
    obtain ⟨t', step, alike⟩ := h.symStep (decSym_cases he)
    exact ⟨t', step.exec_eq, alike⟩
  | decEnd =>
    obtain ⟨hs, rfl⟩ | ⟨hs, rfl⟩ | ⟨hs, rfl⟩ := decEnd_cases he
    · exact ⟨_, exec_decEnd_error (h.decSt ▸ hs), h.refl⟩
    · exact ⟨_, exec_decEnd_closed (h.decSt ▸ hs), h.sequenceError _⟩
    · exact ⟨_, exec_decEnd_active (h.decSt ▸ hs), h.endStream⟩
  | _ => cases hi

end

/-! ## Both units -/

theorem sameControl_iff {s s' : State} : sameControl s s' ↔ EncControl s s' ∧ DecControl s s' := by
  constructor
  · rintro ⟨cfg, encSt, encVar, encWrap, encCol, encCnt, encBuf, decSt, decLock, decCnt, decAcc, decPend, decPendCp⟩
    exact ⟨⟨cfg, encSt, encVar, encWrap, encCol, encCnt, encBuf⟩,
      ⟨cfg, decSt, decLock, decCnt, decAcc, decPend, decPendCp⟩⟩
  · rintro ⟨e, d⟩
    exact ⟨e.cfg, e.encSt, e.encVar, e.encWrap, e.encCol, e.encCnt, e.encBuf, d.decSt, d.decLock, d.decCnt, d.decAcc,
      d.decPend, d.decPendCp⟩

theorem sameEncoder_iff {s s' : State} : sameEncoder s s' ↔ EncControl s s' ∧ s.symOut = s'.symOut := by
  constructor
  · rintro ⟨cfg, encSt, encVar, encWrap, encCol, encCnt, encBuf, symOut⟩
    exact ⟨⟨cfg, encSt, encVar, encWrap, encCol, encCnt, encBuf⟩, symOut⟩
  · rintro ⟨e, symOut⟩
    exact ⟨e.cfg, e.encSt, e.encVar, e.encWrap, e.encCol, e.encCnt, e.encBuf, symOut⟩

theorem sameDecoder_iff {s s' : State} :
    sameDecoder s s' ↔
      DecControl s s' ∧ (s.decErr = s'.decErr ∧ s.decErrCp = s'.decErrCp) ∧ s.byteOut = s'.byteOut := by
  constructor
  · rintro ⟨cfg, decSt, decLock, decCnt, decAcc, decErr, decErrCp, decPend, decPendCp, byteOut⟩
    exact ⟨⟨cfg, decSt, decLock, decCnt, decAcc, decPend, decPendCp⟩, ⟨decErr, decErrCp⟩, byteOut⟩
  · rintro ⟨d, ⟨decErr, decErrCp⟩, byteOut⟩
    exact ⟨d.cfg, d.decSt, d.decLock, d.decCnt, d.decAcc, decErr, decErrCp, d.decPend, d.decPendCp, byteOut⟩

/-- Alike from states with the same `SYM_OUT`: the same `SYM_OUT` again. -/
theorem EncAlike.sameEncoder {s s' t t' : State} (h : EncAlike s s' t t') (ho : s.symOut = s'.symOut) :
    sameEncoder t t' := by
  obtain ⟨control, syms, hs, hs'⟩ := h
  exact sameEncoder_iff.2 ⟨control, by rw [hs, hs', ho]⟩

theorem DecErrAlike.same {s s' t t' : State} (h : DecErrAlike s s' t t')
    (he : s.decErr = s'.decErr ∧ s.decErrCp = s'.decErrCp) : t.decErr = t'.decErr ∧ t.decErrCp = t'.decErrCp := by
  rcases h with h | ⟨h1, h1', h2, h2'⟩
  · exact h
  · rw [h1, h1', h2, h2']
    exact he

theorem DecAlike.sameDecoder {s s' t t' : State} (h : DecAlike s s' t t')
    (he : s.decErr = s'.decErr ∧ s.decErrCp = s'.decErrCp) (ho : s.byteOut = s'.byteOut) : sameDecoder t t' := by
  obtain ⟨control, ⟨bytes, hb, hb'⟩, herr⟩ := h
  exact sameDecoder_iff.2 ⟨control, herr.same he, by rw [hb, hb', ho]⟩

/-- Settles O58: what a unit's command leaves is its frame, and its effect is fixed by the registers of its unit. -/
theorem unitsShareNoState : Obligations.UnitsShareNoState := by
  refine ⟨fun i s t hi he => (encoder_frame hi he).sameDecoder, fun i s t hi he => (decoder_frame hi he).sameEncoder,
    fun i s s' t hi hs he => ?_, fun i s s' t hi hs he => ?_,
    fun i s t hm he => mapper_frame (i := i) (s := s) (t := t) hm he⟩
  · obtain ⟨control, ho⟩ := sameEncoder_iff.1 hs
    obtain ⟨t', he', alike⟩ := control.exec_alike hi he
    exact ⟨t', he', alike.sameEncoder ho⟩
  · obtain ⟨control, herr, ho⟩ := sameDecoder_iff.1 hs
    obtain ⟨t', he', alike⟩ := control.exec_alike hi he
    exact ⟨t', he', alike.sameDecoder herr ho⟩

/-! ## The command error -/

/-- A command error is recorded alike where the same is recorded already (R155). -/
theorem sequenceError_alike (i : Instr) {s s' : State} (hc : s.cmdErr = s'.cmdErr)
    (hw : s.cmdErrWord = s'.cmdErrWord) :
    (sequenceError i s).cmdErr = (sequenceError i s').cmdErr ∧
      (sequenceError i s).cmdErrWord = (sequenceError i s').cmdErrWord := by
  simp only [sequenceError, cmdError_eq, ← hc]
  split
  · exact ⟨rfl, rfl⟩
  · exact ⟨hc, hw⟩

theorem sameControl.rejected {s s' : State} (h : sameControl s s') (i : Instr) : Rejected s i ↔ Rejected s' i := by
  obtain ⟨e, d⟩ := sameControl_iff.1 h
  unfold Rejected
  rw [e.encSt, d.decSt]

/-- Whether a command records an error is fixed by the registers of R52, so the records stay alike. -/
theorem sameControl.cmdErr {i : Instr} {s s' t t' : State} (h : sameControl s s') (he : exec i s = .next t)
    (he' : exec i s' = .next t') (hc : s.cmdErr = s'.cmdErr) (hw : s.cmdErrWord = s'.cmdErrWord) :
    t.cmdErr = t'.cmdErr ∧ t.cmdErrWord = t'.cmdErrWord := by
  by_cases hclr : i = .clrCmdErr
  · subst hclr
    cases he
    cases he'
    exact ⟨rfl, rfl⟩
  by_cases hr : Rejected s i
  · cases (exec_rejected hr).symm.trans he
    cases (exec_rejected ((h.rejected i).1 hr)).symm.trans he'
    exact sequenceError_alike i hc hw
  · obtain ⟨kc, kw⟩ := exec_keeps_cmdErr hr hclr he
    obtain ⟨kc', kw'⟩ := exec_keeps_cmdErr (mt (h.rejected i).2 hr) hclr he'
    exact ⟨by rw [kc, kc', hc], by rw [kw, kw', hw]⟩

/-! ## Every command -/

/-- What an encoder command leaves of the decoder, from states with the same decoder registers (R51). -/
theorem EncoderFrame.decAlike {s s' t t' : State} (f : EncoderFrame s t) (f' : EncoderFrame s' t')
    (h : DecControl s s') : DecAlike s s' t t' := by
  rw [f, f']
  exact .ofSilent { h with } rfl rfl (.kept rfl rfl rfl rfl)

theorem DecoderFrame.encAlike {s s' t t' : State} (f : DecoderFrame s t) (f' : DecoderFrame s' t')
    (h : EncControl s s') : EncAlike s s' t t' := by
  rw [f, f']
  exact .ofSilent { h with } rfl rfl

theorem EncoderFrame.mapResult {s t : State} (f : EncoderFrame s t) : t.mapResult = s.mapResult := by rw [f]

theorem DecoderFrame.mapResult {s t : State} (f : DecoderFrame s t) : t.mapResult = s.mapResult := by rw [f]

/-- `MAP_RESULT` is written alike in `t` and `t'`, or kept in both. -/
def MapResultAlike (s s' t t' : State) : Prop :=
  t.mapResult = t'.mapResult ∨ (t.mapResult = s.mapResult ∧ t'.mapResult = s'.mapResult)

/-- A command takes states that agree on the registers of R52 alike, in both units and in `MAP_RESULT`. -/
theorem sameControl.exec_alike {i : Instr} {s s' t : State} (h : sameControl s s') (he : exec i s = .next t) :
    ∃ t', exec i s' = .next t' ∧ EncAlike s s' t t' ∧ DecAlike s s' t t' ∧ MapResultAlike s s' t t' := by
  obtain ⟨e, d⟩ := sameControl_iff.1 h
  obtain hi | hi | hm | rfl := instr_cases i
  · obtain ⟨t', he', alike⟩ := e.exec_alike hi he
    have f := encoder_frame hi he
    have f' := encoder_frame hi he'
    exact ⟨t', he', alike, f.decAlike f' d, .inr ⟨f.mapResult, f'.mapResult⟩⟩
  · obtain ⟨t', he', alike⟩ := d.exec_alike hi he
    have f := decoder_frame hi he
    have f' := decoder_frame hi he'
    exact ⟨t', he', f.encAlike f' e, alike, .inr ⟨f.mapResult, f'.mapResult⟩⟩
  · obtain ⟨word, hw⟩ := exec_mapper hm
    cases (hw s).symm.trans he
    exact ⟨_, hw s', .ofSilent { e with } rfl rfl, .ofSilent { d with } rfl rfl (.kept rfl rfl rfl rfl),
      .inl (congrArg word e.cfg)⟩
  · cases he
    exact ⟨_, rfl, .ofSilent { e with } rfl rfl, .ofSilent { d with } rfl rfl (.kept rfl rfl rfl rfl),
      .inr ⟨rfl, rfl⟩⟩

/-- Settles O60: each command by its unit (`sameControl.exec_alike`), the command error by whether the command is rejected
(`sameControl.cmdErr`). -/
theorem onlyTheListedStateSteersCommands : Obligations.OnlyTheListedStateSteersCommands := by
  intro i s s' t h he
  obtain ⟨t', he', ⟨e, syms, hs, hs'⟩, ⟨d, ⟨bytes, hb, hb'⟩, herr⟩, hmap⟩ := h.exec_alike he
  exact ⟨t', syms, bytes, he', sameControl_iff.2 ⟨e, d⟩, hs, hs', hb, hb', hmap, herr, h.cmdErr he he'⟩

end Sys2Proof.Machine
end

section
/-! SUPPORT. A run of commands and the run of one unit's commands alone (20_memory.md R71). -/

namespace Sys2Proof.Machine

/-- The run of the commands of one unit alone goes along with the run of all of them: `R` says that two states agree on
the unit, a command of the unit (`mine`) keeps them agreeing when both take it, any other command when only the full run
takes it. -/
theorem runInstrs_filter {mine : Instr → Bool} {R : State → State → Prop}
    (both : ∀ {i s s' t}, mine i = true → R s s' → exec i s = .next t → ∃ t', exec i s' = .next t' ∧ R t t')
    (skip : ∀ {i s s' t}, mine i = false → R s s' → exec i s = .next t → R t s')
    {is : List Instr} {s s' t : State} (h : R s s') (run : runInstrs is s = .next t) :
    ∃ t', runInstrs (is.filter mine) s' = .next t' ∧ R t t' := by
  induction is generalizing s s' with
  | nil => cases run; exact ⟨s', rfl, h⟩
  | cons i is ih =>
    obtain ⟨u, hu, rest⟩ := runInstrs_cons_inv run
    cases hm : mine i with
    | true =>
      obtain ⟨u', hu', agree⟩ := both hm h hu
      obtain ⟨t', run', agree'⟩ := ih agree rest
      exact ⟨t', by rw [List.filter_cons_of_pos hm, runInstrs_cons_next hu', run'], agree'⟩
    | false =>
      rw [List.filter_cons_of_neg (by simp [hm])]
      exact ih (skip hm h hu) rest

/-- A command of neither unit touches `MAP_RESULT` and the command error only (R104 to R108, R148). -/
theorem neither_frame {i : Instr} {s t : State} (hne : isEncoder i = false) (hnd : isDecoder i = false)
    (he : exec i s = .next t) :
    t = { s with mapResult := t.mapResult, cmdErr := t.cmdErr, cmdErrWord := t.cmdErrWord } := by
  obtain hi | hi | hm | rfl := instr_cases i
  · simp [hne] at hi
  · simp [hnd] at hi
  · rw [mapper_frame hm he]
  · cases he
    rfl

/-- A command that is not the encoder's leaves the encoder as it is, so an agreement with a third state stays (R51). -/
theorem sameEncoder.other_exec {i : Instr} {s s' t : State} (hi : isEncoder i = false) (h : sameEncoder s s')
    (he : exec i s = .next t) : sameEncoder t s' := by
  cases hd : isDecoder i with
  | true => rw [decoder_frame hd he]; exact h
  | false => rw [neither_frame hi hd he]; exact h

theorem sameDecoder.other_exec {i : Instr} {s s' t : State} (hi : isDecoder i = false) (h : sameDecoder s s')
    (he : exec i s = .next t) : sameDecoder t s' := by
  cases hd : isEncoder i with
  | true => rw [encoder_frame hd he]; exact h
  | false => rw [neither_frame hd hi he]; exact h

/-- Settles O59: the whole run completes under the invariants (`Inv.exec_completes`); the run of one unit's commands
alone goes along with it (`runInstrs_filter`), since a unit's commands read that unit only (`unitsShareNoState`) and no
other command touches it. -/
theorem unitsInterleaveFreely : Obligations.UnitsInterleaveFreely := by
  intro is s h
  obtain ⟨-, -, encBoth, decBoth, -⟩ := unitsShareNoState
  obtain ⟨t, run, -⟩ := runInstrs_completes (is := is) (fun i _ _ hs => hs.exec_completes i) h
  obtain ⟨te, runEnc, enc⟩ := runInstrs_filter (encBoth _ _ _ _) sameEncoder.other_exec
    (sameEncoder_iff.2 ⟨⟨rfl, rfl, rfl, rfl, rfl, rfl, rfl⟩, rfl⟩) run
  obtain ⟨td, runDec, dec⟩ := runInstrs_filter (decBoth _ _ _ _) sameDecoder.other_exec
    (sameDecoder_iff.2 ⟨⟨rfl, rfl, rfl, rfl, rfl, rfl, rfl⟩, ⟨rfl, rfl⟩, rfl⟩) run
  exact ⟨t, te, td, run, runEnc, enc, runDec, dec⟩

end Sys2Proof.Machine
end

section
/-! SUPPORT. The ROM as an address space (20_memory.md R55). -/

namespace Sys2Proof.Machine

theorem romRead_at_mainAddr (a : Alphabet) {addr : RomAddr} {v : Variant} {i : Chunk}
    (h : addr.toNat = 0x400 * (variantBit v).toNat + i.toNat) : romRead a addr = some (a.main v i) := by
  have e : addr = mainAddr v i := BitVec.eq_of_toNat_eq (h.trans (mainAddr_toNat v i).symm)
  rw [e, romRead_mainAddr]

theorem romRead_at_tailAddr (a : Alphabet) {addr : RomAddr} {v : Variant} {t : TailIdx}
    (h : addr.toNat = 0x800 + 4 * (variantBit v).toNat + t.toNat) : romRead a addr = some (a.tail v t) := by
  have e : addr = tailAddr v t := BitVec.eq_of_toNat_eq (h.trans (tailAddr_toNat v t).symm)
  rw [e, romRead_tailAddr]

theorem romRead_at_padAddr (a : Alphabet) {addr : RomAddr} (h : addr.toNat = 0x808) :
    romRead a addr = some a.pad := by
  have e : addr = padAddr := BitVec.eq_of_toNat_eq h
  rw [e, romRead_padAddr]

/-- The layout ends at 0x808. -/
theorem romRead_absent (a : Alphabet) {addr : RomAddr} (h : 0x809 ≤ addr.toNat) : romRead a addr = none := by
  simp (disch := omega) only [romRead, if_neg]

/-- Settles O15: an address is one that an address function gives, and reads as that function's lookup does
(`romRead_at_mainAddr`, `romRead_at_tailAddr`, `romRead_at_padAddr`), or is past the layout (`romRead_absent`). -/
theorem romIsLaidOutByAddress : Obligations.RomIsLaidOutByAddress :=
  ⟨mainAddr_toNat, tailAddr_toNat, rfl, fun c _ =>
    ⟨fun _ h => romRead_at_mainAddr c.alphabet (v := .V1) h, fun _ h => romRead_at_mainAddr c.alphabet (v := .V2) h,
      fun _ h => romRead_at_tailAddr c.alphabet (v := .V1) h, fun _ h => romRead_at_tailAddr c.alphabet (v := .V2) h,
      romRead_at_padAddr c.alphabet, romRead_absent c.alphabet⟩⟩

end Sys2Proof.Machine
end

section
/-! SUPPORT. The whole run of `encode V, wrap, [b0, ..., bk]` (30_encoding.md R95), from every state: what it appends to
`SYM_OUT` is the message the rules write out, with its line breaks. -/

namespace Sys2Proof.Machine

/-! ## The pending bytes do not steer the emission -/

/-- A state with other bytes pending. -/
def withPending (buf : Vector (Option Byte) 4) (cnt : Fin 5) (s : State) : State :=
  { s with encBuf := buf, encCnt := cnt }

@[simp] theorem withPending_withPending (buf buf' : Vector (Option Byte) 4) (cnt cnt' : Fin 5) (s : State) :
    withPending buf cnt (withPending buf' cnt' s) = withPending buf cnt s := rfl

theorem pushEncByte_eq_withPending (b : Byte) (s : State) :
    pushEncByte b s = withPending (s.encBuf.setIfInBounds s.encCnt.val (some b)) (s.encCnt + 1) s := rfl

theorem endEncGroup_eq_withPending (s : State) : endEncGroup s = withPending s.encBuf 0 s := rfl

theorem emitSym_withPending (cp : CodePoint) (buf : Vector (Option Byte) 4) (cnt : Fin 5) (s : State) :
    emitSym cp (withPending buf cnt s) = withPending buf cnt (emitSym cp s) := by
  by_cases unwrapped : s.encWrap = 0#24
  · simp [emitSym, wrapAccount, emitRaw, withPending, unwrapped]
  · by_cases full : s.encCol.toNat + 1 = s.encWrap.toNat <;>
      simp [emitSym, wrapAccount, emitRaw, withPending, unwrapped, full]

theorem emitAll_withPending (cps : List CodePoint) (buf : Vector (Option Byte) 4) (cnt : Fin 5) (s : State) :
    emitAll cps (withPending buf cnt s) = withPending buf cnt (emitAll cps s) := by
  induction cps generalizing s with
  | nil => rfl
  | cons cp cps ih => rw [emitAll_cons, emitSym_withPending, ih, emitAll_cons]

/-- Closing a message forgets the count, and keeps the buffer (R123). -/
theorem closeMessage_withPending (buf : Vector (Option Byte) 4) (cnt : Fin 5) (s : State) :
    closeMessage (withPending buf cnt s) = withPending buf 0 (closeMessage s) := by
  by_cases openLine : s.cfg.finalLb = true ∧ s.encWrap ≠ 0#24 ∧ s.encCol ≠ 0#24 <;>
    simp [closeMessage, finalLineBreak, emitRaw, withPending, openLine]

@[simp] theorem emitAll_encSt (cps : List CodePoint) (s : State) : (emitAll cps s).encSt = s.encSt := by
  rw [emitAll_frame]

@[simp] theorem emitAll_encVar (cps : List CodePoint) (s : State) : (emitAll cps s).encVar = s.encVar := by
  rw [emitAll_frame]

/-! ## The symbols of a message -/

/-- Induction over the groups of a message: fewer than five bytes, or five bytes and a shorter message (R84). -/
theorem groups_induction {P : List Byte → Prop} (short : ∀ bs, bs.length < 5 → P bs)
    (group : ∀ b0 b1 b2 b3 b4 rest, P rest → P (b0 :: b1 :: b2 :: b3 :: b4 :: rest)) : ∀ bs, P bs
  | b0 :: b1 :: b2 :: b3 :: b4 :: rest => group b0 b1 b2 b3 b4 rest (groups_induction short group rest)
  | [] | [_] | [_, _] | [_, _, _] | [_, _, _, _] => short _ (by simp)

/-- Fewer than five bytes are a final group (R87). -/
theorem messageSymbols_of_lt (a : Alphabet) (v : Variant) {bs : List Byte} (h : bs.length < 5) :
    messageSymbols a v bs = finalGroupSymbols a v bs := by
  match bs, h with
  | [], _ | [_], _ | [_, _], _ | [_, _, _], _ | [_, _, _, _], _ => simp only [messageSymbols]

/-- The number of symbols of a final group of fewer than five bytes (R90). -/
theorem finalGroupSymbols_length (a : Alphabet) (v : Variant) {bs : List Byte} (h : bs.length < 5) :
    (finalGroupSymbols a v bs).length = symbolCount v bs.length := by
  match bs, h with
  | [], _ | [_], _ | [_, _], _ | [_, _, _], _ | [_, _, _, _], _ =>
    cases v <;> simp [finalGroupSymbols, packPartial, tailSymbols, fillerPads, symbolCount]

/-- Each whole group is four symbols, whatever the rest is (R90). -/
theorem symbolCount_eq_groups_add_rest (v : Variant) (L : Nat) :
    symbolCount v L = 4 * (L / 5) + symbolCount v (L % 5) := by
  have rest : L % 5 / 5 = 0 := by omega
  unfold symbolCount
  rw [Nat.mod_mod, rest]
  split <;> simp

theorem symbolCount_add_five (v : Variant) (L : Nat) : symbolCount v (L + 5) = symbolCount v L + 4 := by
  rw [symbolCount_eq_groups_add_rest v (L + 5), symbolCount_eq_groups_add_rest v L, Nat.add_mod_right]
  omega

theorem messageSymbols_length (a : Alphabet) (v : Variant) (bs : List Byte) :
    (messageSymbols a v bs).length = symbolCount v bs.length := by
  induction bs using groups_induction with
  | short bs hlt => rw [messageSymbols_of_lt a v hlt, finalGroupSymbols_length a v hlt]
  | group b0 b1 b2 b3 b4 rest ih =>
    simp only [messageSymbols, List.length_append, ih, List.length_cons, symbolCount_add_five, fullGroupSymbols,
      List.length_nil]
    omega

/-- Every symbol of a message stands in the ROM (R87). -/
theorem messageSymbols_subset_words (a : Alphabet) (v : Variant) (bs : List Byte) :
    messageSymbols a v bs ⊆ a.words := by
  have mains : ∀ cs : List Chunk, cs.map (a.main v) ⊆ a.words := fun cs cp h => by
    obtain ⟨i, -, rfl⟩ := List.mem_map.1 h
    exact main_mem_words a v i
  have tails : ∀ t : Option TailIdx, tailSymbols a v t ⊆ a.words := by
    rintro (_ | t) <;> simp [tailSymbols, tail_mem_words]
  have fillers : ∀ r, fillerPads a v r ⊆ a.words := fun r => by
    unfold fillerPads
    split <;> simp [pad_mem_words]
  induction bs using groups_induction with
  | short bs hlt =>
    rw [messageSymbols_of_lt a v hlt]
    exact List.append_subset.2 ⟨List.append_subset.2 ⟨mains _, tails _⟩, fillers _⟩
  | group b0 b1 b2 b3 b4 rest ih =>
    simp only [messageSymbols]
    exact List.append_subset.2 ⟨by simp [fullGroupSymbols, main_mem_words], ih⟩

/-! ## The run -/

/-- The bytes of an open message and its end: whatever is pending, the run emits the symbols of the pending and the new
bytes and closes the message (R121, R123). -/
theorem runInstrs_encBytes_encEnd (bs : List Byte) {s : State} {pre : List Byte} (ha : s.encSt = .active)
    (hp : encPending s = some pre) :
    ∃ buf, runInstrs (encBytesInstrs bs ++ [.encEnd]) s =
      .next (withPending buf 0 (closeMessage (emitAll (messageSymbols s.cfg.alphabet s.encVar (pre ++ bs)) s))) := by
  induction bs generalizing s pre with
  | nil =>
    have hlt : pre.length < 5 := (encPending_length hp).trans_lt s.encCnt.isLt
    refine ⟨s.encBuf, ?_⟩
    rw [List.append_nil, messageSymbols_of_lt _ _ hlt, ← closeMessage_withPending s.encBuf s.encCnt,
      ← emitAll_withPending]
    exact runInstrs_cons_next (exec_encEnd_active ha hp)
  | cons b bs ih =>
    by_cases h4 : s.encCnt.val < 4
    · obtain ⟨buf, hrun⟩ := ih (s := pushEncByte b s) ha (encPending_push b hp h4)
      refine ⟨buf, (runInstrs_cons_next (exec_encByte_pending b ha h4)).trans (hrun.trans ?_)⟩
      simp only [pushEncByte_cfg, pushEncByte_encVar, List.append_assoc, List.singleton_append]
      rw [pushEncByte_eq_withPending, emitAll_withPending, closeMessage_withPending, withPending_withPending]
    · have hpre : pre.length = 4 := by
        have := encPending_length hp
        have := s.encCnt.isLt
        omega
      obtain ⟨b0, b1, b2, b3, rfl⟩ := length_four hpre
      have hexec := exec_encByte_full b ha hp
      rw [endEncGroup_eq_withPending] at hexec
      obtain ⟨buf, hrun⟩ := ih (s := withPending _ 0 (emitAll _ s)) ((emitAll_encSt _ s).trans ha) rfl
      refine ⟨buf, (runInstrs_cons_next hexec).trans (hrun.trans ?_)⟩
      rw [emitAll_withPending, closeMessage_withPending, withPending_withPending, ← emitAll_append]
      simp [withPending, messageSymbols]

/-- A message emitted from the start of a line and closed: its symbols with their line breaks (R122, R123, R128). -/
theorem closeMessage_emitAll_symOut {s : State} (cps : List CodePoint) (hc : s.encCol = 0#24) :
    (closeMessage (emitAll cps s)).symOut = s.symOut ++ wrapSymbols s.cfg.toConfig s.encWrap.toNat cps := by
  by_cases hw : s.encWrap = 0#24
  · simp [emitAll_unwrapped cps s hw, closeMessage, finalLineBreak, wrapSymbols, hw]
  · have hpos := wrapCount_pos hw
    have hlt := s.encWrap.isLt
    have hcol : BitVec.ofNat 24 (cps.length % s.encWrap.toNat) = 0#24 ↔ cps.length % s.encWrap.toNat = 0 := by
      have := Nat.mod_lt cps.length hpos
      rw [← BitVec.toNat_inj, BitVec.toNat_ofNat, BitVec.toNat_ofNat]
      omega
    rw [emitAll_wrapped cps s (by simpa [hc] using hpos)]
    by_cases hl : s.cfg.finalLb = true ∧ cps.length % s.encWrap.toNat ≠ 0
    · simp [closeMessage, finalLineBreak, wrapSymbols, hw, hcol, hl, hc, emitRaw, hpos.ne']
    · simp [closeMessage, finalLineBreak, wrapSymbols, hw, hcol, hl, hc, hpos.ne']

/-- The state right after `enc.start` (R120). -/
def messageStart (v : Variant) (wrap : WrapCount) (s : State) : State :=
  { s with encSt := .active, encVar := v, encWrap := wrap, encCol := 0#24, encCnt := 0 }

/-- `encode V, wrap, bs` completes in every state: all it does is to emit the message on a fresh line and close it. -/
theorem runInstrs_encodeInstrs (s : State) (v : Variant) (wrap : WrapCount) (bs : List Byte) :
    ∃ buf, runInstrs (encodeInstrs v wrap bs) s =
      .next (withPending buf 0
        (closeMessage (emitAll (messageSymbols s.cfg.alphabet v bs) (messageStart v wrap s)))) := by
  have start : exec (.encStart v wrap) s = .next (messageStart v wrap s) := rfl
  obtain ⟨buf, hrun⟩ := runInstrs_encBytes_encEnd bs (s := messageStart v wrap s) rfl (pre := []) rfl
  exact ⟨buf, (runInstrs_cons_next start).trans hrun⟩

/-- What `encode V, wrap, bs` appends to `SYM_OUT`, in every state (R87, R95, R128). -/
theorem encode_appends_messageOutput (s : State) (v : Variant) (wrap : WrapCount) (bs : List Byte) :
    ∃ t, runInstrs (encodeInstrs v wrap bs) s = .next t ∧
      t.symOut = s.symOut ++ messageOutput s.cfg.toConfig v wrap.toNat bs := by
  obtain ⟨buf, hrun⟩ := runInstrs_encodeInstrs s v wrap bs
  exact ⟨_, hrun, closeMessage_emitAll_symOut (s := messageStart v wrap s) _ rfl⟩

end Sys2Proof.Machine
end

section
/-! SUPPORT. The line breaks of a wrapped message (30_encoding.md R91, 42_encoder.md R128, R129): where no symbol is the
line break, deleting the breaks gives the symbols, and there are as many breaks as full lines. -/

namespace Sys2Proof.Machine

/-- The line break is no symbol (R98). -/
theorem lbCp_not_mem_messageSymbols (c : AdmittedConfig) (v : Variant) (bs : List Byte) :
    c.lbCp ∉ messageSymbols c.alphabet v bs := fun h =>
  c.meetsR98.facts.notWs _ (messageSymbols_subset_words _ _ _ h) c.meetsR98.facts.lbIsWs

section
variable {lb : CodePoint} {syms : List CodePoint} (noBreak : lb ∉ syms)
include noBreak

theorem filter_eq_self_of_no_break : syms.filter (fun cp => cp != lb) = syms :=
  List.filter_eq_self.2 fun cp h => by simpa using ne_of_mem_of_not_mem h noBreak

/-- Deleting the line breaks gives the symbols (R129). -/
theorem breakLines_filter (w col : Nat) : (breakLines lb w col syms).filter (fun cp => cp != lb) = syms := by
  induction syms generalizing col with
  | nil => rfl
  | cons cp syms ih =>
    simp only [List.mem_cons, not_or] at noBreak
    have hcp : (cp != lb) = true := by simpa using Ne.symm noBreak.1
    by_cases hfull : col + 1 = w <;> simp [breakLines, hfull, hcp, ih noBreak.2]

/-- As many line breaks as full lines, the open line of `col` symbols counted in (R128). -/
theorem breakLines_count {w col : Nat} (hcol : col < w) :
    (breakLines lb w col syms).count lb = (col + syms.length) / w := by
  induction syms generalizing col with
  | nil => simp [breakLines, Nat.div_eq_of_lt hcol]
  | cons cp syms ih =>
    simp only [List.mem_cons, not_or] at noBreak
    have hcp : cp ≠ lb := Ne.symm noBreak.1
    by_cases hfull : col + 1 = w
    · have hlen : col + (cp :: syms).length = syms.length + w := by simp; omega
      rw [hlen, Nat.add_div_right _ (by omega)]
      simp [breakLines, hfull, List.count_cons_of_ne hcp, ih noBreak.2 (col := 0) (by omega)]
    · have hlen : col + (cp :: syms).length = col + 1 + syms.length := by simp; omega
      rw [hlen, ← ih noBreak.2 (by omega)]
      simp [breakLines, hfull, List.count_cons_of_ne hcp]

end

section
variable {c : Config} {syms : List CodePoint} (noBreak : c.lbCp ∉ syms)
include noBreak

/-- Deleting the line breaks of a wrapped message gives its symbols (R129). -/
theorem wrapSymbols_filter (w : Nat) : (wrapSymbols c w syms).filter (fun cp => cp != c.lbCp) = syms := by
  by_cases hw : w = 0
  · simp only [wrapSymbols, hw, if_true, filter_eq_self_of_no_break noBreak]
  · have final : ([c.lbCp].filter fun cp => cp != c.lbCp) = [] := by simp
    simp only [wrapSymbols, hw, if_false, List.filter_append, breakLines_filter noBreak]
    split_ifs <;> simp [final]

theorem wrapSymbols_count_unwrapped : (wrapSymbols c 0 syms).count c.lbCp = 0 := by
  simpa [wrapSymbols] using List.count_eq_zero.2 noBreak

/-- Without the final line break, one break for each full line (R91). -/
theorem wrapSymbols_count_of_not_finalLb {w : Nat} (hw : 0 < w) (hf : c.finalLb = false) :
    (wrapSymbols c w syms).count c.lbCp = syms.length / w := by
  simp [wrapSymbols, hw.ne', hf, breakLines_count noBreak hw]

/-- With it, one break for each line, an incomplete last line among them (R91). -/
theorem wrapSymbols_count_of_finalLb {w : Nat} (hw : 0 < w) (hf : c.finalLb = true) :
    (wrapSymbols c w syms).count c.lbCp = (syms.length + w - 1) / w := by
  have count : (wrapSymbols c w syms).count c.lbCp = syms.length / w + if syms.length % w ≠ 0 then 1 else 0 := by
    by_cases hmod : syms.length % w = 0 <;> simp [wrapSymbols, hw.ne', hf, hmod, breakLines_count noBreak hw]
  rw [count]
  cases hlen : syms.length with
  | zero => simp [Nat.div_eq_of_lt (Nat.sub_one_lt hw.ne')]
  | succ n =>
    rw [show n + 1 + w - 1 = n + w by omega, Nat.add_div_right n hw, Nat.succ_div]
    by_cases hdvd : w ∣ n + 1 <;> simp [hdvd, ← Nat.dvd_iff_mod_eq_zero]

end

/-- The table of R90 for V1: a partial group is filled to four symbols. -/
theorem symbolCount_V1_rest {r : Nat} (hr : r < 5) : symbolCount .V1 r = if r = 0 then 0 else 4 := by
  interval_cases r <;> rfl

/-- The table of R90 for V2. -/
theorem symbolCount_V2_rest {r : Nat} (hr : r < 5) : some (symbolCount .V2 r) = ([0, 2, 3, 4, 4] : List Nat)[r]? := by
  interval_cases r <;> rfl

theorem symbolCount_V1_eq (L : Nat) : symbolCount .V1 L = 4 * (L / 5) + if L % 5 = 0 then 0 else 4 := by
  rw [symbolCount_eq_groups_add_rest, symbolCount_V1_rest (Nat.mod_lt L (by omega))]

theorem symbolCount_V1_eq_ceil (L : Nat) : symbolCount .V1 L = 4 * ((L + 4) / 5) := by
  rw [symbolCount_V1_eq]
  split_ifs <;> omega

theorem symbolCount_V2_eq (L : Nat) :
    some (symbolCount .V2 L) = ([0, 2, 3, 4, 4] : List Nat)[L % 5]?.map (4 * (L / 5) + ·) := by
  rw [symbolCount_eq_groups_add_rest, ← symbolCount_V2_rest (Nat.mod_lt L (by omega)), Option.map_some]

/-- Settles O32: the run appends the message of the rules (`encode_appends_messageOutput`), whose symbols number
`symbolCount` (`messageSymbols_length`) and whose breaks are counted line by line (`breakLines_count`). -/
theorem encodeEmitsTheTabledCounts : Obligations.EncodeEmitsTheTabledCounts := by
  refine ⟨fun s v wrap bs => ?_, symbolCount_V1_eq, symbolCount_V1_eq_ceil, symbolCount_V2_eq⟩
  obtain ⟨t, hrun, hout⟩ := encode_appends_messageOutput s v wrap bs
  have noBreak := lbCp_not_mem_messageSymbols s.cfg v bs
  have hlen := messageSymbols_length s.cfg.alphabet v bs
  refine ⟨t, _, hrun, hout, ?_, fun hw => ?_, fun hw hf => ?_, fun hw hf => ?_⟩
  · rw [messageOutput, wrapSymbols_filter noBreak, hlen]
  · rw [hw]
    exact wrapSymbols_count_unwrapped noBreak
  · rw [messageOutput, wrapSymbols_count_of_finalLb noBreak (wrapCount_pos hw) hf, hlen]
  · rw [messageOutput, wrapSymbols_count_of_not_finalLb noBreak (wrapCount_pos hw) hf, hlen]

end Sys2Proof.Machine
end

section
/-! SUPPORT. The decoder taken apart once (30_encoding.md R81): a path for each row of the opcode map and for each kind of
illegal word, with the fields that lead to it. -/

namespace Sys2Proof

theorem field_opcode (w : CmdWord) : (field w 28 4).toNat = w.toNat / 2 ^ 28 := by
  have := w.isLt
  rw [field_toNat]
  omega

/-- The paths of `Decode(w)`, each with its opcode, under opcode 0x7 with its sub-form, and with its answer. -/
inductive DecodePath (w : CmdWord) : Except Illegal Instr → Prop
  | encStart (op : w.toNat / 2 ^ 28 = 0x1) :
      DecodePath w (whenMbz (field w 24 3 == 0#3) (.encStart (variantOfBit (w.getLsbD 27)) (field w 0 24)))
  | encByte (op : w.toNat / 2 ^ 28 = 0x2) :
      DecodePath w (whenMbz (field w 8 20 == 0#20) (.encByte (field w 0 8)))
  | encEnd (op : w.toNat / 2 ^ 28 = 0x3) : DecodePath w (whenMbz (field w 0 28 == 0#28) .encEnd)
  | decStart (op : w.toNat / 2 ^ 28 = 0x4) : DecodePath w (whenMbz (field w 0 28 == 0#28) .decStart)
  | decSym (op : w.toNat / 2 ^ 28 = 0x5) :
      DecodePath w (whenMbz (field w 21 7 == 0#7) (.decSym (field w 0 21)))
  | decEnd (op : w.toNat / 2 ^ 28 = 0x6) : DecodePath w (whenMbz (field w 0 28 == 0#28) .decEnd)
  | mapMbz (op : w.toNat / 2 ^ 28 = 0x7) (mbz : field w 10 15 ≠ 0#15) : DecodePath w (.error .mbzBitSet)
  | mapMain (op : w.toNat / 2 ^ 28 = 0x7) (mbz : field w 10 15 = 0#15) (tsel : w.toNat / 2 ^ 25 % 4 = 0) :
      DecodePath w (.ok (.mapMain (variantOfBit (w.getLsbD 27)) (field w 0 10)))
  | mapTail (op : w.toNat / 2 ^ 28 = 0x7) (mbz : field w 10 15 = 0#15) (tsel : w.toNat / 2 ^ 25 % 4 = 1) :
      DecodePath w (whenMbz (field w 2 8 == 0#8) (.mapTail (variantOfBit (w.getLsbD 27)) (field w 0 2)))
  | mapPad (op : w.toNat / 2 ^ 28 = 0x7) (mbz : field w 10 15 = 0#15) (tsel : w.toNat / 2 ^ 25 % 4 = 2) :
      DecodePath w (whenMbz (field w 27 1 == 0#1 && field w 0 10 == 0#10) .mapPad)
  | mapReserved (op : w.toNat / 2 ^ 28 = 0x7) (mbz : field w 10 15 = 0#15) (tsel : w.toNat / 2 ^ 25 % 4 = 3) :
      DecodePath w (.error .reservedTsel)
  | mapRev (op : w.toNat / 2 ^ 28 = 0x8) :
      DecodePath w (whenMbz (field w 21 7 == 0#7) (.mapRev (field w 0 21)))
  | clrCmdErr (op : w.toNat / 2 ^ 28 = 0x9) : DecodePath w (whenMbz (field w 0 28 == 0#28) .clrCmdErr)
  | reserved (op : w.toNat / 2 ^ 28 = 0x0 ∨ 0xA ≤ w.toNat / 2 ^ 28) : DecodePath w (.error .reservedOpcode)

theorem decodeMap_path {w : CmdWord} (op : w.toNat / 2 ^ 28 = 0x7) : DecodePath w (decodeMap w) := by
  unfold decodeMap
  split
  next mbz => exact .mapMbz op mbz
  next mbz =>
    rw [not_not] at mbz
    have lt := Nat.mod_lt (w.toNat / 2 ^ 25) (show 0 < 2 ^ 2 by decide)
    rw [field_toNat]
    split
    next tsel => exact .mapMain op mbz tsel
    next tsel => exact .mapTail op mbz tsel
    next tsel => exact .mapPad op mbz tsel
    next ne0 ne1 ne2 => exact .mapReserved op mbz (by simp only [imp_false] at ne0 ne1 ne2; omega)

theorem decode_path (w : CmdWord) : DecodePath w (decode w) := by
  unfold decode
  rw [field_opcode]
  split
  next op => exact .encStart op
  next op => exact .encByte op
  next op => exact .encEnd op
  next op => exact .decStart op
  next op => exact .decSym op
  next op => exact .decEnd op
  next op => exact decodeMap_path op
  next op => exact .mapRev op
  next op => exact .clrCmdErr op
  next => exact .reserved (by simp only [imp_false] at *; omega)

theorem decode_reserved {w : CmdWord} (op : w.toNat / 2 ^ 28 = 0x0 ∨ 0xA ≤ w.toNat / 2 ^ 28) :
    decode w = .error .reservedOpcode := by
  have path := decode_path w
  generalize decode w = answer at path ⊢
  cases path with
  | reserved => rfl
  | _ => omega

theorem whenMbz_isError {z : Bool} {i : Instr} : (∃ e, whenMbz z i = .error e) ↔ z = false := by
  simp [whenMbz_eq_error]

/-! ## Masks -/

/-- The mask of the `len` bits at bit `lo`. -/
def fieldMask (lo len : Nat) : CmdWord := (BitVec.allOnes len).setWidth 32 <<< lo

theorem getLsbD_fieldMask {lo len j : Nat} (hj : j < 32) :
    (fieldMask lo len).getLsbD j = decide (lo ≤ j ∧ j < lo + len) := by
  by_cases h : lo ≤ j
  · have shift : j - lo < len ↔ j < lo + len := by omega
    simp [fieldMask, h, hj, shift]
  · simp [fieldMask, h, hj]

/-- A word has no bit under the mask exactly when the field is zero. -/
theorem and_fieldMask_eq_zero (w : CmdWord) {lo len : Nat} (h : lo + len ≤ 32) :
    w &&& fieldMask lo len = 0#32 ↔ field w lo len = 0#len := by
  simp only [BitVec.eq_of_getLsbD_eq_iff, BitVec.getLsbD_and, BitVec.getLsbD_zero, field, BitVec.getLsbD_extractLsb',
    Bool.and_eq_false_iff, decide_eq_false_iff_not]
  constructor
  · intro masked i hi
    have hj : lo + i < 32 := by omega
    simpa [getLsbD_fieldMask hj, hi] using masked (lo + i) hj
  · intro zero j hj
    by_cases hin : lo ≤ j ∧ j < lo + len
    · obtain ⟨i, rfl⟩ := Nat.exists_eq_add_of_le hin.1
      have hi : i < len := by omega
      exact .inl (by simpa [hi] using zero i hi)
    · simp [getLsbD_fieldMask hj, hin]

theorem and_or_eq_zero (w m n : CmdWord) : w &&& (m ||| n) = 0#32 ↔ w &&& m = 0#32 ∧ w &&& n = 0#32 := by
  rw [BitVec.and_or_distrib_left, BitVec.or_eq_zero_iff]

end Sys2Proof
end

section
/-! SUPPORT. The opcode map (30_encoding.md R80). -/

namespace Sys2Proof

/-- Where one word fits two rows, the matches agree on every bit that both masks fix. -/
theorem matches_agree_of_fit {w : CmdWord} {r q : OpcodeRow} (hr : w &&& r.maskBits = r.matchBits)
    (hq : w &&& q.maskBits = q.matchBits) :
    (r.matchBits ^^^ q.matchBits) &&& r.maskBits &&& q.maskBits = 0#32 := by
  rw [← hr, ← hq]
  refine BitVec.eq_of_getLsbD_eq fun j hj => ?_
  simp only [BitVec.getLsbD_and, BitVec.getLsbD_xor, BitVec.getLsbD_zero]
  cases w.getLsbD j <;> cases r.maskBits.getLsbD j <;> cases q.maskBits.getLsbD j <;> rfl

/-- Any two rows differ on a bit that both masks fix (R80). -/
theorem opcodeMap_apart :
    opcodeMap.Pairwise (fun r q => (r.matchBits ^^^ q.matchBits) &&& r.maskBits &&& q.maskBits ≠ 0#32) := by
  decide

theorem eq_of_fit_both {w : CmdWord} {r q : OpcodeRow} (hr : r ∈ opcodeMap) (hq : q ∈ opcodeMap)
    (fr : w &&& r.maskBits = r.matchBits) (fq : w &&& q.maskBits = q.matchBits) : r = q := by
  by_contra hne
  have apart : opcodeMap.Pairwise fun r q => ¬ (w &&& r.maskBits = r.matchBits ∧ w &&& q.maskBits = q.matchBits) :=
    opcodeMap_apart.imp fun ne ⟨fr, fq⟩ => ne (matches_agree_of_fit fr fq)
  have symm : Std.Symm fun r q : OpcodeRow =>
      ¬ (w &&& r.maskBits = r.matchBits ∧ w &&& q.maskBits = q.matchBits) := ⟨fun _ _ h ⟨fq, fr⟩ => h ⟨fr, fq⟩⟩
  exact apart.forall hr hq hne ⟨fr, fq⟩

/-- Settles O3: the rows are checked pair by pair (`opcodeMap_apart`); two rows that one word fits would agree on the bits
both masks fix (`matches_agree_of_fit`). -/
theorem opcodeRowsNeverOverlap : Obligations.OpcodeRowsNeverOverlap :=
  ⟨rfl, opcodeMap_apart, fun _ _ _ => eq_of_fit_both, fun _ => decode_reserved⟩

end Sys2Proof
end

section
/-! SUPPORT. Operands and illegal words (30_encoding.md R82, R83). -/

namespace Sys2Proof

open Sys2Proof.Machine

theorem variantOfBit_eq_V2 (w : CmdWord) (k : Nat) :
    variantOfBit (w.getLsbD k) = .V2 ↔ w.toNat / 2 ^ k % 2 = 1 := by
  rw [bit_eq]
  by_cases h : w.toNat / 2 ^ k % 2 = 1 <;> simp [variantOfBit, h]

theorem field_zero_toNat (w : CmdWord) (len : Nat) : (field w 0 len).toNat = w.toNat % 2 ^ len := by
  rw [field_toNat, Nat.pow_zero, Nat.div_one]

/-- Format C as the word R83 writes out: the operand is the word's low 21 bits. -/
theorem formatC_eq_or (op : BitVec 4) (cp : CodePoint) : formatC op cp = formatN op ||| cp.zeroExtend 32 := by
  apply BitVec.eq_of_toNat_eq
  have lt : cp.toNat < 2 ^ 28 := by have := cp.isLt; omega
  have keep : (cp.zeroExtend 32).toNat = cp.toNat := by
    have := cp.isLt
    simp only [BitVec.truncate_eq_setWidth, BitVec.toNat_setWidth]
    omega
  rw [BitVec.toNat_or, keep, formatC_toNat, formatN_toNat, ← Nat.shiftLeft_eq, Nat.shiftLeft_add_eq_or_of_lt lt]

theorem field_formatC (op : BitVec 4) (cp : CodePoint) :
    (formatC op cp).toNat / 2 ^ 28 = op.toNat ∧ field (formatC op cp) 21 7 = 0#7 ∧
      field (formatC op cp) 0 21 = cp := by
  have := op.isLt
  have := cp.isLt
  simp only [field_eq_iff, formatC_toNat, BitVec.toNat_ofNat]
  omega

theorem decode_decSym_word (cp : CodePoint) : decode (formatC 0x5#4 cp) = .ok (.decSym cp) := by
  obtain ⟨op, mbz, operand⟩ := field_formatC 0x5#4 cp
  rw [decode, field_opcode, op]
  simp [mbz, operand, whenMbz]

theorem decode_mapRev_word (cp : CodePoint) : decode (formatC 0x8#4 cp) = .ok (.mapRev cp) := by
  obtain ⟨op, mbz, operand⟩ := field_formatC 0x8#4 cp
  rw [decode, field_opcode, op]
  simp [mbz, operand, whenMbz]

/-- Settles O5: each path of the decoder takes its operands from the fields (`decode_path`). -/
theorem operandsAreTheWordsFields : Obligations.OperandsAreTheWordsFields := by
  refine ⟨fun w i hi => ?_, fun cp => ⟨?_, ?_⟩, fun c cp above mem => ?_⟩
  · have path := decode_path w
    rw [hi] at path
    generalize hr : (Except.ok i : Except Illegal Instr) = answer at path
    cases path with
    | encStart op =>
      obtain ⟨-, rfl⟩ := whenMbz_eq_ok.1 hr.symm
      exact ⟨field_zero_toNat w 24, variantOfBit_eq_V2 w 27⟩
    | mapMain op mbz tsel =>
      cases hr
      exact ⟨field_zero_toNat w 10, variantOfBit_eq_V2 w 27⟩
    | mapTail op mbz tsel =>
      obtain ⟨-, rfl⟩ := whenMbz_eq_ok.1 hr.symm
      exact ⟨field_zero_toNat w 2, variantOfBit_eq_V2 w 27⟩
    | encByte op =>
      obtain ⟨-, rfl⟩ := whenMbz_eq_ok.1 hr.symm
      exact field_zero_toNat w 8
    | decSym op | mapRev op =>
      obtain ⟨-, rfl⟩ := whenMbz_eq_ok.1 hr.symm
      exact field_zero_toNat w 21
    | encEnd op | decStart op | decEnd op | clrCmdErr op | mapPad op mbz tsel =>
      obtain ⟨-, rfl⟩ := whenMbz_eq_ok.1 hr.symm
      trivial
    | mapMbz op mbz | mapReserved op mbz tsel | reserved op => cases hr
  · exact (congrArg decode (formatC_eq_or 0x5#4 cp)).symm.trans (decode_decSym_word cp)
  · exact (congrArg decode (formatC_eq_or 0x8#4 cp)).symm.trans (decode_mapRev_word cp)
  · exact absurd (c.meetsR98.facts.unicode cp mem) (by omega)

/-- The words R82 lists as illegal, by the fields that must be zero. -/
theorem decode_isError_iff (w : CmdWord) :
    (∃ e, decode w = .error e) ↔
      (w.toNat / 2 ^ 28 = 0x0 ∨ 0xA ≤ w.toNat / 2 ^ 28) ∨
      (w.toNat / 2 ^ 28 = 0x1 ∧ field w 24 3 ≠ 0#3) ∨
      (w.toNat / 2 ^ 28 = 0x2 ∧ field w 8 20 ≠ 0#20) ∨
      ((w.toNat / 2 ^ 28 = 0x3 ∨ w.toNat / 2 ^ 28 = 0x4 ∨ w.toNat / 2 ^ 28 = 0x6 ∨ w.toNat / 2 ^ 28 = 0x9) ∧
        field w 0 28 ≠ 0#28) ∨
      ((w.toNat / 2 ^ 28 = 0x5 ∨ w.toNat / 2 ^ 28 = 0x8) ∧ field w 21 7 ≠ 0#7) ∨
      (w.toNat / 2 ^ 28 = 0x7 ∧
        (field w 10 15 ≠ 0#15 ∨ (w.toNat / 2 ^ 25 % 4 = 1 ∧ field w 2 8 ≠ 0#8) ∨
         (w.toNat / 2 ^ 25 % 4 = 2 ∧ ¬(field w 27 1 = 0#1 ∧ field w 0 10 = 0#10)) ∨
         w.toNat / 2 ^ 25 % 4 = 3)) := by
  have path := decode_path w
  generalize decode w = answer at path ⊢
  cases path with
  | reserved op => exact iff_of_true ⟨_, rfl⟩ (.inl op)
  | mapMbz op mbz => rw [op]; simp [mbz]
  | mapMain op mbz tsel | mapReserved op mbz tsel => rw [op, tsel]; simp [mbz]
  | mapTail op mbz tsel | mapPad op mbz tsel => rw [op, tsel]; simp [mbz, whenMbz_isError]
  | encStart op | encByte op | encEnd op | decStart op | decSym op | decEnd op | mapRev op | clrCmdErr op =>
    rw [op]
    simp [whenMbz_isError]

/-! The must-be-zero bits of each format as a mask (R75 to R79). -/

theorem mbz_formatN (w : CmdWord) : w &&& 0x0FFFFFFF#32 = 0#32 ↔ field w 0 28 = 0#28 :=
  and_fieldMask_eq_zero w (lo := 0) (len := 28) (by decide)

theorem mbz_formatS (w : CmdWord) : w &&& 0x07000000#32 = 0#32 ↔ field w 24 3 = 0#3 :=
  and_fieldMask_eq_zero w (lo := 24) (len := 3) (by decide)

theorem mbz_formatB (w : CmdWord) : w &&& 0x0FFFFF00#32 = 0#32 ↔ field w 8 20 = 0#20 :=
  and_fieldMask_eq_zero w (lo := 8) (len := 20) (by decide)

theorem mbz_formatC (w : CmdWord) : w &&& 0x0FE00000#32 = 0#32 ↔ field w 21 7 = 0#7 :=
  and_fieldMask_eq_zero w (lo := 21) (len := 7) (by decide)

theorem mbz_formatM (w : CmdWord) : w &&& 0x01FFFC00#32 = 0#32 ↔ field w 10 15 = 0#15 :=
  and_fieldMask_eq_zero w (lo := 10) (len := 15) (by decide)

theorem mbz_mapTail (w : CmdWord) : w &&& 0x000003FC#32 = 0#32 ↔ field w 2 8 = 0#8 :=
  and_fieldMask_eq_zero w (lo := 2) (len := 8) (by decide)

theorem mbz_mapPad (w : CmdWord) : w &&& 0x080003FF#32 = 0#32 ↔ field w 27 1 = 0#1 ∧ field w 0 10 = 0#10 :=
  (and_or_eq_zero w (fieldMask 27 1) (fieldMask 0 10)).trans
    (and_congr (and_fieldMask_eq_zero w (by decide)) (and_fieldMask_eq_zero w (by decide)))

theorem illegalCommand_eq (w : CmdWord) (s : State) :
    illegalCommand w s = if s.cmdErr = .none then { s with cmdErr := .illegalCmd, cmdErrWord := w } else s :=
  cmdError_eq _ _ _

/-- Settles O6: the paths of the decoder that answer no command (`decode_isError_iff`), with the must-be-zero fields read
as masks; executing such a word is `illegalCommand`. -/
theorem illegalWordsAreExactlyTheListedOnes : Obligations.IllegalWordsAreExactlyTheListedOnes := by
  refine fun w => ⟨?_, fun e s he => ?_⟩
  · simp only [ne_eq, mbz_formatN, mbz_formatS, mbz_formatB, mbz_formatC, mbz_formatM, mbz_mapTail, mbz_mapPad]
    exact decode_isError_iff w
  · simp only [applyCommand, he, illegalCommand_eq]

end Sys2Proof
end

section
/-! SUPPORT. `Classify` under R98 (40_alphabet_mapper.md R100): an equation for each table and set a code point can stand
in, and their converse. -/

namespace Sys2Proof.Machine

/-- What a class says of a code point: the entry it is, or the set it stands in (R100). -/
def StandsIn (c : Config) (cp : CodePoint) : CpClass → Prop
  | .main v i => c.alphabet.main v i = cp
  | .tail v t => c.alphabet.tail v t = cp
  | .pad => cp = c.alphabet.pad
  | .ws => cp ∈ c.wsSet
  | .invalid => cp ∉ c.alphabet.words ∧ cp ∉ c.wsSet

/-- On any configuration the answer of `Classify` is true of the code point. -/
theorem standsIn_classify (c : Config) (cp : CodePoint) : StandsIn c cp (classify c cp) := by
  rcases classify_cases c cp with ⟨v, i, h, e⟩ | ⟨v, t, h, e⟩ | ⟨h, e⟩ | ⟨h, -, e⟩ | ⟨h, e⟩ <;> rw [h] <;> exact e

theorem classify_main {c : Config} (h : c.Admitted) (v : Variant) (i : Chunk) :
    classify c (c.alphabet.main v i) = .main v i := by
  have symbol := main_mem_words c.alphabet v i
  rcases classify_cases c (c.alphabet.main v i) with
    ⟨w, j, hc, e⟩ | ⟨w, t, -, e⟩ | ⟨-, e⟩ | ⟨-, no, -⟩ | ⟨-, no, -⟩
  · obtain rfl := h.facts.mainOne _ _ _ _ e
    obtain rfl := h.facts.mainInj _ _ _ e
    exact hc
  · exact absurd e.symm (h.facts.mainNotTail v w i t)
  · exact absurd e (h.facts.padNotMain v i)
  · exact absurd symbol no
  · exact absurd symbol no

theorem classify_tail {c : Config} (h : c.Admitted) (v : Variant) (t : TailIdx) :
    classify c (c.alphabet.tail v t) = .tail v t := by
  have symbol := tail_mem_words c.alphabet v t
  rcases classify_cases c (c.alphabet.tail v t) with
    ⟨w, j, -, e⟩ | ⟨w, u, hc, e⟩ | ⟨-, e⟩ | ⟨-, no, -⟩ | ⟨-, no, -⟩
  · exact absurd e (h.facts.mainNotTail w v j t)
  · obtain rfl := h.facts.tailOne _ _ _ _ e
    obtain rfl := h.facts.tailInj _ _ _ e
    exact hc
  · exact absurd e (h.facts.padNotTail v t)
  · exact absurd symbol no
  · exact absurd symbol no

theorem classify_pad {c : Config} (h : c.Admitted) : classify c c.alphabet.pad = .pad := by
  have symbol := pad_mem_words c.alphabet
  rcases classify_cases c c.alphabet.pad with
    ⟨v, i, -, e⟩ | ⟨v, t, -, e⟩ | ⟨hc, -⟩ | ⟨-, no, -⟩ | ⟨-, no, -⟩
  · exact absurd e (h.facts.padNotMain v i)
  · exact absurd e (h.facts.padNotTail v t)
  · exact hc
  · exact absurd symbol no
  · exact absurd symbol no

/-- Outside the ROM the whitespace set alone decides, on any configuration. -/
theorem classify_of_not_mem_words {c : Config} {cp : CodePoint} (no : cp ∉ c.alphabet.words) :
    classify c cp = if cp ∈ c.wsSet then .ws else .invalid := by
  rcases classify_cases c cp with ⟨v, i, -, rfl⟩ | ⟨v, t, -, rfl⟩ | ⟨-, rfl⟩ | ⟨hc, -, ws⟩ | ⟨hc, -, ws⟩
  · exact absurd (main_mem_words _ v i) no
  · exact absurd (tail_mem_words _ v t) no
  · exact absurd (pad_mem_words _) no
  · rw [hc, if_pos ws]
  · rw [hc, if_neg ws]

theorem classify_whitespace {c : Config} (h : c.Admitted) {cp : CodePoint} (ws : cp ∈ c.wsSet) :
    classify c cp = .ws := by
  rw [classify_of_not_mem_words fun symbol => h.facts.notWs cp symbol ws, if_pos ws]

/-- Under R98 the class is the only one that is true of the code point, whatever the order of the tests (R100). -/
theorem classify_eq_iff {c : Config} (h : c.Admitted) (cp : CodePoint) (k : CpClass) :
    classify c cp = k ↔ StandsIn c cp k := by
  refine ⟨fun hk => hk ▸ standsIn_classify c cp, fun hk => ?_⟩
  cases k with
  | main v i => exact hk ▸ classify_main h v i
  | tail v t => exact hk ▸ classify_tail h v t
  | pad => exact (congrArg (classify c) hk).trans (classify_pad h)
  | ws => exact classify_whitespace h hk
  | invalid => rw [classify_of_not_mem_words hk.1, if_neg hk.2]

/-- Settles O16: the address laws of the ROM, and `Classify` at each entry. -/
theorem forwardLookupsInvertClassify : Obligations.ForwardLookupsInvertClassify := fun c =>
  ⟨fun v i => ⟨romRead_mainAddr c.alphabet v i, classify_main c.meetsR98 v i⟩,
   fun v t => ⟨romRead_tailAddr c.alphabet v t, classify_tail c.meetsR98 v t⟩,
   romRead_padAddr c.alphabet, classify_pad c.meetsR98⟩

/-- Settles O17: each clause is `classify_eq_iff` at its class; above 0x10FFFF the class is `INVALID`
(`classify_above_unicode`), which says that the code point stands nowhere. -/
theorem classifyMeansMembership : Obligations.ClassifyMeansMembership := by
  intro c cp
  have classIff := classify_eq_iff c.meetsR98 cp
  refine ⟨fun v i => classIff (.main v i), fun v t => classIff (.tail v t), classIff .pad, classIff .ws,
    classIff .invalid, fun above => ?_⟩
  have invalid := classify_above_unicode c.meetsR98 above
  obtain ⟨noSymbol, noWs⟩ := (classIff .invalid).1 invalid
  exact ⟨noSymbol, noWs, invalid⟩

end Sys2Proof.Machine
end

section
/-! SUPPORT. The result words of the mapper (40_alphabet_mapper.md R107, R109), as numbers and as the words the rules write
out. -/

namespace Sys2Proof.Machine

/-- R109 as a number: the code at weight 2^29, the variant at 2^28, and the index. -/
theorem revWord_toNat (c : CpClass) :
    (revWord c).toNat =
      (classCode c).toNat * 2 ^ 29 + (classVariantBit c).toNat * 2 ^ 28 + (classIndex c).toNat := by
  simp only [revWord, append_toNat, BitVec.toNat_ofNat]
  omega

/-- The fields of R109: every value is below the weight of the field above it. -/
theorem revWord_fields (c : CpClass) :
    (revWord c).extractLsb' 29 3 = classCode c ∧ (revWord c).extractLsb' 28 1 = classVariantBit c ∧
      (revWord c).extractLsb' 10 18 = 0#18 := by
  have := (classCode c).isLt
  have := (classVariantBit c).isLt
  have := (classIndex c).isLt
  refine ⟨?_, ?_, ?_⟩ <;> apply BitVec.eq_of_toNat_eq <;>
    simp only [extract_toNat, revWord_toNat, BitVec.toNat_ofNat] <;> omega

/-- R109 as the word it writes out: the three fields shifted to their places, bit by bit. -/
theorem revWord_eq_or (c : CpClass) :
    revWord c =
      ((classCode c).zeroExtend 32 <<< 29) ||| ((classVariantBit c).zeroExtend 32 <<< 28) |||
        (classIndex c).zeroExtend 32 := by
  rw [revWord]
  ext j hj
  grind

theorem classCode_le (c : CpClass) : (classCode c).toNat ≤ 4 := by
  cases c <;> simp [classCode]

theorem revWord_main (v : Variant) (i : Chunk) :
    revWord (.main v i) = (1#32 <<< 29) ||| ((variantBit v).zeroExtend 32 <<< 28) ||| i.zeroExtend 32 :=
  revWord_eq_or _

theorem revWord_tail (v : Variant) (t : TailIdx) :
    revWord (.tail v t) = (2#32 <<< 29) ||| ((variantBit v).zeroExtend 32 <<< 28) ||| t.zeroExtend 32 := by
  have widen : (t.zeroExtend 10).zeroExtend 32 = t.zeroExtend 32 := BitVec.setWidth_setWidth (by decide)
  rw [← widen]
  exact revWord_eq_or _

/-- Settles O18: the fields by `revWord_fields`, the words by `revWord_eq_or`; the codes are the definition's own
(R102). -/
theorem revWordPacksTheClass : Obligations.RevWordPacksTheClass := by
  refine ⟨fun c => ?_, rfl, fun _ _ => rfl, fun _ _ => rfl, rfl, rfl, revWord_main, revWord_tail, rfl, rfl, rfl⟩
  obtain ⟨code, variant, gap⟩ := revWord_fields c
  exact ⟨code, variant, gap, classCode_le c⟩

/-- The layout of R107: a code point widened to 32 bits. -/
theorem codePoint_zeroExtend_fields (cp : CodePoint) :
    (cp.zeroExtend 32).extractLsb' 0 21 = cp ∧ (cp.zeroExtend 32).extractLsb' 21 11 = 0#11 := by
  have := cp.isLt
  constructor <;> apply BitVec.eq_of_toNat_eq <;>
    simp only [extract_toNat, BitVec.truncate_eq_setWidth, BitVec.toNat_setWidth, BitVec.toNat_ofNat] <;> omega

/-- Settles O19: the effect of each lookup, whose word is laid out by `codePoint_zeroExtend_fields`. -/
theorem mapLookupsWriteTheCodePoint : Obligations.MapLookupsWriteTheCodePoint := fun s =>
  ⟨fun v i => ⟨_, execMapMain_eq v i s, codePoint_zeroExtend_fields _⟩,
   fun v t => ⟨_, execMapTail_eq v t s, codePoint_zeroExtend_fields _⟩,
   ⟨_, execMapPad_eq s, codePoint_zeroExtend_fields _⟩⟩

end Sys2Proof.Machine
end

section
/-! SUPPORT. The pack and unpack functions against each other (41_bitpacker.md R110 to R117). Both cut words in two and put
the halves of neighbours together, so each undoes the other by rejoining the halves. -/

namespace Sys2Proof.Machine

/-- A word is its high `m` bits followed by its low `k` bits. -/
theorem extract_append_extract {m k : Nat} (x : BitVec (m + k)) : x.extractLsb' k m ++ x.extractLsb' 0 k = x :=
  (BitVec.extractLsb'_append_extractLsb'_eq_extractLsb' (Nat.zero_add k).symm).trans BitVec.extractLsb'_eq_self

/-- A word cut in two, its halves between other bits: taken out and put together again, they are the word. -/
theorem split_halves_append {p m k r : Nat} (before : BitVec p) (x : BitVec (m + k)) (after : BitVec r) :
    (before ++ x.extractLsb' k m).extractLsb' 0 m ++ (x.extractLsb' 0 k ++ after).extractLsb' r k = x := by
  rw [BitVec.extractLsb'_append_eq_right, BitVec.extractLsb'_append_eq_left, extract_append_extract]

/-! Each byte comes back, whatever bits follow its own in the last chunk it reaches: the next byte's, or padding. -/

theorem unpackFirst_append (b : Byte) (after : BitVec 2) : unpackFirst (b ++ after) = b :=
  BitVec.extractLsb'_append_eq_left

theorem unpackSecond_packFirst (b0 b1 : Byte) (after : BitVec 4) :
    unpackSecond (packFirst b0 b1) (b1.extractLsb' 0 6 ++ after) = b1 :=
  split_halves_append (m := 2) (k := 6) b0 b1 after

theorem unpackThird_packSecond (b1 b2 : Byte) (after : BitVec 6) :
    unpackThird (packSecond b1 b2) (b2.extractLsb' 0 4 ++ after) = b2 :=
  split_halves_append (m := 4) (k := 4) (b1.extractLsb' 0 6) b2 after

theorem packThird_low_append (b2 b3 : Byte) : (packThird b2 b3).extractLsb' 0 6 ++ b3.extractLsb' 0 2 = b3 := by
  rw [packThird, BitVec.extractLsb'_append_eq_right]
  exact extract_append_extract (m := 6) (k := 2) b3

/-- The first three bytes of a group of at least four, from its first three chunks. -/
theorem unpack_packed (b0 b1 b2 b3 : Byte) :
    unpackFirst (packFirst b0 b1) = b0 ∧ unpackSecond (packFirst b0 b1) (packSecond b1 b2) = b1 ∧
      unpackThird (packSecond b1 b2) (packThird b2 b3) = b2 :=
  ⟨unpackFirst_append b0 _, unpackSecond_packFirst b0 b1 _, unpackThird_packSecond b1 b2 _⟩

/-- R117, the first law. -/
theorem unpack5_packed (b0 b1 b2 b3 b4 : Byte) :
    unpack5 (packFirst b0 b1) (packSecond b1 b2) (packThird b2 b3) (b3.extractLsb' 0 2 ++ b4) =
      [b0, b1, b2, b3, b4] := by
  obtain ⟨first, second, third⟩ := unpack_packed b0 b1 b2 b3
  rw [unpack5, first, second, third, BitVec.extractLsb'_append_eq_left, packThird_low_append,
    BitVec.extractLsb'_append_eq_right]

/-- R117, the third law. -/
theorem unpackTail_packed (b0 b1 b2 b3 : Byte) :
    unpackTail (packFirst b0 b1) (packSecond b1 b2) (packThird b2 b3) (b3.extractLsb' 0 2) = [b0, b1, b2, b3] := by
  obtain ⟨first, second, third⟩ := unpack_packed b0 b1 b2 b3
  rw [unpackTail, first, second, third, packThird_low_append]

/-- R117, the second law: the padding is what follows the last byte. -/
theorem unpackPad_packPartial :
    ∀ bs : List Byte, 1 ≤ bs.length → bs.length ≤ 3 → unpackPad (packPartial bs).1 = bs
  | [], nonempty, _ => absurd nonempty (by simp)
  | [b0], _, _ => by rw [packPartial, unpackPad, unpackFirst_append]
  | [b0, b1], _, _ => by
    rw [packPartial, unpackPad, unpackSecond_packFirst, packFirst, unpackFirst_append]
  | [b0, b1, b2], _, _ => by
    rw [packPartial, unpackPad, unpackThird_packSecond, packSecond, unpackSecond_packFirst, packFirst,
      unpackFirst_append]
  | _ :: _ :: _ :: _ :: _, _, short => absurd short (by simp)

/-- R117, the fourth law: each chunk is rejoined from the two bytes it is cut into. -/
theorem pack5_unpacked (c0 c1 c2 c3 : Chunk) :
    pack5 (unpackFirst c0) (unpackSecond c0 c1) (unpackThird c1 c2) (c2.extractLsb' 0 6 ++ c3.extractLsb' 8 2)
      (c3.extractLsb' 0 8) = (c0, c1, c2, c3) := by
  have first : packFirst (unpackFirst c0) (unpackSecond c0 c1) = c0 := by
    rw [packFirst, unpackSecond, BitVec.extractLsb'_append_eq_left]
    exact extract_append_extract (m := 8) (k := 2) c0
  have second : packSecond (unpackSecond c0 c1) (unpackThird c1 c2) = c1 :=
    split_halves_append (m := 6) (k := 4) (c0.extractLsb' 0 2) c1 (c2.extractLsb' 6 4)
  have third : packThird (unpackThird c1 c2) (c2.extractLsb' 0 6 ++ c3.extractLsb' 8 2) = c2 :=
    split_halves_append (m := 4) (k := 6) (c1.extractLsb' 0 4) c2 (c3.extractLsb' 8 2)
  rw [pack5_eq, first, second, third, BitVec.extractLsb'_append_eq_right]
  exact congrArg (fun c => (c0, c1, c2, c)) (extract_append_extract (m := 2) (k := 8) c3)

/-- A window is its four chunks, the first most significant (R59). -/
theorem windowChunk_append (w : BitVec 40) :
    windowChunk w 0 ++ windowChunk w 1 ++ windowChunk w 2 ++ windowChunk w 3 = w := by
  have two : windowChunk w 0 ++ windowChunk w 1 = w.extractLsb' 20 20 :=
    BitVec.extractLsb'_append_extractLsb'_eq_extractLsb' rfl
  have three : w.extractLsb' 20 20 ++ windowChunk w 2 = w.extractLsb' 10 30 :=
    BitVec.extractLsb'_append_extractLsb'_eq_extractLsb' rfl
  rw [two, three]
  exact extract_append_extract (m := 30) (k := 10) w

/-- R110 and R114: the chunks of a full group, first most significant, are its bytes, first most significant. -/
theorem pack5_append (b0 b1 b2 b3 b4 : Byte) :
    (pack5 b0 b1 b2 b3 b4).1 ++ (pack5 b0 b1 b2 b3 b4).2.1 ++ (pack5 b0 b1 b2 b3 b4).2.2.1 ++
      (pack5 b0 b1 b2 b3 b4).2.2.2 = b0 ++ b1 ++ b2 ++ b3 ++ b4 :=
  windowChunk_append (window5 b0 b1 b2 b3 b4)

theorem pack5_eq_append {b0 b1 b2 b3 b4 : Byte} {c0 c1 c2 c3 : Chunk}
    (packed : pack5 b0 b1 b2 b3 b4 = (c0, c1, c2, c3)) : b0 ++ b1 ++ b2 ++ b3 ++ b4 = c0 ++ c1 ++ c2 ++ c3 := by
  rw [← pack5_append, packed]

theorem unpack5_pack5 (b0 b1 b2 b3 b4 : Byte) :
    unpack5 (pack5 b0 b1 b2 b3 b4).1 (pack5 b0 b1 b2 b3 b4).2.1 (pack5 b0 b1 b2 b3 b4).2.2.1
      (pack5 b0 b1 b2 b3 b4).2.2.2 = [b0, b1, b2, b3, b4] := by
  rw [pack5_eq, unpack5_packed]

/-- Settles O21: the four laws of R117, and the bit order from `windowChunk_append`; the bytes of `Unpack5` have the order
of the chunks since packing them gives the chunks. -/
theorem unpackInvertsPack : Obligations.UnpackInvertsPack :=
  ⟨fun b0 b1 b2 b3 b4 => ⟨pack5_append b0 b1 b2 b3 b4, unpack5_pack5 b0 b1 b2 b3 b4⟩,
   unpackPad_packPartial,
   fun b0 b1 b2 b3 => ⟨_, _, _, _, rfl, unpackTail_packed b0 b1 b2 b3⟩,
   fun c0 c1 c2 c3 =>
    have packed := pack5_unpacked c0 c1 c2 c3
    ⟨_, _, _, _, _, rfl, pack5_eq_append packed, packed⟩⟩

/-- R112: as many chunks as bytes, the Tail index among them at four bytes only. -/
theorem packPartial_count :
    ∀ bs : List Byte, 1 ≤ bs.length → bs.length ≤ 4 →
      (packPartial bs).1.length + (packPartial bs).2.toList.length = bs.length ∧
      ((packPartial bs).2.isSome = true ↔ bs.length = 4)
  | [], nonempty, _ => absurd nonempty (by simp)
  | [_], _, _ => by simp [packPartial]
  | [_, _], _, _ => by simp [packPartial]
  | [_, _, _], _, _ => by simp [packPartial]
  | [_, _, _, _], _, _ => by simp [packPartial]
  | _ :: _ :: _ :: _ :: _ :: _, _, short => absurd short (by simp)

/-! R111: the chunks of a partial group in a row, as numbers. -/

theorem packPartial_two_append (b0 b1 : Byte) :
    packFirst b0 b1 ++ (b1.extractLsb' 0 6 ++ 0#4) = b0 ++ b1 ++ 0#4 := by
  apply BitVec.eq_of_toNat_eq
  simp only [append_toNat, packFirst_toNat, extract_toNat]
  omega

theorem packPartial_three_append (b0 b1 b2 : Byte) :
    packFirst b0 b1 ++ packSecond b1 b2 ++ (b2.extractLsb' 0 4 ++ 0#6) = b0 ++ b1 ++ b2 ++ 0#6 := by
  apply BitVec.eq_of_toNat_eq
  simp only [append_toNat, packFirst_toNat, packSecond_toNat, extract_toNat]
  omega

theorem packPartial_four_append (b0 b1 b2 b3 : Byte) :
    packFirst b0 b1 ++ packSecond b1 b2 ++ packThird b2 b3 ++ b3.extractLsb' 0 2 = b0 ++ b1 ++ b2 ++ b3 := by
  apply BitVec.eq_of_toNat_eq
  simp only [append_toNat, packFirst_toNat, packSecond_toNat, packThird_toNat, extract_toNat]
  omega

/-- Settles O22: the count by `packPartial_count`; the padding stands at the low end of the last chunk, and the chunks in a
row are the bytes in a row. -/
theorem partialGroupHasZeroPadding : Obligations.PartialGroupHasZeroPadding := by
  refine ⟨fun bs nonempty short => ?_,
    fun b0 => ⟨_, rfl, BitVec.extractLsb'_append_eq_right, rfl⟩,
    fun b0 b1 => ⟨_, _, rfl, BitVec.extractLsb'_append_eq_right, packPartial_two_append b0 b1⟩,
    fun b0 b1 b2 => ⟨_, _, _, rfl, BitVec.extractLsb'_append_eq_right, packPartial_three_append b0 b1 b2⟩,
    fun b0 b1 b2 b3 => ⟨_, _, _, _, rfl, packPartial_four_append b0 b1 b2 b3⟩⟩
  obtain ⟨count, tailIff⟩ := packPartial_count bs nonempty short
  have ceil : (8 * bs.length + 9) / 10 = bs.length := by omega
  exact ⟨count.trans ceil.symm, ceil, tailIff⟩

end Sys2Proof.Machine
end

section
/-! SUPPORT. What a completed run of `encode V, wrap, bs` has appended, as the run's own next state shows it, and its
symbols with the line breaks deleted (42_encoder.md R128, R129). -/

namespace Sys2Proof.Machine

theorem encode_symOut {s t : State} {v : Variant} {wrap : WrapCount} {bs : List Byte}
    (hrun : runInstrs (encodeInstrs v wrap bs) s = .next t) :
    t.symOut = s.symOut ++ messageOutput s.cfg.toConfig v wrap.toNat bs := by
  obtain ⟨u, hrun', hout⟩ := encode_appends_messageOutput s v wrap bs
  cases hrun'.symm.trans hrun
  exact hout

theorem messageOutput_filter (c : AdmittedConfig) (v : Variant) (w : Nat) (bs : List Byte) :
    (messageOutput c.toConfig v w bs).filter (fun cp => cp != c.lbCp) = messageSymbols c.alphabet v bs :=
  wrapSymbols_filter (lbCp_not_mem_messageSymbols c v bs) w

/-- A message with wrapping off is its symbols (R128). -/
theorem messageOutput_unwrapped (c : Config) (v : Variant) (bs : List Byte) :
    messageOutput c v 0 bs = messageSymbols c.alphabet v bs := rfl

theorem lbCp_not_mem_words (c : AdmittedConfig) : c.lbCp ∉ c.alphabet.words := fun symbol =>
  c.meetsR98.facts.notWs _ symbol c.meetsR98.facts.lbIsWs

/-- Settles O33: both runs append the message of the rules (`encode_symOut`), and the wrapped one without its line breaks
is the unwrapped one (`messageOutput_filter`). -/
theorem wrappingIsCosmetic : Obligations.WrappingIsCosmetic := by
  intro s t t0 v wrap bs hrun hrun0
  have cosmetic := (messageOutput_filter s.cfg v wrap.toNat bs).trans (messageOutput_unwrapped _ v bs).symm
  exact ⟨_, _, encode_symOut hrun, encode_symOut hrun0, cosmetic, lbCp_not_mem_words s.cfg⟩

end Sys2Proof.Machine
end

section
/-! SUPPORT. How a message ends (42_encoder.md R124 to R126): whole groups are four Main symbols each, and the final group
is framed by its length and the variant. -/

namespace Sys2Proof.Machine

/-! ## Whole groups -/

/-- Induction over a message of whole groups: no byte, or five bytes and a shorter such message (R84). -/
theorem wholeGroups_induction {P : (bs : List Byte) → bs.length % 5 = 0 → Prop} (nil : P [] rfl)
    (group : ∀ b0 b1 b2 b3 b4 rest (whole : rest.length % 5 = 0), P rest whole →
      P (b0 :: b1 :: b2 :: b3 :: b4 :: rest) ((Nat.add_mod_right rest.length 5).trans whole))
    (bs : List Byte) (whole : bs.length % 5 = 0) : P bs whole := by
  induction bs using groups_induction with
  | short bs hlt =>
    obtain rfl : bs = [] := List.eq_nil_of_length_eq_zero (by omega)
    exact nil
  | group b0 b1 b2 b3 b4 rest ih =>
    have wholeRest : rest.length % 5 = 0 := (Nat.add_mod_right rest.length 5).symm.trans whole
    exact group b0 b1 b2 b3 b4 rest wholeRest (ih wholeRest)

@[simp] theorem finalGroupSymbols_nil (a : Alphabet) (v : Variant) : finalGroupSymbols a v [] = [] := by
  cases v <;> rfl

@[simp] theorem messageSymbols_nil (a : Alphabet) (v : Variant) : messageSymbols a v [] = [] :=
  finalGroupSymbols_nil a v

/-- The symbols of a message split after any whole number of groups (R87). -/
theorem messageSymbols_append (a : Alphabet) (v : Variant) (full last : List Byte) (whole : full.length % 5 = 0) :
    messageSymbols a v (full ++ last) = messageSymbols a v full ++ messageSymbols a v last := by
  induction full, whole using wholeGroups_induction with
  | nil => simp
  | group b0 b1 b2 b3 b4 rest whole ih => simp only [List.cons_append, messageSymbols, ih, List.append_assoc]

theorem mem_fullGroupSymbols {a : Alphabet} {v : Variant} {b0 b1 b2 b3 b4 : Byte} {cp : CodePoint}
    (h : cp ∈ fullGroupSymbols a v b0 b1 b2 b3 b4) : ∃ i, cp = a.main v i := by
  simp only [fullGroupSymbols, List.mem_cons, List.not_mem_nil, or_false] at h
  obtain h | h | h | h := h <;> exact ⟨_, h⟩

/-- A message of whole groups holds Main symbols only (R84). -/
theorem mem_messageSymbols_whole {a : Alphabet} {v : Variant} {full : List Byte} (whole : full.length % 5 = 0)
    {cp : CodePoint} (h : cp ∈ messageSymbols a v full) : ∃ i, cp = a.main v i := by
  induction full, whole using wholeGroups_induction with
  | nil => simp at h
  | group b0 b1 b2 b3 b4 rest whole ih =>
    obtain h | h := List.mem_append.1 h
    · exact mem_fullGroupSymbols h
    · exact ih h

theorem symbolCount_whole (v : Variant) {L : Nat} (whole : L % 5 = 0) : symbolCount v L = 4 * (L / 5) := by
  cases v <;> simp [symbolCount, whole]

/-! ## The final group -/

/-- One to three bytes are as many Main symbols, framed by PADs alone (R124, R125). -/
theorem finalGroupSymbols_partial (a : Alphabet) (v : Variant) {bs : List Byte} (nonempty : 1 ≤ bs.length)
    (short : bs.length ≤ 3) :
    (packPartial bs).1.length = bs.length ∧
    finalGroupSymbols a v bs = (packPartial bs).1.map (a.main v) ++ fillerPads a v bs.length := by
  obtain ⟨count, tailIff⟩ := packPartial_count bs nonempty (by omega)
  have noTail : (packPartial bs).2 = none := by
    rw [← Option.not_isSome_iff_eq_none, tailIff]
    omega
  exact ⟨by simpa [noTail] using count, by simp [finalGroupSymbols, noTail, tailSymbols]⟩

/-- Four bytes are three Main symbols and a Tail symbol, with no PAD (R126). -/
theorem finalGroupSymbols_four (a : Alphabet) (v : Variant) {bs : List Byte} (four : bs.length = 4) :
    ∃ j, (packPartial bs).2 = some j ∧ (packPartial bs).1.length = 3 ∧
      finalGroupSymbols a v bs = (packPartial bs).1.map (a.main v) ++ [a.tail v j] := by
  obtain ⟨b0, b1, b2, b3, rfl⟩ := length_four four
  exact ⟨_, rfl, rfl, by cases v <;> rfl⟩

/-- V1 fills a partial group up to four symbols (R124). -/
theorem fillerPads_V1 (a : Alphabet) {r : Nat} (nonempty : 1 ≤ r) (short : r ≤ 3) :
    fillerPads a .V1 r = List.replicate (4 - r) a.pad := by
  interval_cases r <;> rfl

/-- V2 marks a partial group with one PAD (R125). -/
theorem fillerPads_V2 (a : Alphabet) {r : Nat} (nonempty : 1 ≤ r) (short : r ≤ 3) : fillerPads a .V2 r = [a.pad] := by
  interval_cases r <;> rfl

/-- Settles O34: without its line breaks the message is its whole groups followed by its final group
(`messageSymbols_append`), and the final group's symbols are known by its length. -/
theorem finalGroupIsFramedByVariant : Obligations.FinalGroupIsFramedByVariant := by
  intro s t v wrap full last whole short hrun
  have groups : messageSymbols s.cfg.alphabet v (full ++ last) =
      messageSymbols s.cfg.alphabet v full ++ finalGroupSymbols s.cfg.alphabet v last := by
    rw [messageSymbols_append _ _ _ _ whole, messageSymbols_of_lt _ _ short]
  refine ⟨_, _, _, encode_symOut hrun, (messageOutput_filter s.cfg v wrap.toNat _).trans groups, ?_,
    fun cp => mem_messageSymbols_whole whole, fun empty => ?_, fun nonempty upto3 => ?_,
    finalGroupSymbols_four s.cfg.alphabet v, ?_⟩
  · rw [messageSymbols_length, symbolCount_whole v whole]
  · rw [List.eq_nil_of_length_eq_zero empty, finalGroupSymbols_nil]
  · obtain ⟨count, symbols⟩ := finalGroupSymbols_partial s.cfg.alphabet v nonempty upto3
    refine ⟨count, ?_, ?_⟩ <;> rintro rfl
    · rw [symbols, fillerPads_V1 _ nonempty upto3]
    · rw [symbols, fillerPads_V2 _ nonempty upto3]
  · rintro rfl
    rw [← groups, messageSymbols_length, symbolCount_V1_eq_ceil, Nat.mul_mod_right]

end Sys2Proof.Machine
end

section
/-! SUPPORT. The elements of a message by their tables, and so by their class (42_encoder.md R127). -/

namespace Sys2Proof.Machine

/-- A symbol that a message of variant `v` may hold: one of the variant's tables, or PAD (R127). -/
def SymbolOf (a : Alphabet) (v : Variant) (cp : CodePoint) : Prop :=
  (∃ i, cp = a.main v i) ∨ (∃ j, cp = a.tail v j) ∨ cp = a.pad

theorem mem_tailSymbols {a : Alphabet} {v : Variant} {cp : CodePoint} :
    ∀ {t : Option TailIdx}, cp ∈ tailSymbols a v t → ∃ j, cp = a.tail v j
  | some t, h => ⟨t, List.mem_singleton.1 h⟩

theorem mem_fillerPads (a : Alphabet) (v : Variant) (r : Nat) : ∀ cp ∈ fillerPads a v r, cp = a.pad := by
  unfold fillerPads
  split <;> simp

theorem symbolOf_of_mem_finalGroupSymbols {a : Alphabet} {v : Variant} {bs : List Byte} {cp : CodePoint}
    (h : cp ∈ finalGroupSymbols a v bs) : SymbolOf a v cp := by
  simp only [finalGroupSymbols, List.mem_append, List.mem_map] at h
  obtain (⟨i, -, rfl⟩ | tail) | filler := h
  · exact .inl ⟨i, rfl⟩
  · exact .inr (.inl (mem_tailSymbols tail))
  · exact .inr (.inr (mem_fillerPads a v _ cp filler))

theorem symbolOf_of_mem_messageSymbols {a : Alphabet} {v : Variant} {bs : List Byte} {cp : CodePoint}
    (h : cp ∈ messageSymbols a v bs) : SymbolOf a v cp := by
  induction bs using groups_induction with
  | short bs hlt => exact symbolOf_of_mem_finalGroupSymbols (messageSymbols_of_lt a v hlt ▸ h)
  | group b0 b1 b2 b3 b4 rest ih =>
    obtain h | h := List.mem_append.1 h
    · exact .inl (mem_fullGroupSymbols h)
    · exact ih h

/-- Every element of a message is a symbol of its variant or the line break (R127, R128). -/
theorem mem_messageOutput {c : AdmittedConfig} {v : Variant} {w : Nat} {bs : List Byte} {cp : CodePoint}
    (h : cp ∈ messageOutput c.toConfig v w bs) : SymbolOf c.alphabet v cp ∨ cp = c.lbCp := by
  by_cases isBreak : cp = c.lbCp
  · exact .inr isBreak
  · have kept : cp ∈ (messageOutput c.toConfig v w bs).filter (fun cp => cp != c.lbCp) :=
      List.mem_filter.2 ⟨h, by simpa using isBreak⟩
    exact .inl (symbolOf_of_mem_messageSymbols (messageOutput_filter c v w bs ▸ kept))

/-- `Classify` gives a symbol that a message of variant `v` may hold no other variant (R101, R127). -/
theorem SymbolOf.variant_eq {c : Config} (h : c.Admitted) {v v' : Variant} {cp : CodePoint}
    (symbol : SymbolOf c.alphabet v cp) (hv : classVariant (classify c cp) = some v') : v' = v := by
  obtain ⟨i, rfl⟩ | ⟨j, rfl⟩ | rfl := symbol
  · rw [classify_main h] at hv
    exact (Option.some.inj hv).symm
  · rw [classify_tail h] at hv
    exact (Option.some.inj hv).symm
  · rw [classify_pad h] at hv
    cases hv

theorem classVariant_lbCp (c : AdmittedConfig) : classVariant (classify c.toConfig c.lbCp) = none := by
  rw [classify_whitespace c.meetsR98 c.meetsR98.facts.lbIsWs]
  rfl

/-- Settles O35: the elements of the message by `mem_messageOutput`; a class with a variant has the message's, so the two
variants of a mixed pair would be equal. -/
theorem messageHoldsOneVariant : Obligations.MessageHoldsOneVariant := by
  intro s t v wrap bs hrun
  have oneVariant : ∀ cp ∈ messageOutput s.cfg.toConfig v wrap.toNat bs, ∀ v',
      classVariant (classify s.cfg.toConfig cp) = some v' → v' = v := by
    intro cp h v' hv
    obtain symbol | rfl := mem_messageOutput h
    · exact symbol.variant_eq s.cfg.meetsR98 hv
    · rw [classVariant_lbCp] at hv
      cases hv
  refine ⟨_, encode_symOut hrun, fun cp h => ?_, oneVariant, ?_⟩
  · obtain (main | tail | pad) | isBreak := mem_messageOutput h
    · exact .inl main
    · exact .inr (.inl tail)
    · exact .inr (.inr (.inl pad))
    · exact .inr (.inr (.inr isBreak))
  · rintro ⟨⟨cp1, mem1, isV1⟩, ⟨cp2, mem2, isV2⟩⟩
    cases (oneVariant cp1 mem1 _ isV1).trans (oneVariant cp2 mem2 _ isV2).symm

end Sys2Proof.Machine
end

section
/-! SUPPORT. The errors of the encoder commands (42_encoder.md R130). -/

namespace Sys2Proof.Machine

theorem Rejected.encoder {s : State} {i : Instr} (h : Rejected s i) (hi : isEncoder i = true) :
    raisesSequence i = true ∧ s.encSt = .idle := by
  cases i with
  | encByte b => exact ⟨rfl, h⟩
  | encEnd => exact ⟨rfl, h⟩
  | encStart v wrap => cases h
  | _ => cases hi

theorem sequenceError_cmdErr (i : Instr) (s : State) :
    (sequenceError i s).cmdErr = s.cmdErr ∨ (sequenceError i s).cmdErr = .sequence := by
  rw [sequenceError, cmdError_eq]
  split_ifs
  · exact .inr rfl
  · exact .inl rfl

/-- The command error after an encoder command (R121, R123, R130). -/
theorem encoder_cmdErr {i : Instr} {s t : State} (hi : isEncoder i = true) (he : exec i s = .next t) :
    t.cmdErr = s.cmdErr ∨ (t.cmdErr = .sequence ∧ raisesSequence i = true ∧ s.encSt = .idle) := by
  by_cases rejected : Rejected s i
  · cases (exec_rejected rejected).symm.trans he
    exact (sequenceError_cmdErr i s).imp_right fun raised => ⟨raised, rejected.encoder hi⟩
  · have notClear : i ≠ .clrCmdErr := by
      rintro rfl
      cases hi
    exact .inl (exec_keeps_cmdErr rejected notClear he).1

/-- Settles O36: an encoder command completes where the invariants hold (`Inv.exec_completes`), leaves the decoder's
registers alone (`encoder_frame`) and raises no command error but SEQUENCE (`encoder_cmdErr`); a malformed word is
`illegalCommand`. -/
theorem encoderRaisesNoDataError : Obligations.EncoderRaisesNoDataError := by
  refine ⟨fun i s inv hi => ?_, fun w e s _ _ malformed noError => ?_⟩
  · obtain ⟨t, he, -⟩ := inv.exec_completes i
    obtain ⟨-, sameSt, -, -, -, sameErr, -⟩ := (encoder_frame hi he).sameDecoder
    exact ⟨t, he, sameErr.symm, sameSt.symm, encoder_cmdErr hi he⟩
  · simp only [applyCommand, malformed, illegalCommand_eq, noError, if_true]

end Sys2Proof.Machine
end

section
/-! SUPPORT. Single commands of the decoder in an open stream and in the error state (43_decoder.md R133 to R135,
R142): which symbols move the lock, which close a group, and that the error state ignores every command but
`dec.start`. -/

namespace Sys2Proof.Machine

/-- An early Tail closes the group with no bytes and is recorded from the first one on (R136). -/
theorem earlyTail_eq (cp : CodePoint) (s : State) :
    earlyTail cp s =
      { s with decCnt := 0, decPend := true, decPendCp := if s.decPend = true then s.decPendCp else cp } := by
  unfold earlyTail
  split_ifs with recorded
  · rw [← recorded]
  · rfl

theorem sameDecoder.refl (s : State) : sameDecoder s s := ⟨rfl, rfl, rfl, rfl, rfl, rfl, rfl, rfl, rfl, rfl⟩

theorem sameDecoder.symm {s t : State} (h : sameDecoder s t) : sameDecoder t s := by
  obtain ⟨h1, h2, h3, h4, h5, h6, h7, h8, h9, h10⟩ := h
  exact ⟨h1.symm, h2.symm, h3.symm, h4.symm, h5.symm, h6.symm, h7.symm, h8.symm, h9.symm, h10.symm⟩

/-! ## The lock -/

/-- A symbol leaves the lock alone, or it is a discriminating one that the lock admits (R134). -/
theorem SymStep.lock_cases {cp : CodePoint} {s t : State} (step : SymStep cp s t) :
    t.decLock = s.decLock ∨
      ∃ v, classVariant (classify s.cfg.toConfig cp) = some v ∧ Admits s v ∧ t.decLock = .locked v := by
  cases step with
  | sequence st => rw [sequenceError_frame]; exact .inl rfl
  | main v i st cl lock cnt => exact .inr ⟨v, by rw [cl]; rfl, lock, rfl⟩
  | fourthMain v i c0 c1 c2 st cl lock cnt acc => exact .inr ⟨v, by rw [cl]; rfl, lock, rfl⟩
  | tail v i c0 c1 c2 st cl lock cnt acc => exact .inr ⟨v, by rw [cl]; rfl, lock, rfl⟩
  | early v i st cl lock cnt =>
    rw [earlyTail_eq]
    exact .inr ⟨v, by rw [cl]; rfl, lock, rfl⟩
  | _ => exact .inl rfl

/-- A discriminating symbol that the lock admits locks the stream to its variant and raises no error (R134). -/
theorem SymStep.locks {cp : CodePoint} {v : Variant} {s t : State} (step : SymStep cp s t)
    (active : s.decSt = .active) (variant : classVariant (classify s.cfg.toConfig cp) = some v) (admits : Admits s v) :
    t.decLock = .locked v ∧ t.decSt = .active ∧ t.decErr = s.decErr := by
  have same {k : CpClass} {w : Variant} (cl : classify s.cfg.toConfig cp = k) (hk : classVariant k = some w) :
      w = v :=
    Option.some.inj (hk.symm.trans (cl ▸ variant))
  cases step with
  | ignored st => rw [active] at st; cases st
  | sequence st => rw [active] at st; rcases st with st | st <;> cases st
  | ws st cl => rw [cl] at variant; cases variant
  | invalid st cl => rw [cl] at variant; cases variant
  | pad cs st cl acc => rw [cl] at variant; cases variant
  | mixed w v' st cl lock ne =>
    obtain rfl := same rfl cl
    rcases admits with unlocked | locked
    · rw [unlocked] at lock; cases lock
    · rw [locked] at lock; cases lock; exact absurd rfl ne
  | main w i st cl lock cnt => exact ⟨by rw [← same cl rfl]; rfl, st, rfl⟩
  | fourthMain w i c0 c1 c2 st cl lock cnt acc => exact ⟨by rw [← same cl rfl], st, rfl⟩
  | tail w i c0 c1 c2 st cl lock cnt acc => exact ⟨by rw [← same cl rfl], st, rfl⟩
  | early w i st cl lock cnt =>
    rw [← same cl rfl, earlyTail_eq]
    exact ⟨rfl, st, rfl⟩

theorem endStream_decLock (s : State) : (endStream s).decLock = s.decLock := by
  unfold endStream
  split_ifs <;> rfl

/-- No command but `dec.start` and `dec.sym` moves the lock (R134). -/
theorem exec_keeps_decLock {i : Instr} {s t : State} (notStart : i ≠ .decStart) (notSym : ∀ cp, i ≠ .decSym cp)
    (he : exec i s = .next t) : t.decLock = s.decLock := by
  cases hd : isDecoder i with
  | false =>
    obtain ⟨-, -, lock, -⟩ := sameDecoder.other_exec hd (.refl s) he
    exact lock
  | true =>
    cases i with
    | decStart => exact absurd rfl notStart
    | decSym cp => exact absurd rfl (notSym cp)
    | decEnd =>
      obtain ⟨-, rfl⟩ | ⟨-, rfl⟩ | ⟨-, rfl⟩ := decEnd_cases he
      · rfl
      · rw [sequenceError_frame]
      · exact endStream_decLock s
    | _ => cases hd

/-- Settles O39: a discriminating symbol by `SymStep.locks` or as a mixed pair, any other symbol and a set lock by
`SymStep.lock_cases`, any other command by `exec_keeps_decLock`. -/
theorem lockFollowsTheFirstVariant : Obligations.LockFollowsTheFirstVariant := by
  refine ⟨fun s cp v inv active variant => ⟨fun admits => ?_, fun v' lock ne => ?_⟩, fun s t cp noVariant he => ?_,
    fun s t i notStart he set => ?_, fun s t i => exec_keeps_decLock, fun s t he => ?_, resetEvent_decLock⟩
  · obtain ⟨t, step⟩ := inv.symStep_active active cp
    exact ⟨t, step.exec_eq, step.locks active variant admits⟩
  · exact (SymStep.mixed v v' active variant lock ne).exec_eq
  · obtain kept | ⟨v, variant, -⟩ := (decSym_cases he).lock_cases
    · exact kept
    · rw [noVariant] at variant
      cases variant
  · by_cases isSym : ∃ cp, i = .decSym cp
    · obtain ⟨cp, rfl⟩ := isSym
      obtain kept | ⟨v, -, unlocked | locked, moved⟩ := (decSym_cases he).lock_cases
      · exact kept
      · exact absurd unlocked set
      · exact moved.trans locked.symm
    · exact exec_keeps_decLock notStart (fun cp e => isSym ⟨cp, e⟩) he
  · cases he
    rfl

/-! ## Group closes -/

/-- `UnpackPad` gives one byte for each of up to three chunks (R115). -/
theorem unpackPad_length : ∀ {cs : List Chunk}, cs.length ≤ 3 → (unpackPad cs).length = cs.length
  | [], _ => rfl
  | [_], _ => rfl
  | [_, _], _ => rfl
  | [_, _, _], _ => rfl
  | _ :: _ :: _ :: _ :: _, short => absurd short (by simp)

/-- Below three pending chunks the pushed chunk is written in place and the count moves on (R133). -/
theorem pushDecChunk_eq_set {s : State} {j : Fin 3} (i : Chunk) (cnt : s.decCnt = j.castSucc) :
    pushDecChunk i s = { s with decAcc := s.decAcc.set j.val (some i), decCnt := j.succ } := by
  have next : s.decCnt + 1 = j.succ := by rw [cnt, Fin.coeSucc_eq_succ]
  have entry : s.decAcc.setIfInBounds s.decCnt.val (some i) = s.decAcc.set j.val (some i) := by
    rw [cnt]
    ext k hk
    simp [Vector.getElem_setIfInBounds, Vector.getElem_set]
  rw [pushDecChunk, next, entry]

/-- Settles O40: each clause is the path of `SymStep` for its symbol and count. -/
theorem groupsCloseOnTheFirstOfThree : Obligations.GroupsCloseOnTheFirstOfThree := by
  intro s cs active entries
  have acc : decPending s = some cs := decPending_eq_some.2 entries
  have count : cs.length = s.decCnt.val := decPending_length acc
  refine ⟨fun cp cl => ⟨(SymStep.pad cs active cl acc).exec_eq, ?_⟩, ?_, ?_, ?_⟩
  · rw [unpackPad_length (by omega), count]
  · rintro cp v t c0 c1 c2 cl lock rfl
    exact (SymStep.tail v t c0 c1 c2 active cl lock count.symm acc).exec_eq
  · rintro cp v i c0 c1 c2 cl lock rfl
    exact (SymStep.fourthMain v i c0 c1 c2 active cl lock count.symm acc).exec_eq
  · intro cp v i j cl lock cnt
    have below : s.decCnt.val < 3 := by rw [cnt]; exact j.isLt
    rw [(SymStep.main v i active cl lock below).exec_eq,
      pushDecChunk_eq_set (s := { s with decLock := .locked v }) i cnt]

/-! ## The error state -/

/-- After a decode error the decoder ignores every command of its own but `dec.start` (R142). -/
theorem exec_ignored {i : Instr} {s : State} (failed : s.decSt = .error) (hd : isDecoder i = true)
    (notStart : i ≠ .decStart) : exec i s = .next s := by
  cases i with
  | decStart => exact absurd rfl notStart
  | decSym cp => exact (SymStep.ignored failed).exec_eq
  | decEnd => exact exec_decEnd_error failed
  | _ => cases hd

/-- A failed stream that agrees with a state on the decoder still does after any command but `dec.start` (R142). -/
theorem sameDecoder.exec_failed {i : Instr} {s t u : State} (failed : s.decSt = .error) (notStart : i ≠ .decStart)
    (h : sameDecoder t s) (he : exec i t = .next u) : sameDecoder u s := by
  cases hd : isDecoder i with
  | false => exact h.other_exec hd he
  | true =>
    have ⟨_, sameSt, _⟩ := h
    cases (exec_ignored (sameSt.trans failed) hd notStart).symm.trans he
    exact h

/-- Settles O45: every command keeps the failed decoder as it is (`sameDecoder.exec_failed`), so the whole run does,
and the decoder's own commands are ignored after it too. -/
theorem decodeErrorIsFatal : Obligations.DecodeErrorIsFatal := by
  intro is s t failed noStart run
  have same : sameDecoder t s := runInstrs_keeps (P := fun u => sameDecoder u s)
    (fun i hi u u' => sameDecoder.exec_failed failed (noStart i hi))
    (.refl s) run
  have ⟨_, sameSt, _, _, _, sameErr, sameErrCp, _⟩ := same
  refine ⟨same.symm, ?_, ?_, fun i hi hd => exec_ignored (sameSt.trans failed) hd (noStart i hi)⟩
  · exact (statusWord_fields t).decErr.trans ((congrArg decErrCode sameErr).trans (statusWord_fields s).decErr.symm)
  · exact congrArg (BitVec.zeroExtend 32) sameErrCp

end Sys2Proof.Machine
end

section
/-! SUPPORT. A stream's symbols in an open stream, from every state (43_decoder.md R133 to R141): what has been read
so far, against the group grammar (30_encoding.md R88), and the first offending symbol (R146). -/

namespace Sys2Proof.Machine

/-! ## The group grammar, one symbol at a time (R88) -/

@[simp] theorem streamBytes_ws (acc : List Chunk) (rest : List CpClass) :
    streamBytes acc (.ws :: rest) = streamBytes acc rest := by
  cases acc <;> rw [streamBytes]

theorem streamBytes_pad (acc : List Chunk) (rest : List CpClass) :
    streamBytes acc (.pad :: rest) = (streamBytes [] rest).map (unpackPad acc ++ ·) := by
  cases acc <;> rw [streamBytes]

theorem streamBytes_main {acc : List Chunk} (below : acc.length < 3) (v : Variant) (i : Chunk) (rest : List CpClass) :
    streamBytes acc (.main v i :: rest) = streamBytes (acc ++ [i]) rest := by
  match acc, below with
  | [], _ | [_], _ | [_, _], _ => rw [streamBytes]; simp

theorem streamBytes_fourthMain (c0 c1 c2 : Chunk) (v : Variant) (i : Chunk) (rest : List CpClass) :
    streamBytes [c0, c1, c2] (.main v i :: rest) = (streamBytes [] rest).map (unpack5 c0 c1 c2 i ++ ·) := by
  rw [streamBytes]

theorem streamBytes_tail (c0 c1 c2 : Chunk) (v : Variant) (t : TailIdx) (rest : List CpClass) :
    streamBytes [c0, c1, c2] (.tail v t :: rest) = (streamBytes [] rest).map (unpackTail c0 c1 c2 t ++ ·) := by
  rw [streamBytes]

theorem streamBytes_earlyTail {acc : List Chunk} (below : acc.length < 3) (v : Variant) (t : TailIdx)
    (rest : List CpClass) : streamBytes acc (.tail v t :: rest) = none := by
  match acc, below with
  | [], _ | [_], _ | [_, _], _ => rw [streamBytes]; simp

/-- A stream ends between groups (R88, R141). -/
theorem streamBytes_nil_eq_some {acc : List Chunk} {bs : List Byte} :
    streamBytes acc [] = some bs ↔ acc = [] ∧ bs = [] := by
  cases acc <;> simp [streamBytes, eq_comm]

/-! ## Streams without an offending symbol (R146) -/

/-- A stream without an offending symbol. -/
structure Clean (c : Config) (cps : List CodePoint) : Prop where
  noInvalid : ¬ holdsInvalid c cps
  noMixed : ¬ holdsMixed c cps

theorem clean_nil (c : Config) : Clean c [] where
  noInvalid := by simp [holdsInvalid]
  noMixed := by simp [holdsMixed, holdsVariant]

theorem holdsVariant_mono {c : Config} {v : Variant} {pre cps : List CodePoint} (sub : pre ⊆ cps) :
    holdsVariant c v pre → holdsVariant c v cps
  | ⟨cp, mem, variant⟩ => ⟨cp, sub mem, variant⟩

theorem holdsMixed_mono {c : Config} {pre cps : List CodePoint} (sub : pre ⊆ cps) :
    holdsMixed c pre → holdsMixed c cps
  | ⟨one, two⟩ => ⟨holdsVariant_mono sub one, holdsVariant_mono sub two⟩

theorem Clean.mono {c : Config} {pre cps : List CodePoint} (clean : Clean c cps) (sub : pre ⊆ cps) : Clean c pre :=
  ⟨fun ⟨cp, mem, invalid⟩ => clean.noInvalid ⟨cp, sub mem, invalid⟩,
   fun mixed => clean.noMixed (holdsMixed_mono sub mixed)⟩

theorem holdsVariant_snoc {c : Config} {v : Variant} {cps : List CodePoint} {cp : CodePoint} :
    holdsVariant c v (cps ++ [cp]) ↔ holdsVariant c v cps ∨ classVariant (classify c cp) = some v := by
  simp [holdsVariant, or_and_right, exists_or]

/-- A mixed pair is two different variants, whichever is which. -/
theorem holdsMixed_iff {c : Config} {cps : List CodePoint} :
    holdsMixed c cps ↔ ∃ v w, v ≠ w ∧ holdsVariant c v cps ∧ holdsVariant c w cps := by
  constructor
  · rintro ⟨one, two⟩
    exact ⟨.V1, .V2, nofun, one, two⟩
  · rintro ⟨v, w, ne, hv, hw⟩
    cases v <;> cases w
    · exact absurd rfl ne
    · exact ⟨hv, hw⟩
    · exact ⟨hw, hv⟩
    · exact absurd rfl ne

/-- The symbol that completes a mixed pair is of another variant than one before it. -/
theorem mixing_variants {c : Config} {pre : List CodePoint} {cp : CodePoint} (clean : Clean c pre)
    (mixed : holdsMixed c (pre ++ [cp])) :
    ∃ v w, v ≠ w ∧ holdsVariant c v pre ∧ classVariant (classify c cp) = some w := by
  obtain ⟨v, w, ne, hv, hw⟩ := holdsMixed_iff.1 mixed
  obtain inPre | isCp := holdsVariant_snoc.1 hv <;> obtain inPre' | isCp' := holdsVariant_snoc.1 hw
  · exact absurd (holdsMixed_iff.2 ⟨v, w, ne, inPre, inPre'⟩) clean.noMixed
  · exact ⟨v, w, ne, inPre, isCp'⟩
  · exact ⟨w, v, ne.symm, inPre', isCp⟩
  · exact absurd (Option.some.inj (isCp.symm.trans isCp')) ne

/-- A stream that is not clean has a first symbol with which it stops to be clean. -/
theorem exists_first_offence {c : Config} {cps : List CodePoint} (notClean : ¬ Clean c cps) :
    ∃ pre cp post, cps = pre ++ cp :: post ∧ Clean c pre ∧ ¬ Clean c (pre ++ [cp]) := by
  induction cps using List.reverseRecOn with
  | nil => exact absurd (clean_nil c) notClean
  | append_singleton cps cp ih =>
    by_cases clean : Clean c cps
    · exact ⟨cps, cp, [], rfl, clean, notClean⟩
    · obtain ⟨pre, first, post, rfl, before, offends⟩ := ih clean
      exact ⟨pre, first, post ++ [cp], by simp, before, offends⟩

/-- After a clean stream, what a symbol can offend with (R146). -/
theorem offence_cases {c : Config} {pre : List CodePoint} {cp : CodePoint} (clean : Clean c pre)
    (offends : ¬ Clean c (pre ++ [cp])) :
    classify c cp = .invalid ∨ (classify c cp ≠ .invalid ∧ holdsMixed c (pre ++ [cp])) := by
  by_cases invalid : classify c cp = .invalid
  · exact .inl invalid
  · refine .inr ⟨invalid, by_contra fun noMixed => offends ⟨?_, noMixed⟩⟩
    rintro ⟨x, mem, bad⟩
    obtain inPre | isCp := List.mem_append.1 mem
    · exact clean.noInvalid ⟨x, inPre, bad⟩
    · exact invalid (List.mem_singleton.1 isCp ▸ bad)

/-! ## An open stream -/

/-- The state right after `dec.start` (R132). -/
def streamStart (s : State) : State :=
  { s with decSt := .active, decLock := .unlocked, decCnt := 0, decErr := .none, decErrCp := 0#21,
           decPend := false, decPendCp := 0#21 }

theorem exec_decStart (s : State) : exec .decStart s = .next (streamStart s) := rfl

/-- The groups of an open stream after symbols of the classes `ks`: which bytes `out` it has appended since `before`,
which Mains `acc` are pending, and so what the grammar makes of any `rest`. A recorded early Tail (R136) is where the
grammar has no bytes. -/
def GroupsRead (before : State) (ks : List CpClass) (s : State) : Prop :=
  ∃ acc out, decPending s = some acc ∧ s.byteOut = before.byteOut ++ out ∧
    ∀ rest, streamBytes [] (ks ++ rest) =
      if s.decPend = true then none else (streamBytes acc rest).map (out ++ ·)

/-- An open stream after the symbols `cps`, started in `before`. -/
structure StreamRead (before : State) (cps : List CodePoint) (s : State) : Prop where
  cfg : s.cfg = before.cfg
  active : s.decSt = .active
  lock : ∀ v, s.decLock = .locked v ↔ holdsVariant before.cfg.toConfig v cps
  groups : GroupsRead before (cps.map (classify before.cfg.toConfig)) s

theorem streamRead_start (s : State) : StreamRead s [] (streamStart s) where
  cfg := rfl
  active := rfl
  lock v := by simp [streamStart, holdsVariant]
  groups := ⟨[], [], rfl, (List.append_nil _).symm, fun rest => by simp [streamStart]⟩

/-- Reading one symbol more: the grammar, from the Mains `acc` pending before it, goes on as the state after it
says. -/
theorem GroupsRead.snoc {before s t : State} {ks : List CpClass} {k : CpClass} {acc : List Chunk}
    (h : GroupsRead before ks s) (pending : decPending s = some acc) (acc' : List Chunk) (bytes : List Byte)
    (pending' : decPending t = some acc') (appended' : t.byteOut = s.byteOut ++ bytes)
    (grammar' : ∀ rest, (if s.decPend = true then none else streamBytes acc (k :: rest)) =
      if t.decPend = true then none else (streamBytes acc' rest).map (bytes ++ ·)) :
    GroupsRead before (ks ++ [k]) t := by
  obtain ⟨_, out, pendingBefore, appended, grammar⟩ := h
  cases pendingBefore.symm.trans pending
  refine ⟨acc', out ++ bytes, pending', by rw [appended', appended, List.append_assoc], fun rest => ?_⟩
  have after := congrArg (Option.map (out ++ ·)) (grammar' rest)
  rw [List.append_assoc, List.singleton_append, grammar]
  simpa [apply_ite (Option.map (out ++ ·)), Function.comp_def] using after

section
variable {before s : State} {cps : List CodePoint} {cp : CodePoint}

/-- In a clean stream the lock admits every discriminating symbol (R134). -/
theorem StreamRead.admits (h : StreamRead before cps s) (clean : Clean before.cfg.toConfig (cps ++ [cp]))
    {v : Variant} (variant : classVariant (classify before.cfg.toConfig cp) = some v) : Admits s v := by
  obtain admits | ⟨v', locked, ne⟩ := admits_or_locked s v
  · exact admits
  · exact absurd (holdsMixed_iff.2 ⟨v', v, ne, holdsVariant_snoc.2 (.inl ((h.lock v').1 locked)),
      holdsVariant_snoc.2 (.inr variant)⟩) clean.noMixed

/-- The paths of `dec.sym` that read a symbol, each with what it does to the open group (R133, R135, R136). -/
theorem StreamRead.symStep (h : StreamRead before cps s) (clean : Clean before.cfg.toConfig (cps ++ [cp])) :
    ∃ t, SymStep cp s t ∧ t.decSt = .active ∧
      GroupsRead before (cps.map (classify before.cfg.toConfig) ++ [classify before.cfg.toConfig cp]) t := by
  obtain ⟨acc, out, pending, -⟩ := h.groups
  have count : acc.length = s.decCnt.val := decPending_length pending
  have admits := fun v => h.admits clean (v := v)
  have valid : classify before.cfg.toConfig cp ≠ .invalid := fun bad => clean.noInvalid ⟨cp, by simp, bad⟩
  have sameClass : classify s.cfg.toConfig cp = classify before.cfg.toConfig cp := by rw [h.cfg]
  cases cl : classify before.cfg.toConfig cp with
  | invalid => exact absurd cl valid
  | ws =>
    exact ⟨s, .ws h.active (sameClass.trans cl), h.active,
      h.groups.snoc pending acc [] pending (List.append_nil _).symm fun rest => by simp⟩
  | pad =>
    exact ⟨_, .pad acc h.active (sameClass.trans cl) pending, h.active,
      h.groups.snoc pending [] (unpackPad acc) rfl rfl fun rest => by rw [streamBytes_pad]⟩
  | main v i =>
    have lock := admits v (by rw [cl]; rfl)
    by_cases below : s.decCnt.val < 3
    · refine ⟨_, .main v i h.active (sameClass.trans cl) lock below, h.active,
        h.groups.snoc pending (acc ++ [i]) [] (decPending_push (s := { s with decLock := .locked v }) i pending below)
          (List.append_nil _).symm fun rest => ?_⟩
      rw [streamBytes_main (by omega)]
      simp
    · obtain ⟨c0, c1, c2, rfl⟩ := length_three (l := acc) (by omega)
      exact ⟨_, .fourthMain v i c0 c1 c2 h.active (sameClass.trans cl) lock count.symm pending, h.active,
        h.groups.snoc pending [] (unpack5 c0 c1 c2 i) rfl rfl fun rest => by rw [streamBytes_fourthMain]⟩
  | tail v i =>
    have lock := admits v (by rw [cl]; rfl)
    by_cases below : s.decCnt.val < 3
    · have step := SymStep.early v i h.active (sameClass.trans cl) lock below
      rw [earlyTail_eq] at step
      exact ⟨_, step, h.active, h.groups.snoc pending [] [] rfl (List.append_nil _).symm fun rest => by
        rw [streamBytes_earlyTail (by omega)]; simp⟩
    · obtain ⟨c0, c1, c2, rfl⟩ := length_three (l := acc) (by omega)
      exact ⟨_, .tail v i c0 c1 c2 h.active (sameClass.trans cl) lock count.symm pending, h.active,
        h.groups.snoc pending [] (unpackTail c0 c1 c2 i) rfl rfl fun rest => by rw [streamBytes_tail]⟩

/-- A symbol with which the stream stays clean is read (R133). -/
theorem StreamRead.snoc (h : StreamRead before cps s) (clean : Clean before.cfg.toConfig (cps ++ [cp])) :
    ∃ t, exec (.decSym cp) s = .next t ∧ StreamRead before (cps ++ [cp]) t := by
  obtain ⟨t, step, active, groups⟩ := h.symStep clean
  have cfg : t.cfg = s.cfg := by rw [step.decoderFrame]
  have sameClass : classify s.cfg.toConfig cp = classify before.cfg.toConfig cp := by rw [h.cfg]
  refine ⟨t, step.exec_eq, cfg.trans h.cfg, active, fun v => ?_, by simpa using groups⟩
  rw [holdsVariant_snoc, ← h.lock v, ← sameClass]
  cases variant : classVariant (classify s.cfg.toConfig cp) with
  | none =>
    obtain kept | ⟨w, some, -⟩ := step.lock_cases
    · simp [kept]
    · rw [variant] at some
      cases some
  | some w =>
    have lock := h.admits clean (sameClass ▸ variant)
    obtain ⟨locked, -⟩ := step.locks h.active variant lock
    obtain before | before := lock <;> simp [locked, before]

end

theorem decSymsInstrs_append (pre post : List CodePoint) :
    decSymsInstrs (pre ++ post) = decSymsInstrs pre ++ decSymsInstrs post := List.map_append

/-- Every clean stream is read to its end, from every state (R133). -/
theorem runInstrs_decSyms {s : State} {cps : List CodePoint} (clean : Clean s.cfg.toConfig cps) :
    ∃ t, runInstrs (decSymsInstrs cps) (streamStart s) = .next t ∧ StreamRead s cps t := by
  induction cps using List.reverseRecOn with
  | nil => exact ⟨_, rfl, streamRead_start s⟩
  | append_singleton cps cp ih =>
    obtain ⟨u, run, read⟩ := ih (clean.mono (List.subset_append_left _ _))
    obtain ⟨t, he, read'⟩ := read.snoc clean
    refine ⟨t, ?_, read'⟩
    rw [decSymsInstrs_append, runInstrs_append_next run]
    exact runInstrs_cons_next he

/-- `decode` of a stream goes on from where its first symbols end (R96). -/
theorem runInstrs_decodeInstrs_append {s t : State} {pre : List CodePoint} (post : List CodePoint)
    (run : runInstrs (decSymsInstrs pre) (streamStart s) = .next t) :
    runInstrs (decodeInstrs (pre ++ post)) s = runInstrs (decSymsInstrs post ++ [.decEnd]) t := by
  rw [← runInstrs_append_next run, ← List.append_assoc, ← decSymsInstrs_append]
  exact runInstrs_cons_next (exec_decStart s)

/-- A clean stream is read to its end, where `dec.end` says how it matches the grammar (R140). -/
theorem decode_clean {s : State} {cps : List CodePoint} (clean : Clean s.cfg.toConfig cps) :
    ∃ t, StreamRead s cps t ∧ runInstrs (decodeInstrs cps) s = .next (endStream t) := by
  obtain ⟨t, run, read⟩ := runInstrs_decSyms clean
  have := runInstrs_decodeInstrs_append [] run
  rw [List.append_nil] at this
  exact ⟨t, read, this.trans (runInstrs_cons_next (exec_decEnd_active read.active))⟩

/-! ## The first offending symbol (R142, R146) -/

/-- Commands that a state ignores, all of them, leave it as it is. -/
theorem runInstrs_ignored {is : List Instr} {s : State} (ignored : ∀ i ∈ is, exec i s = .next s) :
    runInstrs is s = .next s := by
  induction is with
  | nil => rfl
  | cons i is ih =>
    rw [runInstrs_cons_next (ignored i List.mem_cons_self)]
    exact ih fun j mem => ignored j (List.mem_cons_of_mem _ mem)

/-- The first error of a stream decides: the symbols after it and `dec.end` are ignored (R142). -/
theorem runInstrs_after_decError (code : DecErr) (cp : CodePoint) (s : State) (post : List CodePoint) :
    runInstrs (decSymsInstrs post ++ [.decEnd]) (decError code cp s) = .next (decError code cp s) := by
  refine runInstrs_ignored fun i mem => ?_
  obtain sym | isEnd := List.mem_append.1 mem
  · obtain ⟨x, -, rfl⟩ := List.mem_map.1 sym
    exact exec_ignored rfl rfl nofun
  · obtain rfl := List.mem_singleton.1 isEnd
    exact exec_ignored rfl rfl nofun

/-- A stream fails at a symbol that raises a decode error after a clean stream, whatever follows (R142). -/
theorem decode_offending {s : State} {pre : List CodePoint} (cp : CodePoint) (post : List CodePoint)
    (clean : Clean s.cfg.toConfig pre) :
    (classify s.cfg.toConfig cp = .invalid →
      ∃ u, runInstrs (decodeInstrs (pre ++ cp :: post)) s = .next (decError .nonAlphabet cp u)) ∧
    (classify s.cfg.toConfig cp ≠ .invalid → holdsMixed s.cfg.toConfig (pre ++ [cp]) →
      ∃ u, runInstrs (decodeInstrs (pre ++ cp :: post)) s = .next (decError .mixedVersions cp u)) := by
  obtain ⟨u, run, read⟩ := runInstrs_decSyms clean
  have fails {code : DecErr} (step : SymStep cp u (decError code cp u)) :
      runInstrs (decodeInstrs (pre ++ cp :: post)) s = .next (decError code cp u) :=
    (runInstrs_decodeInstrs_append _ run).trans
      ((runInstrs_cons_next step.exec_eq).trans (runInstrs_after_decError code cp u post))
  have sameClass : classify u.cfg.toConfig cp = classify s.cfg.toConfig cp := by rw [read.cfg]
  refine ⟨fun invalid => ⟨u, fails (.invalid read.active (sameClass.trans invalid))⟩, fun _ mixed => ⟨u, ?_⟩⟩
  obtain ⟨v, w, ne, inPre, variant⟩ := mixing_variants clean mixed
  exact fails (.mixed w v read.active (sameClass.symm ▸ variant) ((read.lock v).2 inPre) ne)

/-- Every stream completes, from every state (R146). -/
theorem decode_completes (s : State) (cps : List CodePoint) : ∃ t, runInstrs (decodeInstrs cps) s = .next t := by
  by_cases clean : Clean s.cfg.toConfig cps
  · obtain ⟨t, -, run⟩ := decode_clean clean
    exact ⟨_, run⟩
  · obtain ⟨pre, cp, post, rfl, before, offends⟩ := exists_first_offence clean
    obtain ⟨invalid, mixed⟩ := decode_offending cp post before
    obtain bad | ⟨valid, pair⟩ := offence_cases before offends
    · obtain ⟨u, run⟩ := invalid bad
      exact ⟨_, run⟩
    · obtain ⟨u, run⟩ := mixed valid pair
      exact ⟨_, run⟩

/-- What the first offending symbol makes of a stream, on the run's own next state. -/
theorem firstOffence_decides {s t : State} {pre post : List CodePoint} {cp : CodePoint}
    (run : runInstrs (decodeInstrs (pre ++ cp :: post)) s = .next t) (clean : Clean s.cfg.toConfig pre) :
    (classify s.cfg.toConfig cp = .invalid → streamResult s t = .failure .nonAlphabet ∧ t.decErrCp = cp) ∧
    (classify s.cfg.toConfig cp ≠ .invalid → holdsMixed s.cfg.toConfig (pre ++ [cp]) →
      streamResult s t = .failure .mixedVersions ∧ t.decErrCp = cp) := by
  obtain ⟨invalid, mixed⟩ := decode_offending cp post clean
  refine ⟨fun bad => ?_, fun valid pair => ?_⟩
  · obtain ⟨u, run'⟩ := invalid bad
    cases run'.symm.trans run
    exact ⟨rfl, rfl⟩
  · obtain ⟨u, run'⟩ := mixed valid pair
    cases run'.symm.trans run
    exact ⟨rfl, rfl⟩

/-- How a stream that is not clean fails: by the kind of its first offending symbol, which it does hold. -/
theorem decode_notClean {s t : State} {cps : List CodePoint} (run : runInstrs (decodeInstrs cps) s = .next t)
    (notClean : ¬ Clean s.cfg.toConfig cps) :
    (holdsInvalid s.cfg.toConfig cps ∧ streamResult s t = .failure .nonAlphabet) ∨
    (holdsMixed s.cfg.toConfig cps ∧ streamResult s t = .failure .mixedVersions) := by
  obtain ⟨pre, cp, post, rfl, before, offends⟩ := exists_first_offence notClean
  obtain ⟨invalid, mixed⟩ := firstOffence_decides run before
  obtain bad | ⟨valid, pair⟩ := offence_cases before offends
  · exact .inl ⟨⟨cp, by simp, bad⟩, (invalid bad).1⟩
  · exact .inr ⟨holdsMixed_mono (by simp) pair, (mixed valid pair).1⟩

/-- Settles O51: every stream completes (`decode_completes`), its first offending symbol decides
(`firstOffence_decides`), and a stream that has one fails with its error (`decode_notClean`). -/
theorem offendingStreamsAreRejected : Obligations.OffendingStreamsAreRejected := by
  intro s cps
  obtain ⟨t, run⟩ := decode_completes s cps
  refine ⟨t, run, fun mixed noInvalid => ?_, fun invalid noMixed => ?_, ?_, fun frameError => ?_⟩
  · obtain ⟨invalid, -⟩ | ⟨-, failed⟩ := decode_notClean run fun clean => clean.noMixed mixed
    · exact absurd invalid noInvalid
    · exact failed
  · obtain ⟨-, failed⟩ | ⟨mixed, -⟩ := decode_notClean run fun clean => clean.noInvalid invalid
    · exact failed
    · exact absurd mixed noMixed
  · rintro pre cp post rfl noInvalid noMixed
    exact firstOffence_decides run ⟨noInvalid, noMixed⟩
  · by_cases clean : Clean s.cfg.toConfig cps
    · exact ⟨clean.noInvalid, clean.noMixed⟩
    · obtain ⟨-, failed⟩ | ⟨-, failed⟩ := decode_notClean run clean <;> simp [failed] at frameError

end Sys2Proof.Machine
end

section
/-! SUPPORT. What a stream without an offending symbol decodes to: whitespace (43_decoder.md R139), a group closed by
PAD (R137), a message (R144) and two messages in a row (R145). -/

namespace Sys2Proof.Machine

/-! ## Whitespace -/

/-- In an open or failed stream every symbol leaves the configuration, and a stream that is open or failed (R133,
R142). -/
theorem SymStep.inStream {cp : CodePoint} {s t : State} (step : SymStep cp s t)
    (st : s.decSt = .active ∨ s.decSt = .error) : t.cfg = s.cfg ∧ (t.decSt = .active ∨ t.decSt = .error) := by
  refine ⟨by rw [step.decoderFrame], ?_⟩
  cases step with
  | sequence closed => rw [sequenceError_frame]; exact st
  | invalid => exact .inr rfl
  | mixed => exact .inr rfl
  | early v i active => rw [earlyTail_eq]; exact st
  | _ => exact st

theorem runInstrs_cons_congr {i : Instr} {is js : List Instr} {s : State}
    (h : ∀ t, exec i s = .next t → runInstrs is t = runInstrs js t) :
    runInstrs (i :: is) s = runInstrs (i :: js) s := by
  unfold runInstrs
  cases he : exec i s with
  | next t => exact h t he
  | fault e => rfl
  | refused e => rfl

/-- A whitespace symbol can be left out of a stream that has started (R139). -/
theorem runInstrs_skip_ws {cp : CodePoint} {pre : List CodePoint} {is : List Instr} {s : State}
    (ws : classify s.cfg.toConfig cp = .ws) (st : s.decSt = .active ∨ s.decSt = .error) :
    runInstrs (decSymsInstrs pre ++ .decSym cp :: is) s = runInstrs (decSymsInstrs pre ++ is) s := by
  induction pre generalizing s with
  | nil =>
    refine runInstrs_cons_next ?_
    obtain active | failed := st
    · exact (SymStep.ws active ws).exec_eq
    · exact exec_ignored failed rfl nofun
  | cons p pre ih =>
    refine runInstrs_cons_congr fun t he => ?_
    obtain ⟨cfg, st'⟩ := (decSym_cases he).inStream st
    exact ih (by rw [cfg, ws]) st'

/-- Whitespace can be left out of a decoded stream, wherever it stands (R139). -/
theorem decode_skip_ws {s : State} {cp : CodePoint} (pre post : List CodePoint)
    (ws : classify s.cfg.toConfig cp = .ws) :
    runInstrs (decodeInstrs (pre ++ cp :: post)) s = runInstrs (decodeInstrs (pre ++ post)) s := by
  have skip := runInstrs_skip_ws (pre := pre) (is := decSymsInstrs post ++ [.decEnd]) (s := streamStart s) ws
    (.inl rfl)
  simpa [decodeInstrs, decSymsInstrs, runInstrs_cons_next (exec_decStart s)] using skip

/-- Settles O38: the symbol itself by `SymStep.ws`, its place in the whitespace set by `classify_eq_iff`, and its place
in a stream by `decode_skip_ws`. -/
theorem whitespaceIsSkipped : Obligations.WhitespaceIsSkipped := by
  intro s cp active ws
  have lb := s.cfg.meetsR98.facts.lbIsWs
  exact ⟨(SymStep.ws active ws).exec_eq, (classify_eq_iff s.cfg.meetsR98 cp .ws).1 ws, lb,
    classify_whitespace s.cfg.meetsR98 lb, fun pre post r cfg => decode_skip_ws pre post (cfg ▸ ws)⟩

/-- The decoder undoes wrapping: a stream decodes as it does without its line breaks (R139). -/
theorem decode_filter_breaks (s : State) (pre cps : List CodePoint) :
    runInstrs (decodeInstrs (pre ++ cps)) s =
      runInstrs (decodeInstrs (pre ++ cps.filter (fun cp => cp != s.cfg.lbCp))) s := by
  induction cps generalizing pre with
  | nil => rfl
  | cons cp cps ih =>
    by_cases isBreak : cp = s.cfg.lbCp
    · rw [decode_skip_ws pre cps (isBreak ▸ classify_whitespace s.cfg.meetsR98 s.cfg.meetsR98.facts.lbIsWs), ih,
        List.filter_cons_of_neg (by simpa using isBreak)]
    · rw [List.filter_cons_of_pos (by simpa using isBreak), ← List.singleton_append, ← List.append_assoc, ih]
      simp

/-! ## Streams that match the grammar -/

/-- A clean stream that matches the group grammar ends `DONE` with the grammar's bytes (R88, R140). -/
theorem decode_grammar {s : State} {cps : List CodePoint} {bs : List Byte} (clean : Clean s.cfg.toConfig cps)
    (matched : streamBytes [] (cps.map (classify s.cfg.toConfig)) = some bs) :
    ∃ t, runInstrs (decodeInstrs cps) s = .next t ∧ t.decSt = .done ∧ t.byteOut = s.byteOut ++ bs := by
  obtain ⟨t, read, run⟩ := decode_clean clean
  obtain ⟨acc, out, pending, appended, grammar⟩ := read.groups
  have atEnd := (grammar []).symm.trans (by rw [List.append_nil, matched])
  split_ifs at atEnd with early
  obtain ⟨last, closed, rfl⟩ := Option.map_eq_some_iff.1 atEnd
  obtain ⟨rfl, rfl⟩ := streamBytes_nil_eq_some.1 closed
  have count : t.decCnt = 0 := Fin.ext (decPending_length pending).symm
  refine ⟨_, run, ?_⟩
  simp [endStream, early, count, appended]

/-- Symbols of one variant and line breaks make a clean stream (R127). -/
theorem clean_of_oneVariant {c : AdmittedConfig} {v : Variant} {cps : List CodePoint}
    (symbols : ∀ cp ∈ cps, SymbolOf c.alphabet v cp ∨ cp = c.lbCp) : Clean c.toConfig cps := by
  have oneVariant {w : Variant} : holdsVariant c.toConfig w cps → w = v := by
    rintro ⟨cp, mem, variant⟩
    obtain symbol | rfl := symbols cp mem
    · exact symbol.variant_eq c.meetsR98 variant
    · rw [classVariant_lbCp] at variant
      cases variant
  refine ⟨?_, fun ⟨one, two⟩ => by cases (oneVariant one).trans (oneVariant two).symm⟩
  rintro ⟨cp, mem, invalid⟩
  obtain ⟨noSymbol, noWs⟩ := (classify_eq_iff c.meetsR98 cp .invalid).1 invalid
  obtain (⟨i, rfl⟩ | ⟨j, rfl⟩ | rfl) | rfl := symbols cp mem
  · exact noSymbol (main_mem_words _ v i)
  · exact noSymbol (tail_mem_words _ v j)
  · exact noSymbol (pad_mem_words _)
  · exact noWs c.meetsR98.facts.lbIsWs

/-- Up to three Mains are pending after an empty group (R88). -/
theorem streamBytes_mains {c : Config} (h : c.Admitted) (v : Variant) (cs : List Chunk) {acc : List Chunk}
    (short : acc.length + cs.length ≤ 3) (rest : List CpClass) :
    streamBytes acc ((cs.map (c.alphabet.main v)).map (classify c) ++ rest) = streamBytes (acc ++ cs) rest := by
  induction cs generalizing acc with
  | nil => simp
  | cons i cs ih =>
    simp only [List.length_cons] at short
    rw [List.map_cons, List.map_cons, List.cons_append, classify_main h, streamBytes_main (by omega),
      ih (by simp; omega), List.append_assoc, List.singleton_append]

/-! ## Padding bits (R137) -/

/-- `UnpackPad` does not read the low `2k` bits of the last of its `k` chunks (R115). -/
theorem unpackPad_congr {pre : List Chunk} {c c' : Chunk} (short : pre.length < 3)
    (high : c.toNat / 4 ^ (pre.length + 1) = c'.toNat / 4 ^ (pre.length + 1)) :
    unpackPad (pre ++ [c]) = unpackPad (pre ++ [c']) := by
  match pre, short, high with
  | [], _, high =>
    have last : unpackFirst c = unpackFirst c' := BitVec.eq_of_toNat_eq (by simpa [unpackFirst_toNat] using high)
    simp [unpackPad, last]
  | [c0], _, high =>
    have last : unpackSecond c0 c = unpackSecond c0 c' :=
      BitVec.eq_of_toNat_eq (by simpa [unpackSecond_toNat] using high)
    simp [unpackPad, last]
  | [c0, c1], _, high =>
    have last : unpackThird c1 c = unpackThird c1 c' :=
      BitVec.eq_of_toNat_eq (by simpa [unpackThird_toNat] using high)
    simp [unpackPad, last]

/-- One to three Mains and a PAD decode to the bytes of `UnpackPad` (R135). -/
theorem decode_mains_pad (s : State) (v : Variant) {cs : List Chunk} (short : cs.length ≤ 3) :
    ∃ t, runInstrs (decodeInstrs (cs.map (s.cfg.alphabet.main v) ++ [s.cfg.alphabet.pad])) s = .next t ∧
      t.decSt = .done ∧ t.byteOut = s.byteOut ++ unpackPad cs := by
  refine decode_grammar (clean_of_oneVariant (v := v) fun cp mem => .inl ?_) ?_
  · obtain main | isPad := List.mem_append.1 mem
    · obtain ⟨i, -, rfl⟩ := List.mem_map.1 main
      exact .inl ⟨i, rfl⟩
    · exact .inr (.inr (List.mem_singleton.1 isPad))
  · rw [List.map_append, streamBytes_mains s.cfg.meetsR98 v cs (by simpa using short), List.map_singleton,
      classify_pad s.cfg.meetsR98, streamBytes_pad]
    simp [streamBytes]

/-- Settles O52: both streams end with the bytes of `UnpackPad` (`decode_mains_pad`), which does not read the padding
(`unpackPad_congr`). -/
theorem paddingBitsAreDiscarded : Obligations.PaddingBitsAreDiscarded := by
  intro s v pre c c' short high
  have upTo3 (x : Chunk) : (pre ++ [x]).length ≤ 3 := by simp; omega
  obtain ⟨t, run, done, bytes⟩ := decode_mains_pad s v (upTo3 c)
  obtain ⟨t', run', done', bytes'⟩ := decode_mains_pad s v (upTo3 c')
  refine ⟨t, t', run, run', done, done', by rw [bytes, bytes', unpackPad_congr short high], ?_⟩
  rw [bytes, List.length_append, unpackPad_length (upTo3 c)]
  simp

/-! ## Messages (R144, R145) -/

theorem streamBytes_pads {c : Config} (h : c.Admitted) (n : Nat) (rest : List CpClass) :
    streamBytes [] ((List.replicate n c.alphabet.pad).map (classify c) ++ rest) = streamBytes [] rest := by
  induction n with
  | zero => rfl
  | succ n ih =>
    rw [List.replicate_succ, List.map_cons, List.cons_append, classify_pad h, streamBytes_pad, ih]
    simp [unpackPad]

/-- A partial group of one to three bytes is framed by one PAD or more, of which the first closes it (R124, R125). -/
theorem fillerPads_eq_replicate (a : Alphabet) (v : Variant) {r : Nat} (nonempty : 1 ≤ r) (short : r ≤ 3) :
    ∃ n, fillerPads a v r = a.pad :: List.replicate n a.pad := by
  cases v with
  | V1 => exact ⟨3 - r, by rw [fillerPads_V1 a nonempty short, ← List.replicate_succ]; congr 1; omega⟩
  | V2 => exact ⟨0, fillerPads_V2 a nonempty short⟩

/-- A final group reads as its bytes and leaves no group open (R88, R117). -/
theorem streamBytes_finalGroup {c : Config} (h : c.Admitted) (v : Variant) {bs : List Byte} (short : bs.length < 5)
    (rest : List CpClass) :
    streamBytes [] ((finalGroupSymbols c.alphabet v bs).map (classify c) ++ rest) =
      (streamBytes [] rest).map (bs ++ ·) := by
  obtain empty | nonempty := Nat.eq_zero_or_pos bs.length
  · obtain rfl := List.eq_nil_of_length_eq_zero empty
    simp
  obtain upTo3 | four : bs.length ≤ 3 ∨ bs.length = 4 := by omega
  · obtain ⟨count, symbols⟩ := finalGroupSymbols_partial c.alphabet v nonempty upTo3
    obtain ⟨n, pads⟩ := fillerPads_eq_replicate c.alphabet v nonempty upTo3
    rw [symbols, pads, List.map_append, List.append_assoc, streamBytes_mains h v _ (by simp; omega), List.map_cons,
      List.cons_append, classify_pad h, List.nil_append, streamBytes_pad, streamBytes_pads h,
      unpackPad_packPartial bs nonempty upTo3]
  · obtain ⟨b0, b1, b2, b3, rfl⟩ := length_four four
    have symbols : finalGroupSymbols c.alphabet v [b0, b1, b2, b3] =
        [packFirst b0 b1, packSecond b1 b2, packThird b2 b3].map (c.alphabet.main v) ++
          [c.alphabet.tail v (b3.extractLsb' 0 2)] := by cases v <;> rfl
    rw [symbols, List.map_append, List.append_assoc, streamBytes_mains h v _ (by simp), List.map_singleton,
      classify_tail h, List.singleton_append, List.nil_append, streamBytes_tail, unpackTail_packed]

/-- A message reads as its bytes and leaves no group open, so what follows it starts afresh (R144, R145). -/
theorem streamBytes_message {c : Config} (h : c.Admitted) (v : Variant) (bs : List Byte) (rest : List CpClass) :
    streamBytes [] ((messageSymbols c.alphabet v bs).map (classify c) ++ rest) =
      (streamBytes [] rest).map (bs ++ ·) := by
  induction bs using groups_induction with
  | short bs hlt => rw [messageSymbols_of_lt _ v hlt, streamBytes_finalGroup h v hlt]
  | group b0 b1 b2 b3 b4 bs ih =>
    have mains : fullGroupSymbols c.alphabet v b0 b1 b2 b3 b4 =
        [(pack5 b0 b1 b2 b3 b4).1, (pack5 b0 b1 b2 b3 b4).2.1, (pack5 b0 b1 b2 b3 b4).2.2.1].map (c.alphabet.main v) ++
          [c.alphabet.main v (pack5 b0 b1 b2 b3 b4).2.2.2] := rfl
    rw [messageSymbols, mains, List.map_append, List.map_append, List.append_assoc, List.append_assoc,
      streamBytes_mains h v _ (by simp), List.map_singleton, classify_main h, List.nil_append, List.singleton_append,
      streamBytes_fourthMain, ih, unpack5_pack5, Option.map_map]
    simp [Function.comp_def]

/-- The symbols of two messages of one variant decode to the bytes of both, from every state (R145). -/
theorem decode_messageSymbols_append (s : State) (v : Variant) (b1 b2 : List Byte) :
    ∃ t, runInstrs (decodeInstrs (messageSymbols s.cfg.alphabet v b1 ++ messageSymbols s.cfg.alphabet v b2)) s =
      .next t ∧ t.decSt = .done ∧ t.byteOut = s.byteOut ++ (b1 ++ b2) := by
  refine decode_grammar (clean_of_oneVariant (v := v) fun cp mem => .inl ?_) ?_
  · exact (List.mem_append.1 mem).elim symbolOf_of_mem_messageSymbols symbolOf_of_mem_messageSymbols
  · have second := streamBytes_message s.cfg.meetsR98 v b2 []
    rw [List.append_nil] at second
    rw [List.map_append, streamBytes_message s.cfg.meetsR98, second]
    simp [streamBytes]

/-- The symbols of a message decode to its bytes, from every state (R144). -/
theorem decode_messageSymbols (s : State) (v : Variant) (bs : List Byte) :
    ∃ t, runInstrs (decodeInstrs (messageSymbols s.cfg.alphabet v bs)) s = .next t ∧
      t.decSt = .done ∧ t.byteOut = s.byteOut ++ bs := by
  simpa using decode_messageSymbols_append s v bs []

/-- The encoder's commands leave the decoder and the configuration alone (R51). -/
theorem encode_sameDecoder {s t : State} {v : Variant} {wrap : WrapCount} {bs : List Byte}
    (run : runInstrs (encodeInstrs v wrap bs) s = .next t) : sameDecoder t s := by
  have encoders : ∀ i ∈ encodeInstrs v wrap bs, isDecoder i = false := by
    intro i mem
    simp only [encodeInstrs, encBytesInstrs, List.cons_append, List.mem_cons, List.mem_append, List.mem_map,
      List.not_mem_nil, or_false] at mem
    obtain rfl | ⟨b, -, rfl⟩ | rfl := mem <;> rfl
  exact runInstrs_keeps (P := fun u => sameDecoder u s) (fun i mem u u' same => same.other_exec (encoders i mem))
    (.refl s) run

/-- Settles O49: without its line breaks, which the decoder skips (`decode_filter_breaks`), the output of `encode` is
the message's symbols, and these decode to its bytes (`decode_messageSymbols`). -/
theorem decodeOfEncodeIsTheInput : Obligations.DecodeOfEncodeIsTheInput := by
  intro s v wrap bs
  obtain ⟨t, run, out⟩ := encode_appends_messageOutput s v wrap bs
  obtain ⟨cfg, -, -, -, -, -, -, -, -, byteOut⟩ := encode_sameDecoder run
  obtain ⟨u, run', done, bytes⟩ := decode_messageSymbols t v bs
  refine ⟨t, u, _, run, out, ?_, done, by rw [bytes, byteOut]⟩
  have unwrapped := decode_filter_breaks t [] (messageOutput t.cfg.toConfig v wrap.toNat bs)
  rw [messageOutput_filter, List.nil_append, List.nil_append, run', cfg] at unwrapped
  exact unwrapped

/-- A message that is not empty starts with a Main symbol of its variant (R84, R87). -/
theorem messageSymbols_eq_main_cons (a : Alphabet) (v : Variant) {bs : List Byte} (nonempty : bs ≠ []) :
    ∃ i rest, messageSymbols a v bs = a.main v i :: rest := by
  induction bs using groups_induction with
  | short bs hlt =>
    rw [messageSymbols_of_lt a v hlt]
    match bs, hlt with
    | [], _ => exact absurd rfl nonempty
    | [_], _ | [_, _], _ | [_, _, _], _ | [_, _, _, _], _ => exact ⟨_, _, rfl⟩
  | group b0 b1 b2 b3 b4 rest ih => exact ⟨_, _, rfl⟩

/-- After a message that is not empty the first symbol of one of another variant is a mixed pair's second (R145). -/
theorem decode_two_variants (s : State) {v1 v2 : Variant} {b1 b2 : List Byte} (ne : v1 ≠ v2) (nonempty1 : b1 ≠ [])
    (nonempty2 : b2 ≠ []) :
    ∃ u cp, (messageSymbols s.cfg.alphabet v2 b2).head? = some cp ∧
      runInstrs (decodeInstrs (messageSymbols s.cfg.alphabet v1 b1 ++ messageSymbols s.cfg.alphabet v2 b2)) s =
        .next (decError .mixedVersions cp u) := by
  obtain ⟨i, rest1, first⟩ := messageSymbols_eq_main_cons s.cfg.alphabet v1 nonempty1
  obtain ⟨j, rest2, second⟩ := messageSymbols_eq_main_cons s.cfg.alphabet v2 nonempty2
  have clean : Clean s.cfg.toConfig (messageSymbols s.cfg.alphabet v1 b1) :=
    clean_of_oneVariant fun cp mem => .inl (symbolOf_of_mem_messageSymbols mem)
  have holdsV1 : holdsVariant s.cfg.toConfig v1 (messageSymbols s.cfg.alphabet v1 b1) :=
    ⟨_, by rw [first]; exact List.mem_cons_self, by rw [classify_main s.cfg.meetsR98]; rfl⟩
  have isV2 : classVariant (classify s.cfg.toConfig (s.cfg.alphabet.main v2 j)) = some v2 := by
    rw [classify_main s.cfg.meetsR98]; rfl
  obtain ⟨u, run⟩ := (decode_offending (s.cfg.alphabet.main v2 j) rest2 clean).2
    (by rw [classify_main s.cfg.meetsR98]; nofun)
    (holdsMixed_iff.2 ⟨v1, v2, ne, holdsVariant_snoc.2 (.inl holdsV1), holdsVariant_snoc.2 (.inr isV2)⟩)
  exact ⟨u, _, by rw [second]; rfl, by rw [second, run]⟩

/-- Settles O50: of one variant by `decode_messageSymbols_append`, of two by `decode_two_variants`; the outputs of the
two runs are the messages' symbols, and the stream completes in any case (`decode_completes`). -/
theorem concatenatedMessagesDecodeTogether : Obligations.ConcatenatedMessagesDecodeTogether := by
  intro s s1 s2 v1 v2 b1 b2 out1 out2 run1 appended1 run2 appended2
  obtain ⟨cfg1, -⟩ := encode_sameDecoder run1
  obtain ⟨cfg2, -⟩ := encode_sameDecoder run2
  obtain rfl : out1 = messageSymbols s2.cfg.alphabet v1 b1 := by
    rw [cfg2, cfg1]
    exact List.append_cancel_left (appended1.symm.trans (encode_symOut run1))
  obtain rfl : out2 = messageSymbols s2.cfg.alphabet v2 b2 := by
    rw [cfg2]
    exact List.append_cancel_left (appended2.symm.trans (encode_symOut run2))
  obtain ⟨t, run⟩ :=
    decode_completes s2 (messageSymbols s2.cfg.alphabet v1 b1 ++ messageSymbols s2.cfg.alphabet v2 b2)
  refine ⟨t, run, ?_, fun ne nonempty1 nonempty2 => ?_⟩
  · rintro rfl
    obtain ⟨t', run', result⟩ := decode_messageSymbols_append s2 v1 b1 b2
    cases run'.symm.trans run
    exact result
  · obtain ⟨u, cp, head, run'⟩ := decode_two_variants s2 ne nonempty1 nonempty2
    cases run'.symm.trans run
    exact ⟨rfl, rfl, head⟩

end Sys2Proof.Machine
end

section
/-! SUPPORT. A legal word is the encoding of its command (30_encoding.md R75 to R81). -/

namespace Sys2Proof

theorem variantBit_variantOfBit_toNat (w : CmdWord) (k : Nat) :
    (variantBit (variantOfBit (w.getLsbD k))).toNat = w.toNat / 2 ^ k % 2 := by
  rw [variantBit_variantOfBit, bit_eq]
  by_cases one : w.toNat / 2 ^ k % 2 = 1
  · simp [one]
  · simp [Nat.mod_two_ne_one.1 one]

/-- Each path of the decoder has fixed every bit of the word: the opcode, the must-be-zero bits, and the fields the
operands are taken from. -/
theorem encode_of_decode {w : CmdWord} {i : Instr} (legal : decode w = .ok i) : encode i = w := by
  have path := decode_path w
  rw [legal] at path
  generalize answered : (Except.ok i : Except Illegal Instr) = answer at path
  have := w.isLt
  apply BitVec.eq_of_toNat_eq
  cases path with
  | encEnd op | decStart op | decEnd op | clrCmdErr op =>
    obtain ⟨mbz, rfl⟩ := whenMbz_eq_ok.1 answered.symm
    simp only [beq_iff_eq, field_eq_iff, BitVec.toNat_ofNat] at mbz
    simp only [encode, formatN_toNat, BitVec.toNat_ofNat]
    omega
  | encStart op =>
    obtain ⟨mbz, rfl⟩ := whenMbz_eq_ok.1 answered.symm
    simp only [beq_iff_eq, field_eq_iff, BitVec.toNat_ofNat] at mbz
    simp only [encode, formatS_toNat, variantBit_variantOfBit_toNat, field_toNat]
    omega
  | encByte op =>
    obtain ⟨mbz, rfl⟩ := whenMbz_eq_ok.1 answered.symm
    simp only [beq_iff_eq, field_eq_iff, BitVec.toNat_ofNat] at mbz
    simp only [encode, formatB_toNat, field_toNat]
    omega
  | decSym op | mapRev op =>
    obtain ⟨mbz, rfl⟩ := whenMbz_eq_ok.1 answered.symm
    simp only [beq_iff_eq, field_eq_iff, BitVec.toNat_ofNat] at mbz
    simp only [encode, formatC_toNat, field_toNat, BitVec.toNat_ofNat]
    omega
  | mapMain op mbz tsel =>
    cases answered
    simp only [field_eq_iff, BitVec.toNat_ofNat] at mbz
    simp only [encode, formatM_toNat, variantBit_variantOfBit_toNat, field_toNat, BitVec.toNat_ofNat]
    omega
  | mapTail op mbz tsel =>
    obtain ⟨mbzIdx, rfl⟩ := whenMbz_eq_ok.1 answered.symm
    simp only [beq_iff_eq, field_eq_iff, BitVec.toNat_ofNat] at mbz mbzIdx
    simp only [encode, formatM_toNat, append_toNat, variantBit_variantOfBit_toNat, field_toNat, BitVec.toNat_ofNat]
    omega
  | mapPad op mbz tsel =>
    obtain ⟨mbzRest, rfl⟩ := whenMbz_eq_ok.1 answered.symm
    simp only [Bool.and_eq_true, beq_iff_eq, field_eq_iff, BitVec.toNat_ofNat] at mbz mbzRest
    simp only [encode, formatM_toNat, BitVec.toNat_ofNat]
    omega
  | mapMbz op mbz | mapReserved op mbz tsel | reserved op => cases answered

end Sys2Proof
end

section
/-! SUPPORT. Command errors (60_exceptions.md R155, R158, R159): what a rejected word writes, and how a recorded error
is left. -/

namespace Sys2Proof.Machine

theorem cmdError_first (code : CmdErr) (w : CmdWord) {s : State} (clear : s.cmdErr = .none) :
    cmdError code w s = { s with cmdErr := code, cmdErrWord := w } := by
  rw [cmdError_eq, if_pos clear]

theorem cmdError_sticky (code : CmdErr) (w : CmdWord) {s : State} (recorded : s.cmdErr ≠ .none) :
    cmdError code w s = s := by
  rw [cmdError_eq, if_neg recorded]

/-- Out of sequence: the command needs an open message or stream, and its unit has none and is not in the error state
(R153). -/
theorem rejected_of_raisesSequence {i : Instr} {s : State} (raises : raisesSequence i = true)
    (encClosed : isEncoder i = true → s.encSt = .idle)
    (decClosed : isDecoder i = true → s.decSt = .idle ∨ s.decSt = .done) : Rejected s i := by
  cases i with
  | encByte b => exact encClosed rfl
  | encEnd => exact encClosed rfl
  | decSym cp => exact decClosed rfl
  | decEnd => exact decClosed rfl
  | _ => cases raises

theorem applyCommand_illegal {w : CmdWord} {e : Illegal} (illegal : decode w = .error e) (s : State) :
    applyCommand w s = .next (cmdError .illegalCmd w s) := by
  rw [applyCommand, illegal]
  rfl

/-- The word recorded is the one the host issued (`encode_of_decode`). -/
theorem applyCommand_rejected {w : CmdWord} {i : Instr} {s : State} (legal : decode w = .ok i)
    (rejected : Rejected s i) : applyCommand w s = .next (cmdError .sequence w s) := by
  simp only [applyCommand, legal, exec_rejected rejected, sequenceError, encode_of_decode legal]

/-- Settles O43: both rejections are `cmdError` with the issued word, which is sticky. -/
theorem commandErrorIsStickyAndAlone : Obligations.CommandErrorIsStickyAndAlone := by
  refine fun w s => ⟨fun e illegal => ?_, fun i legal raises encClosed decClosed => ?_⟩
  · rw [applyCommand_illegal illegal]
    exact ⟨fun clear => by rw [cmdError_first _ _ clear], fun recorded => by rw [cmdError_sticky _ _ recorded]⟩
  · rw [applyCommand_rejected legal (rejected_of_raisesSequence raises encClosed decClosed)]
    exact ⟨fun clear => by rw [cmdError_first _ _ clear], fun recorded => by rw [cmdError_sticky _ _ recorded]⟩

/-- A recorded command error stays with its word until `clr.cmderr` clears both (R158). -/
theorem exec_recorded_cmdErr {i : Instr} {s t : State} (recorded : s.cmdErr ≠ .none) (he : exec i s = .next t) :
    (t.cmdErr = s.cmdErr ∧ t.cmdErrWord = s.cmdErrWord) ∨
      (i = .clrCmdErr ∧ t.cmdErr = .none ∧ t.cmdErrWord = 0#32) := by
  by_cases clears : i = .clrCmdErr
  · subst clears
    cases he
    exact .inr ⟨rfl, rfl, rfl⟩
  by_cases rejected : Rejected s i
  · cases (exec_rejected rejected).symm.trans he
    rw [sequenceError, cmdError_sticky _ _ recorded]
    exact .inl ⟨rfl, rfl⟩
  · exact .inl (exec_keeps_cmdErr rejected clears he)

/-- A command moves the command error only where it is rejected or is `clr.cmderr`, and neither touches the decoder
(R159). -/
theorem exec_sameDecoder_of_cmdErr_ne {i : Instr} {s t : State} (he : exec i s = .next t)
    (moved : t.cmdErr ≠ s.cmdErr) : sameDecoder s t := by
  by_cases clears : i = .clrCmdErr
  · subst clears
    exact (sameDecoder.other_exec rfl (.refl s) he).symm
  by_cases rejected : Rejected s i
  · cases (exec_rejected rejected).symm.trans he
    exact (sequenceError_encoderFrame i s).sameDecoder
  · exact absurd (exec_keeps_cmdErr rejected clears he).1 moved

end Sys2Proof.Machine
end

section
/-! SUPPORT. Decode errors (60_exceptions.md R154, R156, R158, R159): which command raises which, and what else can
happen to the decode error. -/

namespace Sys2Proof.Machine

/-- The decode errors each command can raise (R153). -/
def RaisesDecErr : Instr → DecErr → Prop
  | .decSym _, code => code = .nonAlphabet ∨ code = .mixedVersions
  | .decEnd, code => code = .frameTailEarly ∨ code = .frameTruncated
  | _, _ => False

theorem RaisesDecErr.ne_none {i : Instr} {code : DecErr} (raises : RaisesDecErr i code) : code ≠ .none := by
  rintro rfl
  cases i with
  | decSym cp | decEnd => obtain h | h := raises <;> cases h
  | _ => cases raises

/-- Only `dec.end` raises a frame error (R156). -/
theorem RaisesDecErr.symbolError {i : Instr} {code : DecErr} (raises : RaisesDecErr i code) (notEnd : i ≠ .decEnd) :
    code = .nonAlphabet ∨ code = .mixedVersions := by
  cases i with
  | decSym cp => exact raises
  | decEnd => exact absurd rfl notEnd
  | _ => cases raises

/-- `t` shows the decode error of `s`, and is in the error state only where `s` is. -/
def KeepsDecErr (s t : State) : Prop := t.decErr = s.decErr ∧ (t.decSt = .error → s.decSt = .error)

theorem KeepsDecErr.refl (s : State) : KeepsDecErr s s := ⟨rfl, id⟩

theorem sameDecoder.keepsDecErr {s t : State} (h : sameDecoder s t) : KeepsDecErr s t := by
  obtain ⟨-, st, -, -, -, err, -⟩ := h
  exact ⟨err.symm, st.trans⟩

theorem sequenceError_keepsDecErr (i : Instr) (s : State) : KeepsDecErr s (sequenceError i s) :=
  (sequenceError_encoderFrame i s).sameDecoder.keepsDecErr

/-- A pending early Tail is reported before a truncation (R140, R156). -/
theorem endStream_early {s : State} (early : s.decPend = true) :
    endStream s = decError .frameTailEarly s.decPendCp s := by
  rw [endStream, if_pos early]

theorem endStream_decErr_cases (s : State) :
    KeepsDecErr s (endStream s) ∨ ∃ code cp, RaisesDecErr .decEnd code ∧ endStream s = decError code cp s := by
  unfold endStream
  split_ifs
  · exact .inr ⟨_, _, .inl rfl, rfl⟩
  · exact .inr ⟨_, _, .inr rfl, rfl⟩
  · exact .inl ⟨rfl, nofun⟩

theorem SymStep.decErr_cases {cp : CodePoint} {s t : State} (step : SymStep cp s t) :
    KeepsDecErr s t ∨ ∃ code, RaisesDecErr (.decSym cp) code ∧ t = decError code cp s := by
  cases step with
  | sequence st => exact .inl (sequenceError_keepsDecErr _ s)
  | invalid st cl => exact .inr ⟨_, .inl rfl, rfl⟩
  | mixed v v' st cl lock ne => exact .inr ⟨_, .inr rfl, rfl⟩
  | early v i st cl lock cnt => rw [earlyTail_eq]; exact .inl ⟨rfl, id⟩
  | _ => exact .inl ⟨rfl, id⟩

/-- All that a command can do to the decode error: keep it, clear it, or raise one with no other effect (R154, R158). -/
theorem exec_decErr_cases {i : Instr} {s t : State} (he : exec i s = .next t) :
    KeepsDecErr s t ∨ (i = .decStart ∧ t = streamStart s) ∨
      ∃ code cp, RaisesDecErr i code ∧ t = decError code cp s := by
  cases hd : isDecoder i with
  | false => exact .inl (sameDecoder.other_exec hd (.refl s) he).symm.keepsDecErr
  | true =>
    cases i with
    | decStart => cases he; exact .inr (.inl ⟨rfl, rfl⟩)
    | decSym cp =>
      obtain keeps | ⟨code, raises, rfl⟩ := (decSym_cases he).decErr_cases
      · exact .inl keeps
      · exact .inr (.inr ⟨code, cp, raises, rfl⟩)
    | decEnd =>
      obtain ⟨-, rfl⟩ | ⟨-, rfl⟩ | ⟨-, rfl⟩ := decEnd_cases he
      · exact .inl (.refl t)
      · exact .inl (sequenceError_keepsDecErr _ s)
      · exact (endStream_decErr_cases s).imp_right .inr
    | _ => cases hd

/-- Settles O42: a command that enters the error state has raised a decode error (`exec_decErr_cases`). -/
theorem decodeErrorWritesThreeRegisters : Obligations.DecodeErrorWritesThreeRegisters := by
  refine ⟨fun _ _ _ => rfl, fun i s t he notFailed failed => ?_⟩
  obtain ⟨-, kept⟩ | ⟨-, rfl⟩ | ⟨code, cp, raises, rfl⟩ := exec_decErr_cases he
  · exact absurd (kept failed) notFailed
  · cases failed
  · exact ⟨rfl, raises.ne_none⟩

/-- A command that changes the decode error without being `dec.end` opens a stream or rejects a symbol (R156). -/
theorem exec_decErr_of_ne {i : Instr} {s t : State} (notEnd : i ≠ .decEnd) (he : exec i s = .next t)
    (moved : t.decErr ≠ s.decErr) : t.decErr = .none ∨ t.decErr = .nonAlphabet ∨ t.decErr = .mixedVersions := by
  obtain ⟨kept, -⟩ | ⟨-, rfl⟩ | ⟨code, cp, raises, rfl⟩ := exec_decErr_cases he
  · exact absurd kept moved
  · exact .inl rfl
  · exact .inr (raises.symbolError notEnd)

/-- A command that changes the decode error leaves the command error (R159). -/
theorem exec_cmdErr_of_decErr_ne {i : Instr} {s t : State} (he : exec i s = .next t) (moved : t.decErr ≠ s.decErr) :
    t.cmdErr = s.cmdErr ∧ t.cmdErrWord = s.cmdErrWord := by
  obtain ⟨kept, -⟩ | ⟨-, rfl⟩ | ⟨code, cp, raises, rfl⟩ := exec_decErr_cases he
  · exact absurd kept moved
  · exact ⟨rfl, rfl⟩
  · exact ⟨rfl, rfl⟩

/-- In the error state `dec.sym` and `dec.end` are ignored (R142, R156). -/
theorem exec_ignored_in_error {s : State} (failed : s.decSt = .error) (cp : CodePoint) :
    exec (.decSym cp) s = .next s ∧ exec .decEnd s = .next s :=
  ⟨exec_ignored failed rfl nofun, exec_ignored failed rfl nofun⟩

/-- A failed stream stays failed with its records until `dec.start` opens another (R158). -/
theorem exec_failed_cases {i : Instr} {s t : State} (failed : s.decSt = .error) (he : exec i s = .next t) :
    (t.decSt = .error ∧ t.decErr = s.decErr ∧ t.decErrCp = s.decErrCp) ∨ (i = .decStart ∧ t = streamStart s) := by
  by_cases starts : i = .decStart
  · subst starts
    cases he
    exact .inr ⟨rfl, rfl⟩
  · obtain ⟨-, st, -, -, -, err, errCp, -⟩ := sameDecoder.exec_failed failed starts (.refl s) he
    exact .inl ⟨st.trans failed, err, errCp⟩

/-- Settles O44: an illegal word and a command out of sequence are command errors whatever else holds; in an open stream
the symbol's class and the lock decide before anything pending (`SymStep`), and `dec.end` looks at an early Tail
first. -/
theorem oneErrorByPriority : Obligations.OneErrorByPriority := by
  refine ⟨fun w e s illegal clear => ?_, fun i s raises encClosed decClosed clear => ?_,
    fun cp s active => ⟨fun invalid => (SymStep.invalid active invalid).exec_eq,
      fun v v' variant lock ne => (SymStep.mixed v v' active variant lock ne).exec_eq⟩,
    fun s active early _ => ?_, fun i s t => exec_decErr_of_ne, fun s cp failed => exec_ignored_in_error failed cp⟩
  · rw [applyCommand_illegal illegal, cmdError_first _ _ clear]
  · rw [exec_rejected (rejected_of_raisesSequence raises encClosed decClosed), sequenceError,
      cmdError_first _ _ clear]
  · rw [exec_decEnd_active active, endStream_early early]
    rfl

/-- Settles O46: the exits by `exec_failed_cases` and `exec_recorded_cmdErr`, reset by the values it gives, and the
independence of the two kinds by `exec_sameDecoder_of_cmdErr_ne` and `exec_cmdErr_of_decErr_ne`. -/
theorem errorsLeaveOnlyByTheirExits : Obligations.ErrorsLeaveOnlyByTheirExits := by
  refine ⟨fun i s t he failed => ?_, fun i s t he recorded => exec_recorded_cmdErr recorded he,
    fun s => ⟨resetEvent_decSt s, resetEvent_decErr s, resetEvent_cmdErr s⟩,
    fun s cp failed => exec_ignored_in_error failed cp, fun i s t => exec_sameDecoder_of_cmdErr_ne,
    fun i s t => exec_cmdErr_of_decErr_ne⟩
  obtain stays | ⟨starts, rfl⟩ := exec_failed_cases failed he
  · exact .inl stays
  · exact .inr ⟨starts, rfl, rfl, rfl, rfl, rfl⟩

end Sys2Proof.Machine
end

section
/-! SUPPORT. The word of a command reads as the command (30_encoding.md R75 to R81, R83). -/

namespace Sys2Proof

/-- A bit that holds a variant reads as it (R19). -/
theorem variantOfBit_getLsbD {w : CmdWord} {k : Nat} {v : Variant}
    (holds : w.toNat / 2 ^ k % 2 = (variantBit v).toNat) : variantOfBit (w.getLsbD k) = v := by
  rw [bit_eq, holds]
  exact variantOfBit_variantBit v

theorem field_formatN (op : BitVec 4) :
    (formatN op).toNat / 2 ^ 28 = op.toNat ∧ field (formatN op) 0 28 = 0#28 := by
  simp only [field_eq_iff, formatN_toNat, BitVec.toNat_ofNat]
  omega

theorem field_formatS (v : Variant) (wrap : WrapCount) :
    (formatS v wrap).toNat / 2 ^ 28 = 1 ∧ field (formatS v wrap) 24 3 = 0#3 ∧ field (formatS v wrap) 0 24 = wrap ∧
      (formatS v wrap).toNat / 2 ^ 27 % 2 = (variantBit v).toNat := by
  have := (variantBit v).isLt
  have := wrap.isLt
  simp only [field_eq_iff, formatS_toNat, BitVec.toNat_ofNat]
  omega

theorem field_formatB (b : Byte) :
    (formatB b).toNat / 2 ^ 28 = 2 ∧ field (formatB b) 8 20 = 0#20 ∧ field (formatB b) 0 8 = b := by
  have := b.isLt
  simp only [field_eq_iff, formatB_toNat, BitVec.toNat_ofNat]
  omega

theorem field_formatM (v : BitVec 1) (tsel : BitVec 2) (idx : BitVec 10) :
    (formatM v tsel idx).toNat / 2 ^ 28 = 7 ∧ field (formatM v tsel idx) 10 15 = 0#15 ∧
      field (formatM v tsel idx) 25 2 = tsel ∧ field (formatM v tsel idx) 0 10 = idx ∧
      (formatM v tsel idx).toNat / 2 ^ 27 % 2 = v.toNat := by
  have := v.isLt
  have := tsel.isLt
  have := idx.isLt
  simp only [field_eq_iff, formatM_toNat, BitVec.toNat_ofNat]
  omega

theorem decode_encStart_word (v : Variant) (wrap : WrapCount) : decode (formatS v wrap) = .ok (.encStart v wrap) := by
  obtain ⟨op, mbz, operand, variant⟩ := field_formatS v wrap
  rw [decode, field_opcode, op, variantOfBit_getLsbD variant]
  simp [mbz, operand, whenMbz]

theorem decode_encByte_word (b : Byte) : decode (formatB b) = .ok (.encByte b) := by
  obtain ⟨op, mbz, operand⟩ := field_formatB b
  rw [decode, field_opcode, op]
  simp [mbz, operand, whenMbz]

/-- Under opcode 0x7 the sub-form decides (R79). -/
theorem decode_formatM (v : BitVec 1) (tsel : BitVec 2) (idx : BitVec 10) :
    decode (formatM v tsel idx) = decodeMap (formatM v tsel idx) := by
  simp only [decode, field_opcode, (field_formatM v tsel idx).1]

theorem decode_mapMain_word (v : Variant) (i : Chunk) :
    decode (formatM (variantBit v) 0b00#2 i) = .ok (.mapMain v i) := by
  obtain ⟨-, mbz, sub, operand, variant⟩ := field_formatM (variantBit v) 0b00#2 i
  rw [decode_formatM, decodeMap, sub, variantOfBit_getLsbD variant]
  simp [mbz, operand]

theorem decode_mapTail_word (v : Variant) (t : TailIdx) :
    decode (formatM (variantBit v) 0b01#2 (0#8 ++ t)) = .ok (.mapTail v t) := by
  obtain ⟨-, mbz, sub, idx, variant⟩ := field_formatM (variantBit v) 0b01#2 (0#8 ++ t)
  have inner : field (formatM (variantBit v) 0b01#2 (0#8 ++ t)) 2 8 = 0#8 ∧
      field (formatM (variantBit v) 0b01#2 (0#8 ++ t)) 0 2 = t := by
    have := t.isLt
    simp only [field_eq_iff, append_toNat, BitVec.toNat_ofNat] at idx ⊢
    omega
  rw [decode_formatM, decodeMap, sub, variantOfBit_getLsbD variant]
  simp [mbz, inner, whenMbz]

/-- Each word has its command's opcode, zeros in the must-be-zero bits, and the operands in their fields. -/
theorem decode_encode (i : Instr) : decode (encode i) = .ok i := by
  cases i with
  | encStart v wrap => exact decode_encStart_word v wrap
  | encByte b => exact decode_encByte_word b
  | decSym cp => exact decode_decSym_word cp
  | mapMain v i => exact decode_mapMain_word v i
  | mapTail v t => exact decode_mapTail_word v t
  | mapRev cp => exact decode_mapRev_word cp
  | encEnd | decStart | decEnd | mapPad | clrCmdErr => rfl

/-- Settles O2: `decode_encode` one way, `encode_of_decode` the other. -/
theorem decodeAndEncodeAgree : Obligations.DecodeAndEncodeAgree :=
  ⟨fun i _ => decode_encode i, fun _ _ => encode_of_decode⟩

end Sys2Proof
end

section
/-! SUPPORT. A whole message, as the run's next state shows it (30_encoding.md R95). -/

namespace Sys2Proof.Machine

theorem closeMessage_encVar (s : State) : (closeMessage s).encVar = s.encVar := by
  rw [closeMessage_frame]

theorem closeMessage_encWrap (s : State) : (closeMessage s).encWrap = s.encWrap := by
  rw [closeMessage_frame]

/-- The result of a closed message is what it has appended (R95). -/
theorem messageResult_of_closed {s t : State} {out : List CodePoint} (closed : t.encSt = .idle)
    (appended : t.symOut = s.symOut ++ out) : messageResult s t = some out := by
  rw [messageResult, closed, appended, List.drop_left]

/-- Settles O31: the run emits the message on a fresh line and closes it (`runInstrs_encodeInstrs`), which appends the
message with its line breaks (`closeMessage_emitAll_symOut`) and touches encoder registers only. -/
theorem encodeEmitsTheMessage : Obligations.EncodeEmitsTheMessage := by
  intro s v wrap bs
  obtain ⟨buf, run⟩ := runInstrs_encodeInstrs s v wrap bs
  have out := closeMessage_emitAll_symOut (s := messageStart v wrap s) (messageSymbols s.cfg.alphabet v bs) rfl
  have frame : EncoderFrame s (closeMessage (emitAll (messageSymbols s.cfg.alphabet v bs) (messageStart v wrap s))) :=
    (show EncoderFrame s (messageStart v wrap s) from rfl).trans
      ((emitAll_encoderFrame _ _).trans (closeMessage_encoderFrame _))
  exact ⟨_, run, out, messageResult_of_closed rfl out, (closeMessage_encVar _).trans (emitAll_encVar _ _),
    (closeMessage_encWrap _).trans (emitAll_encWrap _ _), rfl, rfl, (encode_sameDecoder run).symm, frame.mapResult,
    (closeMessage_cmdErr _).trans (emitAll_cmdErr _ _), (closeMessage_cmdErrWord _).trans (emitAll_cmdErrWord _ _)⟩

end Sys2Proof.Machine
end

section
/-! SUPPORT. What a stream leaves unchanged (10_state.md R51), and a whole stream against the group grammar
(30_encoding.md R88, R96). -/

namespace Sys2Proof.Machine

/-! ## The frame of a stream -/

/-- `t` is `s` but for the decoder registers and `BYTE_OUT`. -/
abbrev StreamFrame (s t : State) : Prop :=
  t = { s with decSt := t.decSt, decLock := t.decLock, decCnt := t.decCnt, decAcc := t.decAcc, decErr := t.decErr,
               decErrCp := t.decErrCp, decPend := t.decPend, decPendCp := t.decPendCp, byteOut := t.byteOut }

theorem StreamFrame.trans {s t u : State} (h : StreamFrame s t) (k : StreamFrame t u) : StreamFrame s u := by
  rw [h] at k
  exact k

theorem StreamFrame.decoderFrame {s t : State} (h : StreamFrame s t) : DecoderFrame s t := by
  rw [h]

/-- A decoder command that is not rejected leaves the command error too (R133, R140). -/
theorem exec_streamFrame {i : Instr} {s t : State} (hi : isDecoder i = true) (accepted : ¬ Rejected s i)
    (he : exec i s = .next t) : StreamFrame s t := by
  have notClear : i ≠ .clrCmdErr := by
    rintro rfl
    cases hi
  obtain ⟨err, word⟩ := exec_keeps_cmdErr accepted notClear he
  have frame := decoder_frame hi he
  rw [DecoderFrame, err, word] at frame
  exact frame

/-- An open or failed stream. -/
abbrev InStream (s : State) : Prop := s.decSt = .active ∨ s.decSt = .error

/-- In an open or failed stream no decoder command is out of sequence (R153). -/
theorem InStream.accepts {s : State} (st : InStream s) {i : Instr} (hi : isDecoder i = true) : ¬ Rejected s i := by
  have notClosed : ¬ (s.decSt = .idle ∨ s.decSt = .done) := by
    rintro (closed | closed) <;> simp [InStream, closed] at st
  cases i with
  | decStart => exact id
  | decSym cp | decEnd => exact notClosed
  | _ => cases hi

/-- The symbols of a stream and its end touch decoder registers and `BYTE_OUT` only (R133, R140). -/
theorem runInstrs_decSyms_decEnd_frame {cps : List CodePoint} {s t : State} (st : InStream s)
    (run : runInstrs (decSymsInstrs cps ++ [.decEnd]) s = .next t) : StreamFrame s t := by
  induction cps generalizing s with
  | nil =>
    obtain ⟨u, he, rest⟩ := runInstrs_cons_inv run
    cases rest
    exact exec_streamFrame rfl (st.accepts rfl) he
  | cons cp cps ih =>
    obtain ⟨u, he, rest⟩ := runInstrs_cons_inv run
    obtain ⟨-, st'⟩ := (decSym_cases he).inStream st
    exact (exec_streamFrame rfl (st.accepts rfl) he).trans (ih st' rest)

theorem decode_frame {cps : List CodePoint} {s t : State} (run : runInstrs (decodeInstrs cps) s = .next t) :
    StreamFrame s t := by
  obtain ⟨u, he, rest⟩ := runInstrs_cons_inv run
  cases he
  exact (show StreamFrame s (streamStart s) from rfl).trans (runInstrs_decSyms_decEnd_frame (.inl rfl) rest)

/-! ## The result of a stream -/

/-- A stream that ended `DONE` has as its result what it has appended (R96). -/
theorem streamResult_of_done {s t : State} {bs : List Byte} (done : t.decSt = .done)
    (appended : t.byteOut = s.byteOut ++ bs) : streamResult s t = .success bs := by
  rw [streamResult, done, appended, List.drop_left]

/-- A stream that does not match the group grammar ends with a frame error: an early Tail is pending (R136), or a group
is open (R140). -/
theorem StreamRead.frame_error {s t : State} {cps : List CodePoint} (read : StreamRead s cps t)
    (unmatched : streamBytes [] (cps.map (classify s.cfg.toConfig)) = none) :
    streamResult s (endStream t) = .failure .frameTailEarly ∨
      streamResult s (endStream t) = .failure .frameTruncated := by
  by_cases early : t.decPend = true
  · rw [endStream_early early]
    exact .inl rfl
  · obtain ⟨acc, out, pending, -, grammar⟩ := read.groups
    have openGroup : t.decCnt ≠ 0 := by
      intro closed
      have empty : acc = [] := List.eq_nil_of_length_eq_zero (by rw [decPending_length pending, closed]; rfl)
      have atEnd := grammar []
      rw [List.append_nil, unmatched, if_neg early, empty] at atEnd
      cases atEnd
    rw [endStream, if_neg early, if_pos openGroup]
    exact .inr rfl

/-- Without a discriminating symbol the stream stays unlocked (R134). -/
theorem StreamRead.unlocked {s t : State} {cps : List CodePoint} (read : StreamRead s cps t)
    (noVariant : ∀ v, ¬ holdsVariant s.cfg.toConfig v cps) : t.decLock = .unlocked := by
  cases lock : t.decLock with
  | unlocked => rfl
  | locked v => exact absurd ((read.lock v).1 lock) (noVariant v)

/-- Settles O48: a clean stream is read to its end (`decode_clean`), where it has the grammar's bytes (`decode_grammar`)
or a frame error (`StreamRead.frame_error`); the lock is that of the symbols read, which `dec.end` keeps. -/
theorem decodeFollowsTheGroupGrammar : Obligations.DecodeFollowsTheGroupGrammar := by
  intro s cps noInvalid noMixed
  have clean : Clean s.cfg.toConfig cps := ⟨noInvalid, noMixed⟩
  obtain ⟨t, read, run⟩ := decode_clean clean
  have frame := decode_frame run
  refine ⟨_, run, fun bs matched => ?_, read.frame_error,
    fun v holds => (endStream_decLock t).trans ((read.lock v).2 holds),
    fun noVariant => (endStream_decLock t).trans (read.unlocked noVariant), frame.decoderFrame.sameEncoder,
    by rw [frame], by rw [frame]⟩
  obtain ⟨t', run', done, bytes⟩ := decode_grammar clean matched
  cases run'.symm.trans run
  exact ⟨streamResult_of_done done bytes, bytes⟩

end Sys2Proof.Machine
end

section
/-! SUPPORT. Every step under the invariants (10_state.md R50). -/

namespace Sys2Proof.Machine

/-- Settles O55: taking the host's next action off the list touches no register, and applying it completes and keeps the
invariants (`Inv.applyAction_completes`). -/
theorem stepKeepsTheInvariants : Obligations.StepKeepsTheInvariants := by
  intro s inv
  obtain ⟨-, held⟩ | ⟨a, rest, -, applied⟩ := step_cases s
  · exact ⟨s, held, inv⟩
  · rw [applied]
    have taken : Inv { s with pending := rest } := { inv with }
    exact taken.applyAction_completes a

end Sys2Proof.Machine
end

section
/-! SUPPORT. The error records (10_state.md R39 to R43, 60_exceptions.md R153) are kept: the command error's by one rule for
all commands, the decode error's and the pending frame fault's by the paths of the decoder commands. -/

namespace Sys2Proof.Machine

/-- What the word recorded with a command error is (R43, R153). -/
def CmdErrRecord (word : CmdWord) : CmdErr → Prop
  | .none => word = 0#32
  | .illegalCmd => ∃ e, decode word = .error e
  | .sequence => ∃ i, decode word = .ok i ∧ raisesSequence i = true

/-- What the code point recorded with a decode error is (R39, R153). -/
def DecErrRecord (s : State) : DecErr → Prop
  | .none => s.decErrCp = 0#21
  | .nonAlphabet => classify s.cfg.toConfig s.decErrCp = .invalid
  | .mixedVersions =>
    ∃ v v', classVariant (classify s.cfg.toConfig s.decErrCp) = some v ∧ s.decLock = .locked v' ∧ v ≠ v'
  | .frameTailEarly => s.decPend = true ∧ s.decErrCp = s.decPendCp
  | .frameTruncated => s.decErrCp = 0#21 ∧ s.decPend = false ∧ s.decCnt ≠ 0

/-- A pending frame fault's code point is a Tail symbol of the locked variant (R40, R41). -/
def PendRecord (s : State) : Prop :=
  s.decPend = true → ∃ v t, classify s.cfg.toConfig s.decPendCp = .tail v t ∧ s.decLock = .locked v

/-- The records the decoder writes. -/
structure DecRecords (s : State) : Prop where
  err : DecErrRecord s s.decErr
  pend : PendRecord s

theorem errorRecords_iff {s : State} : ErrorRecords s ↔ CmdErrRecord s.cmdErrWord s.cmdErr ∧ DecRecords s := by
  constructor
  · intro h
    refine ⟨?_, ?_, h.pendCpIsTail⟩
    · cases code : s.cmdErr with
      | none => exact h.noCmdErr code
      | illegalCmd => exact h.illegalWord code
      | sequence => exact h.sequenceWord code
    · cases code : s.decErr with
      | none => exact h.noDecErr code
      | nonAlphabet => exact h.nonAlphabetCp code
      | mixedVersions => exact h.mixedCp code
      | frameTailEarly => exact h.tailEarlyCp code
      | frameTruncated => exact h.truncatedCp code
  · rintro ⟨cmd, err, pend⟩
    exact {
      noCmdErr := fun code => by rwa [code] at cmd
      illegalWord := fun code => by rwa [code] at cmd
      sequenceWord := fun code => by rwa [code] at cmd
      noDecErr := fun code => by rwa [code] at err
      nonAlphabetCp := fun code => by rwa [code] at err
      mixedCp := fun code => by rwa [code] at err
      tailEarlyCp := fun code => by rwa [code] at err
      truncatedCp := fun code => by rwa [code] at err
      pendCpIsTail := pend }

/-! ## The command error -/

/-- A word that is recorded raises the error it is recorded with (R155). -/
theorem CmdErrRecord.cmdError {s : State} (h : CmdErrRecord s.cmdErrWord s.cmdErr) {code : CmdErr} {w : CmdWord}
    (raises : CmdErrRecord w code) : CmdErrRecord (cmdError code w s).cmdErrWord (cmdError code w s).cmdErr := by
  by_cases clear : s.cmdErr = .none
  · rw [cmdError_first _ _ clear]
    exact raises
  · rwa [cmdError_sticky _ _ clear]

theorem Rejected.raisesSequence {i : Instr} {s : State} (h : Rejected s i) : raisesSequence i = true := by
  cases i with
  | encByte b | encEnd | decSym cp | decEnd => rfl
  | _ => cases h

theorem CmdErrRecord.exec {i : Instr} {s t : State} (h : CmdErrRecord s.cmdErrWord s.cmdErr)
    (he : exec i s = .next t) : CmdErrRecord t.cmdErrWord t.cmdErr := by
  by_cases clears : i = .clrCmdErr
  · subst clears
    cases he
    exact rfl
  by_cases rejected : Rejected s i
  · cases (exec_rejected rejected).symm.trans he
    exact h.cmdError ⟨i, decode_encode i, rejected.raisesSequence⟩
  · obtain ⟨code, word⟩ := exec_keeps_cmdErr rejected clears he
    rwa [code, word]

/-! ## The decode error -/

/-- The records are about the decoder's registers only. -/
theorem sameDecoder.decRecords {s t : State} (same : sameDecoder s t) (h : DecRecords s) : DecRecords t := by
  obtain ⟨err, pend⟩ := h
  obtain ⟨cfg, -, lock, cnt, -, code, errCp, pending, pendCp, -⟩ := same
  constructor
  · cases c : t.decErr <;> simpa only [DecErrRecord, code, c, cfg, lock, cnt, errCp, pending, pendCp] using err
  · simpa only [PendRecord, cfg, lock, pending, pendCp] using pend

/-- A lock that admits a symbol stays the one a pending Tail was locked to (R134, R136). -/
theorem PendRecord.lock {s : State} (h : PendRecord s) {v : Variant} (admits : Admits s v) :
    PendRecord { s with decLock := .locked v } := by
  intro pending
  obtain ⟨w, t, tail, locked⟩ := h pending
  refine ⟨w, t, tail, ?_⟩
  obtain unlocked | locked' := admits
  · rw [unlocked] at locked
    cases locked
  · exact locked'.symm.trans locked

/-- In an open stream no decode error is recorded. -/
theorem Inv.noDecErr {s : State} (inv : Inv s) (active : s.decSt = .active) : s.decErr = .none := by
  by_contra recorded
  rw [inv.errIffError.1 recorded] at active
  cases active

/-- A path that raises no error: with none recorded before it, there is none after it. -/
theorem DecRecords.ofNoErr {s t : State} (h : DecRecords s) (noErr : s.decErr = .none) (sameErr : t.decErr = s.decErr)
    (sameCp : t.decErrCp = s.decErrCp) (pend : PendRecord t) : DecRecords t := by
  refine ⟨?_, pend⟩
  have none := h.err
  rw [noErr] at none
  rw [sameErr, noErr]
  exact sameCp.trans none

theorem SymStep.decRecords {cp : CodePoint} {s t : State} (step : SymStep cp s t) (inv : Inv s) (h : DecRecords s) :
    DecRecords t := by
  cases step with
  | ignored st => exact h
  | sequence st => exact (sequenceError_encoderFrame _ s).sameDecoder.decRecords h
  | ws st cl => exact h
  | invalid st cl => exact ⟨cl, h.pend⟩
  | mixed v v' st cl lock ne => exact ⟨⟨v, v', cl, lock, ne.symm⟩, h.pend⟩
  | pad cs st cl acc => exact h.ofNoErr (inv.noDecErr st) rfl rfl h.pend
  | main v i st cl lock cnt => exact h.ofNoErr (inv.noDecErr st) rfl rfl (h.pend.lock lock)
  | fourthMain v i c0 c1 c2 st cl lock cnt acc => exact h.ofNoErr (inv.noDecErr st) rfl rfl (h.pend.lock lock)
  | tail v i c0 c1 c2 st cl lock cnt acc => exact h.ofNoErr (inv.noDecErr st) rfl rfl (h.pend.lock lock)
  | early v i st cl lock cnt =>
    rw [earlyTail_eq]
    refine h.ofNoErr (inv.noDecErr st) rfl rfl fun _ => ?_
    by_cases pending : s.decPend = true
    · simpa [pending] using h.pend.lock lock pending
    · exact ⟨v, i, by simpa [pending] using cl, rfl⟩

theorem endStream_decRecords {s : State} (inv : Inv s) (active : s.decSt = .active) (h : DecRecords s) :
    DecRecords (endStream s) := by
  unfold endStream
  split_ifs with early openGroup
  · exact ⟨⟨early, rfl⟩, h.pend⟩
  · exact ⟨⟨rfl, by simpa using early, openGroup⟩, h.pend⟩
  · exact h.ofNoErr (inv.noDecErr active) rfl rfl h.pend

theorem DecRecords.exec {i : Instr} {s t : State} (h : DecRecords s) (inv : Inv s) (he : exec i s = .next t) :
    DecRecords t := by
  cases hd : isDecoder i with
  | false => exact (sameDecoder.other_exec hd (.refl s) he).symm.decRecords h
  | true =>
    cases i with
    | decStart => cases he; exact ⟨rfl, nofun⟩
    | decSym cp => exact (decSym_cases he).decRecords inv h
    | decEnd =>
      obtain ⟨-, rfl⟩ | ⟨-, rfl⟩ | ⟨active, rfl⟩ := decEnd_cases he
      · exact h
      · exact (sequenceError_encoderFrame _ s).sameDecoder.decRecords h
      · exact endStream_decRecords inv active h
    | _ => cases hd

/-! ## Every step -/

theorem resetWith_errorRecords (c : AdmittedConfig) : ErrorRecords (State.resetWith c) :=
  errorRecords_iff.2 ⟨rfl, rfl, nofun⟩

theorem ErrorRecords.applyCommand {w : CmdWord} {s t : State} (h : ErrorRecords s) (inv : Inv s)
    (applied : applyCommand w s = .next t) : ErrorRecords t := by
  obtain ⟨cmd, dec⟩ := errorRecords_iff.1 h
  cases answer : decode w with
  | ok i =>
    have he : Machine.exec i s = .next t := by simpa only [Machine.applyCommand, answer] using applied
    exact errorRecords_iff.2 ⟨cmd.exec he, dec.exec inv he⟩
  | error e =>
    cases (applyCommand_illegal answer s).symm.trans applied
    exact errorRecords_iff.2 ⟨cmd.cmdError ⟨e, answer⟩,
      sameDecoder.decRecords (by rw [cmdError_frame]; exact .refl s) dec⟩

/-- A register read and a drain write no register. -/
theorem ErrorRecords.applyAction {a : HostAction} {s t : State} (h : ErrorRecords s) (inv : Inv s)
    (applied : applyAction a s = .next t) : ErrorRecords t := by
  cases a with
  | command w => exact h.applyCommand inv applied
  | read sel => cases applied; exact { h with }
  | drainSym => cases applied; rw [drainSymbol_frame]; exact { h with }
  | drainByte => cases applied; rw [drainOneByte_frame]; exact { h with }
  | reset => cases applied; exact { resetWith_errorRecords s.cfg with }

/-- Settles O57: the records are those of the command error and those of the decoder (`errorRecords_iff`); a command keeps
the first by `CmdErrRecord.exec` and the second by `DecRecords.exec`, and the other host actions write no record. -/
theorem stepKeepsTheErrorRecords : Obligations.StepKeepsTheErrorRecords := by
  intro s t inv h he
  obtain ⟨-, held⟩ | ⟨a, rest, -, applied⟩ := step_cases s
  · cases held.symm.trans he
    exact h
  · have taken : ErrorRecords { s with pending := rest } := { h with }
    exact taken.applyAction { inv with } (applied.symm.trans he)

end Sys2Proof.Machine
end

section
/-! SUPPORT. The check of a configuration is complete for R98 (40_alphabet_mapper.md R98): the converse of
`Config.Admitted.meets`. -/

namespace Sys2Proof

/-- A table that no two indices share an entry of holds no entry twice. -/
theorem nodup_of_index_injective {k : Nat} {table : Vector CodePoint (2 ^ k)}
    (injective : ∀ i j : BitVec k, table[i.toNat] = table[j.toNat] → i = j) : table.toList.Nodup := by
  refine List.nodup_iff_injective_getElem.2 fun i j same => ?_
  have hi : i.val < 2 ^ k := by simpa using i.isLt
  have hj : j.val < 2 ^ k := by simpa using j.isLt
  have index := congrArg BitVec.toNat (injective (BitVec.ofNat k i) (BitVec.ofNat k j)
    (by simpa [Nat.mod_eq_of_lt hi, Nat.mod_eq_of_lt hj] using same))
  rw [BitVec.toNat_ofNat, BitVec.toNat_ofNat, Nat.mod_eq_of_lt hi, Nat.mod_eq_of_lt hj] at index
  exact Fin.ext index

theorem mainTable_nodup {c : Config} (meets : Machine.MeetsR98 c) (v : Variant) :
    (c.alphabet.mainTable v).toList.Nodup :=
  nodup_of_index_injective (k := 10) (meets.mainInjective v)

theorem tailTable_nodup {c : Config} (meets : Machine.MeetsR98 c) (v : Variant) :
    (c.alphabet.tailTable v).toList.Nodup :=
  nodup_of_index_injective (k := 2) (meets.tailInjective v)

/-- The tables of R98.3, pair by pair. -/
theorem tables_disjoint {c : Config} (meets : Machine.MeetsR98 c) :
    (∀ cp ∈ (c.alphabet.mainTable .V1).toList, cp ∉ (c.alphabet.mainTable .V2).toList) ∧
    (∀ cp ∈ (c.alphabet.tailTable .V1).toList, cp ∉ (c.alphabet.tailTable .V2).toList) ∧
    (∀ v w, ∀ cp ∈ (c.alphabet.mainTable v).toList, cp ∉ (c.alphabet.tailTable w).toList) ∧
    (∀ v, c.alphabet.pad ∉ (c.alphabet.mainTable v).toList) ∧
    (∀ v, c.alphabet.pad ∉ (c.alphabet.tailTable v).toList) := by
  simp only [mem_mainTable, mem_tailTable]
  refine ⟨?_, ?_, ?_, ?_, ?_⟩
  · rintro _ ⟨i, rfl⟩ ⟨j, e⟩
    exact meets.mainsDisjoint i j e.symm
  · rintro _ ⟨t, rfl⟩ ⟨u, e⟩
    exact meets.tailsDisjoint t u e.symm
  · rintro v w _ ⟨i, rfl⟩ ⟨t, e⟩
    exact meets.mainTailDisjoint v w i t e.symm
  · rintro v ⟨i, e⟩
    exact meets.padIsNoMain v i e.symm
  · rintro v ⟨t, e⟩
    exact meets.padIsNoTail v t e.symm

/-- Every ROM word is a code point of Unicode and no whitespace (R98.4, R98.5). -/
theorem words_unicode_not_ws {c : Config} (meets : Machine.MeetsR98 c) :
    ∀ cp ∈ c.alphabet.words, cp.toNat ≤ 0x10FFFF ∧ cp ∉ c.wsSet := by
  intro cp mem
  obtain ⟨v, i, rfl⟩ | ⟨v, t, rfl⟩ | rfl := mem_words.1 mem
  · exact ⟨meets.mainsUnicode v i, meets.mainsNotWhitespace v i⟩
  · exact ⟨meets.tailsUnicode v t, meets.tailsNotWhitespace v t⟩
  · exact ⟨meets.padUnicode, meets.padNotWhitespace⟩

theorem Config.admitted_of_meets {c : Config} (meets : Machine.MeetsR98 c) : c.Admitted := by
  obtain ⟨mains, tails, mainTail, padMain, padTail⟩ := tables_disjoint meets
  have words := words_unicode_not_ws meets
  simp only [Config.Admitted, Config.admitted, Bool.and_eq_true, decide_eq_true_eq, tablesDisjoint_iff,
    List.all_eq_true, List.contains_iff_mem, List.mem_singleton, forall_eq]
  exact ⟨⟨⟨⟨⟨⟨mainTable_nodup meets .V1, mainTable_nodup meets .V2⟩, tailTable_nodup meets .V1,
      tailTable_nodup meets .V2⟩,
    ⟨⟨⟨⟨⟨⟨⟨⟨mains, mainTail .V1 .V1⟩, mainTail .V1 .V2⟩, mainTail .V2 .V1⟩, mainTail .V2 .V2⟩, tails⟩,
      padMain .V1⟩, padMain .V2⟩, padTail .V1⟩, padTail .V2⟩,
    fun cp mem => (words cp mem).1⟩, fun cp mem => (words cp mem).2⟩, meets.lineBreakIsWhitespace⟩

theorem Config.admitted_iff_meets {c : Config} : c.Admitted ↔ Machine.MeetsR98 c :=
  ⟨Config.Admitted.meets, Config.admitted_of_meets⟩

/-- Settles O54: the check `powerOn` makes is R98 (`Config.admitted_iff_meets`); at reset the invariants and the error
records hold. -/
theorem resetMeetsTheInvariants : Obligations.ResetMeetsTheInvariants :=
  ⟨fun _ meets => ⟨⟨_, Config.admitted_iff_meets.2 meets⟩, rfl, dif_pos (Config.admitted_iff_meets.2 meets)⟩,
   fun _ fails => dif_neg (mt Config.admitted_iff_meets.1 fails),
   fun a => ⟨a.meetsR98.meets, Machine.resetWith_inv a, Machine.resetWith_errorRecords a⟩,
   ⟨Config.machine, rfl⟩⟩

end Sys2Proof
end

section
/-! SUPPORT. The opcode map against the decoder (30_encoding.md R80, R81). -/

namespace Sys2Proof

/-- Settles O1: each word computes. -/
theorem specWordsDecodeToTheirCommands : Obligations.SpecWordsDecodeToTheirCommands := by
  unfold Obligations.SpecWordsDecodeToTheirCommands
  decide

/-! ## A word that fits a row decodes -/

/-- A word that fits a row has the row's value in every field that the row's mask fixes whole (R81). -/
theorem field_of_fits {w : CmdWord} {r : OpcodeRow} (fits : w &&& r.maskBits = r.matchBits) (lo len : Nat)
    (fixed : field r.maskBits lo len = BitVec.allOnes len) : field w lo len = field r.matchBits lo len := by
  have masked : field (w &&& r.maskBits) lo len = field w lo len &&& field r.maskBits lo len := BitVec.extractLsb'_and
  rw [← fits, masked, fixed, BitVec.and_allOnes]

/-- A row fixes the opcode and the must-be-zero bits and, for the mapper, the sub-form (R80): where it fits, the decoder
answers. -/
theorem decode_isOk_of_fits {w : CmdWord} {r : OpcodeRow} (mem : r ∈ opcodeMap)
    (fits : w &&& r.maskBits = r.matchBits) : ∃ i, decode w = .ok i := by
  have fixed := field_of_fits fits
  simp only [opcodeMap, List.mem_cons, List.not_mem_nil, or_false] at mem
  obtain rfl | rfl | rfl | rfl | rfl | rfl | rfl | rfl | rfl | rfl | rfl := mem
  · exact ⟨_, by rw [decode, fixed 28 4 rfl, fixed 24 3 rfl]; rfl⟩
  · exact ⟨_, by rw [decode, fixed 28 4 rfl, fixed 8 20 rfl]; rfl⟩
  · exact ⟨_, by rw [decode, fixed 28 4 rfl, fixed 0 28 rfl]; rfl⟩
  · exact ⟨_, by rw [decode, fixed 28 4 rfl, fixed 0 28 rfl]; rfl⟩
  · exact ⟨_, by rw [decode, fixed 28 4 rfl, fixed 21 7 rfl]; rfl⟩
  · exact ⟨_, by rw [decode, fixed 28 4 rfl, fixed 0 28 rfl]; rfl⟩
  · exact ⟨_, by rw [decode, fixed 28 4 rfl, decodeMap, fixed 10 15 rfl, fixed 25 2 rfl]; rfl⟩
  · exact ⟨_, by rw [decode, fixed 28 4 rfl, decodeMap, fixed 10 15 rfl, fixed 25 2 rfl, fixed 2 8 rfl]; rfl⟩
  · exact ⟨_, by
      rw [decode, fixed 28 4 rfl, decodeMap, fixed 10 15 rfl, fixed 25 2 rfl, fixed 27 1 rfl, fixed 0 10 rfl]; rfl⟩
  · exact ⟨_, by rw [decode, fixed 28 4 rfl, fixed 21 7 rfl]; rfl⟩
  · exact ⟨_, by rw [decode, fixed 28 4 rfl, fixed 0 28 rfl]; rfl⟩

/-! ## A command's word fits its row

A word under a mask is each of its parts under the mask's part. -/

theorem formatS_and (v : Variant) (wrap : WrapCount) : formatS v wrap &&& 0xF7000000#32 = 0x10000000#32 := by
  have mask : 0xF7000000#32 = 0xF#4 ++ 0#1 ++ 0x7#3 ++ 0#24 := rfl
  rw [formatS, mask, BitVec.and_append, BitVec.and_append, BitVec.and_append, BitVec.and_zero, BitVec.and_zero]
  rfl

theorem formatB_and (b : Byte) : formatB b &&& 0xFFFFFF00#32 = 0x20000000#32 := by
  have mask : 0xFFFFFF00#32 = 0xF#4 ++ 0xFFFFF#20 ++ 0#8 := rfl
  rw [formatB, mask, BitVec.and_append, BitVec.and_zero]
  rfl

theorem formatC_and (op : BitVec 4) (cp : CodePoint) : formatC op cp &&& 0xFFE00000#32 = op ++ 0#7 ++ 0#21 := by
  have mask : 0xFFE00000#32 = BitVec.allOnes 4 ++ 0x7F#7 ++ 0#21 := rfl
  rw [formatC, mask, BitVec.and_append, BitVec.and_append, BitVec.and_zero, BitVec.and_allOnes]
  rfl

theorem formatM_main_and (v : Variant) (i : Chunk) :
    formatM (variantBit v) 0b00#2 i &&& 0xF7FFFC00#32 = 0x70000000#32 := by
  have mask : 0xF7FFFC00#32 = 0xF#4 ++ 0#1 ++ 0b11#2 ++ 0x7FFF#15 ++ 0#10 := rfl
  rw [formatM, mask, BitVec.and_append, BitVec.and_append, BitVec.and_append, BitVec.and_append, BitVec.and_zero,
    BitVec.and_zero]
  rfl

theorem formatM_tail_and (v : Variant) (t : TailIdx) :
    formatM (variantBit v) 0b01#2 (0#8 ++ t) &&& 0xF7FFFFFC#32 = 0x72000000#32 := by
  have mask : 0xF7FFFFFC#32 = 0xF#4 ++ 0#1 ++ 0b11#2 ++ 0x7FFF#15 ++ (0xFF#8 ++ 0#2) := rfl
  rw [formatM, mask, BitVec.and_append, BitVec.and_append, BitVec.and_append, BitVec.and_append, BitVec.and_append,
    BitVec.and_zero, BitVec.and_zero]
  rfl

/-- A command's word fits its row (R81). -/
theorem encode_fits (i : Instr) : encode i &&& (opcodeRow i).maskBits = (opcodeRow i).matchBits := by
  cases i with
  | encStart v wrap => exact formatS_and v wrap
  | encByte b => exact formatB_and b
  | mapMain v i => exact formatM_main_and v i
  | mapTail v t => exact formatM_tail_and v t
  | decSym cp | mapRev cp => exact formatC_and _ cp
  | encEnd | decStart | decEnd | mapPad | clrCmdErr => rfl

theorem opcodeRow_mem (i : Instr) : opcodeRow i ∈ opcodeMap := by
  cases i <;> simp [opcodeMap, opcodeRow]

/-- Settles O4: a legal word is its command's word (`encode_of_decode`), which fits the command's row; and where any row
fits the decoder answers. -/
theorem decodeAnswersTheFittingRow : Obligations.DecodeAnswersTheFittingRow := by
  intro w
  have fits {i : Instr} (legal : decode w = .ok i) : w &&& (opcodeRow i).maskBits = (opcodeRow i).matchBits := by
    rw [← encode_of_decode legal]
    exact encode_fits i
  refine ⟨fun i legal => ⟨opcodeRow_mem i, fits legal⟩, ?_, fun noRow => ?_⟩
  · rintro ⟨e, illegal⟩ r mem fit
    obtain ⟨i, legal⟩ := decode_isOk_of_fits mem fit
    rw [illegal] at legal
    cases legal
  · cases answer : decode w with
    | ok i => exact absurd (fits answer) (noRow _ (opcodeRow_mem i))
    | error e => exact ⟨e, rfl⟩

/-! ## The words of the assembler (R92) -/

/-- A word is its high part, followed by zeros, or its low part. -/
theorem append_eq_or {n k : Nat} (x : BitVec n) (y : BitVec k) : x ++ y = (x ++ 0#k) ||| y.zeroExtend (n + k) := by
  apply BitVec.eq_of_toNat_eq
  have fits : y.toNat < 2 ^ (n + k) := y.isLt.trans_le (Nat.pow_le_pow_right (by decide) (by omega))
  simp [BitVec.toNat_append, Nat.mod_eq_of_lt fits]

theorem formatB_eq_or (b : Byte) : formatB b = 0x20000000#32 ||| b.zeroExtend 32 :=
  append_eq_or (0x2#4 ++ 0#20) b

theorem formatS_eq_or (v : Variant) (wrap : WrapCount) :
    formatS v wrap = 0x10000000#32 ||| ((variantBit v).zeroExtend 32 <<< 27) ||| wrap.zeroExtend 32 := by
  rw [formatS, append_eq_or]
  cases v <;> rfl

theorem formatM_main_eq_or (v : Variant) (i : Chunk) :
    formatM (variantBit v) 0b00#2 i =
      0x70000000#32 ||| ((variantBit v).zeroExtend 32 <<< 27) ||| i.zeroExtend 32 := by
  rw [formatM, append_eq_or]
  cases v <;> rfl

theorem formatM_tail_eq_or (v : Variant) (t : TailIdx) :
    formatM (variantBit v) 0b01#2 (0#8 ++ t) =
      0x72000000#32 ||| ((variantBit v).zeroExtend 32 <<< 27) ||| t.zeroExtend 32 := by
  have index : 0#8 ++ t = t.zeroExtend 10 := (append_eq_or 0#8 t).trans BitVec.zero_or
  have widen : (t.zeroExtend 10).zeroExtend 32 = t.zeroExtend 32 := BitVec.setWidth_setWidth (by decide)
  rw [index, formatM, append_eq_or, ← widen]
  cases v <;> rfl

/-! ## The assembler (R92 to R96) -/

theorem assemble_of_wellFormed {l : AsmLine} (inRange : l.wellFormed = true) :
    assemble l = some ((expandLine l).map encode) := if_pos inRange

/-- A line of one command has the command's word where its operand is in range, and none elsewhere (R92). -/
theorem assemble_one {l : AsmLine} {i : Instr} {w : CmdWord} {inRange : Prop} [Decidable inRange]
    (range : l.wellFormed = true ↔ inRange) (expansion : expandLine l = [i]) (word : inRange → encode i = w) :
    assemble l = if inRange then some [w] else none := by
  by_cases h : inRange
  · rw [if_pos h, assemble_of_wellFormed (range.2 h), expansion, List.map_singleton, word h]
  · rw [if_neg h, assemble, if_neg (mt range.1 h)]

/-- An operand in range is the same number in its field and in the word. -/
theorem zeroExtend_ofNat {k n : Nat} (narrow : k ≤ 32) (inRange : n < 2 ^ k) :
    (BitVec.ofNat k n).zeroExtend 32 = BitVec.ofNat 32 n :=
  BitVec.setWidth_ofNat_of_le_of_lt narrow inRange

/-- Settles O7: each line by `assemble_one`, its word by the or-form of its format. -/
theorem assemblerMakesTheTabledWords : Obligations.AssemblerMakesTheTabledWords := by
  refine ⟨fun v wrap => assemble_one decide_eq_true_iff rfl fun inRange => ?_,
    fun b => assemble_one decide_eq_true_iff rfl fun inRange => ?_, rfl, rfl,
    fun cp => assemble_one decide_eq_true_iff rfl fun inRange => ?_, rfl,
    fun v i => assemble_one decide_eq_true_iff rfl fun inRange => ?_,
    fun v t => assemble_one decide_eq_true_iff rfl fun inRange => ?_, rfl,
    fun cp => assemble_one decide_eq_true_iff rfl fun inRange => ?_, rfl⟩
  · rw [encode, formatS_eq_or, zeroExtend_ofNat (by decide) inRange]
  · rw [encode, formatB_eq_or, zeroExtend_ofNat (by decide) (by omega)]
  · rw [encode, formatC_eq_or, zeroExtend_ofNat (by decide) (by omega)]
    rfl
  · rw [encode, formatM_main_eq_or, zeroExtend_ofNat (by decide) (by omega)]
  · rw [encode, formatM_tail_eq_or, zeroExtend_ofNat (by decide) (by omega)]
  · rw [encode, formatC_eq_or, zeroExtend_ofNat (by decide) (by omega)]
    rfl

theorem map_ofNat_map_toNat {n : Nat} (xs : List (BitVec n)) : (xs.map BitVec.toNat).map (BitVec.ofNat n) = xs := by
  simp [Function.comp_def]

theorem encBytes_wellFormed (bs : List Byte) : (AsmLine.encBytes (bs.map BitVec.toNat)).wellFormed = true := by
  rw [AsmLine.wellFormed, List.all_map, List.all_eq_true]
  exact fun b _ => Laws.OperandsInRange.encByte b

theorem decSyms_wellFormed (cps : List CodePoint) : (AsmLine.decSyms (cps.map BitVec.toNat)).wellFormed = true := by
  rw [AsmLine.wellFormed, List.all_map, List.all_eq_true]
  exact fun cp _ => Laws.OperandsInRange.decSym cp

theorem encodeMsg_wellFormed (v : Variant) (wrap : WrapCount) (bs : List Byte) :
    (AsmLine.encodeMsg v wrap.toNat (bs.map BitVec.toNat)).wellFormed = true :=
  Bool.and_eq_true_iff.2 ⟨Laws.OperandsInRange.encStart v wrap, encBytes_wellFormed bs⟩

theorem decodeStream_wellFormed (cps : List CodePoint) :
    (AsmLine.decodeStream (cps.map BitVec.toNat)).wellFormed = true :=
  decSyms_wellFormed cps

/-- The words of commands run as the commands: each word decodes to its command (R147). -/
theorem runWords_encode (is : List Instr) (s : Machine.State) :
    Machine.runWords (is.map encode) s = Machine.runInstrs is s := by
  induction is generalizing s with
  | nil => rfl
  | cons i is ih =>
    have one : Machine.applyCommand (encode i) s = Machine.exec i s := by rw [Machine.applyCommand, decode_encode]
    rw [List.map_cons, Machine.runWords, one, Machine.runInstrs]
    cases Machine.exec i s with
    | next t => exact ih t
    | fault e => rfl
    | refused e => rfl

/-- Settles O8: operands held in their fields' widths are in range, so each line has the words of its expansion; and words
run as the commands they decode to. -/
theorem pseudoInstructionsRunAsTheirExpansion : Obligations.PseudoInstructionsRunAsTheirExpansion := by
  refine ⟨fun bs => ?_, fun cps => ?_, fun v wrap bs => ?_, fun cps => ?_, runWords_encode⟩
  · rw [assemble_of_wellFormed (encBytes_wellFormed bs), expandLine, map_ofNat_map_toNat, encBytesInstrs, List.map_map]
    rfl
  · rw [assemble_of_wellFormed (decSyms_wellFormed cps), expandLine, map_ofNat_map_toNat, decSymsInstrs, List.map_map]
    rfl
  · rw [assemble_of_wellFormed (encodeMsg_wellFormed v wrap bs), expandLine, map_ofNat_map_toNat, BitVec.ofNat_toNat,
      BitVec.setWidth_eq, encodeInstrs, encBytesInstrs, List.map_append, List.map_cons, List.map_map]
    rfl
  · rw [assemble_of_wellFormed (decodeStream_wellFormed cps), expandLine, map_ofNat_map_toNat, decodeInstrs,
      decSymsInstrs, List.map_append, List.map_cons, List.map_map]
    rfl

end Sys2Proof
end

section
/-! SUPPORT. One step, the reset event and the read port (44_control.md R147 to R149, 70_reset_and_hazards.md R168, R169,
R181). -/

namespace Sys2Proof.Machine

theorem step_of_pending {s : State} {a : HostAction} {rest : List HostAction} (next : s.pending = a :: rest) :
    step s = applyAction a { s with pending := rest } := by
  rw [step, takeAction_cons next]

theorem step_held {s : State} (none : s.pending = []) : step s = .next s := by
  rw [step, takeAction_nil none]

theorem applyCommand_legal {w : CmdWord} {i : Instr} (legal : decode w = .ok i) (s : State) :
    applyCommand w s = exec i s := by
  rw [applyCommand, legal]

/-- Settles O9: the host's next action is taken (`step_of_pending`) and applied. -/
theorem stepAppliesTheHostsNextAction : Obligations.StepAppliesTheHostsNextAction := by
  refine ⟨fun s w i rest next legal _ => ?_, fun s w e rest next illegal => ?_, fun s sel rest next => ?_,
    fun s rest next => ?_, fun s cp rest next unread => ?_, fun s b rest next unread => ?_, fun s rest next => ?_,
    fun s => step_held⟩
  · rw [step_of_pending next]
    exact applyCommand_legal legal _
  · rw [step_of_pending next]
    exact applyCommand_illegal illegal _
  · rw [step_of_pending next]
    rfl
  · rw [step_of_pending next]
    rfl
  · rw [step_of_pending next]
    exact congrArg _ (drainSymbol_unread (s := { s with pending := rest }) unread)
  · rw [step_of_pending next]
    exact congrArg _ (drainOneByte_unread (s := { s with pending := rest }) unread)
  · obtain ⟨next, empty⟩ | ⟨next, empty⟩ := next <;> rw [step_of_pending next]
    · exact congrArg _ (drainSymbol_empty (s := { s with pending := rest }) empty)
    · exact congrArg _ (drainOneByte_empty (s := { s with pending := rest }) empty)

/-! ## Reset and the read port -/

/-- The selects without a register read as zero (R48). -/
theorem readReg_unmapped {sel : BitVec 4} (unmapped : 7 ≤ sel.toNat) (s : State) : readReg sel s = 0x00000000#32 := by
  unfold readReg
  split
  case h_8 => rfl
  all_goals omega

/-- The read port shows registers only, so a reset shows zero at every select (R48, R169). -/
theorem readReg_resetWith (c : AdmittedConfig) (sel : BitVec 4) : readReg sel (State.resetWith c) = 0x00000000#32 := by
  unfold readReg
  split
  · exact statusWord_resetWith c
  all_goals rfl

/-- Settles O12: the map is the read port's own case distinction; the selects above it by `readReg_unmapped`. -/
theorem readPortShowsTheRegisterMap : Obligations.ReadPortShowsTheRegisterMap :=
  ⟨fun s => ⟨rfl, rfl, rfl, rfl, rfl, rfl, rfl, fun _ unmapped => readReg_unmapped unmapped s⟩, readReg_resetWith,
   fun _ _ => rfl⟩

/-- Settles O10: the event gives the reset state, and `readReg_resetWith` its read port. -/
theorem resetLeavesTheListedValues : Obligations.ResetLeavesTheListedValues := by
  refine ⟨fun s => ⟨rfl, rfl, rfl, rfl, rfl, fun j h => ?_, rfl, rfl, rfl, fun j h => ?_, rfl, rfl, rfl, rfl, rfl, rfl,
    rfl, rfl, rfl, rfl, rfl, rfl, readReg_resetWith s.cfg⟩, fun s => rfl, rfl⟩
  · simp
  · simp

/-! ## The ROM -/

/-- No command writes the configuration (R46), and none drains an output (R181). -/
theorem exec_keeps_cfg_drained {i : Instr} {s t : State} (he : exec i s = .next t) :
    t.cfg = s.cfg ∧ t.symDrained = s.symDrained ∧ t.byteDrained = s.byteDrained := by
  obtain hi | hi | hm | rfl := instr_cases i
  · rw [encoder_frame hi he]
    exact ⟨rfl, rfl, rfl⟩
  · rw [decoder_frame hi he]
    exact ⟨rfl, rfl, rfl⟩
  · rw [mapper_frame hm he]
    exact ⟨rfl, rfl, rfl⟩
  · cases he
    exact ⟨rfl, rfl, rfl⟩

theorem exec_cfg {i : Instr} {s t : State} (he : exec i s = .next t) : t.cfg = s.cfg :=
  (exec_keeps_cfg_drained he).1

theorem applyCommand_cfg {w : CmdWord} {s t : State} (applied : applyCommand w s = .next t) : t.cfg = s.cfg := by
  cases answer : decode w with
  | ok i => exact exec_cfg ((applyCommand_legal answer s).symm.trans applied)
  | error e =>
    cases (applyCommand_illegal answer s).symm.trans applied
    rw [cmdError_frame]

theorem applyAction_cfg {a : HostAction} {s t : State} (applied : applyAction a s = .next t) : t.cfg = s.cfg := by
  cases a with
  | command w => exact applyCommand_cfg applied
  | read sel => cases applied; rfl
  | drainSym => cases applied; rw [drainSymbol_frame]
  | drainByte => cases applied; rw [drainOneByte_frame]
  | reset => cases applied; rfl

/-- Settles O14: no host action writes the configuration, and a ROM read asks nothing else. -/
theorem nothingWritesTheRom : Obligations.NothingWritesTheRom := by
  intro s t he
  have cfg : t.cfg = s.cfg := by
    obtain ⟨-, held⟩ | ⟨a, rest, -, applied⟩ := step_cases s
    · cases held.symm.trans he
      rfl
    · exact applyAction_cfg (s := { s with pending := rest }) (applied.symm.trans he)
  exact ⟨cfg, fun addr => by rw [cfg]⟩

/-! ## `clr.cmderr` -/

theorem runWords_cons_next {w : CmdWord} {ws : List CmdWord} {s t : State} (applied : applyCommand w s = .next t) :
    runWords (w :: ws) s = runWords ws t := by
  rw [runWords, applied]

/-- Settles O53: with the record cleared, the next illegal word is the first. -/
theorem clrCmdErrClearsTheRecord : Obligations.ClrCmdErrClearsTheRecord := by
  refine fun s => ⟨rfl, fun w e illegal => ?_⟩
  have cleared : applyCommand 0x90000000#32 s = .next { s with cmdErr := .none, cmdErrWord := 0#32 } := rfl
  rw [runWords_cons_next cleared, runWords_cons_next (applyCommand_illegal illegal _), cmdError_first _ _ rfl]
  rfl

end Sys2Proof.Machine
end

section
/-! SUPPORT. Single commands of the encoder (42_encoder.md R120 to R123). -/

namespace Sys2Proof.Machine

/-- Settles O24: the command has one path. -/
theorem encStartOpensAMessage : Obligations.EncStartOpensAMessage := fun _ _ _ => rfl

/-! ## `enc.byte` -/

/-- Below four pending bytes the pushed byte is written in place and the count moves on (R121). -/
theorem pushEncByte_eq_set {s : State} {j : Fin 4} (b : Byte) (cnt : s.encCnt = j.castSucc) :
    pushEncByte b s = { s with encBuf := s.encBuf.set j.val (some b), encCnt := j.succ } := by
  have next : s.encCnt + 1 = j.succ := by rw [cnt, Fin.coeSucc_eq_succ]
  have entry : s.encBuf.setIfInBounds s.encCnt.val (some b) = s.encBuf.set j.val (some b) := by
    rw [cnt]
    ext k hk
    simp [Vector.getElem_setIfInBounds, Vector.getElem_set]
  rw [pushEncByte, next, entry]

/-- Settles O25: the path of `enc.byte` below four pending bytes. -/
theorem encByteStoresAPendingByte : Obligations.EncByteStoresAPendingByte := by
  intro s b j active cnt
  have below : s.encCnt.val < 4 := by
    rw [cnt]
    exact j.isLt
  rw [exec_encByte_pending b active below, pushEncByte_eq_set b cnt]

/-- Settles O26: the path of `enc.byte` with four bytes pending. -/
theorem encByteEmitsAFullGroup : Obligations.EncByteEmitsAFullGroup := by
  intro s b0 b1 b2 b3 b active cnt buf
  have pending : encPending s = some [b0, b1, b2, b3] := by
    rw [encPending, cnt, buf]
    rfl
  exact exec_encByte_full b active pending

/-! ## Emission -/

section
variable {s : State} (cp : CodePoint)

theorem emitSym_unwrapped (unwrapped : s.encWrap = 0#24) :
    emitSym cp s = { s with symOut := s.symOut ++ [cp] } := by
  simp [emitSym, wrapAccount, emitRaw, unwrapped]

/-- The symbol that fills its line is followed by the line break (R122). -/
theorem emitSym_full (wrapped : s.encWrap ≠ 0#24) (full : s.encCol.toNat + 1 = s.encWrap.toNat) :
    emitSym cp s = { s with symOut := s.symOut ++ [cp, s.cfg.lbCp], encCol := 0#24 } := by
  simp [emitSym, wrapAccount, emitRaw, wrapped, full]

theorem emitSym_counted (wrapped : s.encWrap ≠ 0#24) (room : s.encCol.toNat + 1 ≠ s.encWrap.toNat) :
    emitSym cp s = { s with symOut := s.symOut ++ [cp], encCol := s.encCol + 1#24 } := by
  simp [emitSym, wrapAccount, emitRaw, wrapped, room]

end

/-- Settles O27: the three cases of `EmitSym`; below the wrap the count does not overflow (R31). -/
theorem emitSymCountsTheLine : Obligations.EmitSymCountsTheLine := by
  refine fun cp s => ⟨rfl, emitSym_unwrapped cp, emitSym_full cp, emitSym_counted cp, fun below room => ?_⟩
  have wrapped : s.encWrap ≠ 0#24 := by bv_omega
  have := s.encWrap.isLt
  rw [emitSym_counted cp wrapped room, BitVec.toNat_add, BitVec.toNat_ofNat]
  omega

/-! ## `enc.end` -/

/-- Where the last line is open and `FINAL_LB` asks for it, a message ends with a line break (R123). -/
theorem finalLineBreak_open {s : State} (isOpen : s.cfg.finalLb = true ∧ s.encWrap ≠ 0#24 ∧ s.encCol ≠ 0#24) :
    finalLineBreak s = { s with symOut := s.symOut ++ [s.cfg.lbCp] } := if_pos isOpen

theorem finalLineBreak_none {s : State} (notOpen : ¬(s.cfg.finalLb = true ∧ s.encWrap ≠ 0#24 ∧ s.encCol ≠ 0#24)) :
    finalLineBreak s = s := if_neg notOpen

/-- Settles O28: the path of `enc.end` in an open message; the state before the message is closed is `finalLineBreak` of
the emission, which keeps `FINAL_LB` and the wrap. -/
theorem encEndFlushesTheGroup : Obligations.EncEndFlushesTheGroup := by
  intro s bs active entries
  have pending : encPending s = some bs := encPending_eq_some.2 entries
  have cfg := emitAll_cfg (finalGroupSymbols s.cfg.alphabet s.encVar bs) s
  have wrap := emitAll_encWrap (finalGroupSymbols s.cfg.alphabet s.encVar bs) s
  refine ⟨emitAll (finalGroupSymbols s.cfg.alphabet s.encVar bs) s, _, rfl, fun isOpen => ?_, fun notOpen => ?_,
    exec_encEnd_active active pending⟩
  · rw [finalLineBreak_open (by rwa [cfg, wrap]), cfg]
  · exact finalLineBreak_none (by rwa [cfg, wrap])

/-! ## Commands out of sequence -/

/-- Settles O29: `exec_rejected`, with the words R75 to R78 give the four commands. -/
theorem outOfSequenceCommandsAreRejected : Obligations.OutOfSequenceCommandsAreRejected := by
  have rejects {s : State} {i : Instr} {w : CmdWord} (rejected : Rejected s i) (word : encode i = w) :
      exec i s = .next (if s.cmdErr = .none then { s with cmdErr := .sequence, cmdErrWord := w } else s) := by
    rw [exec_rejected rejected, sequenceError, cmdError_eq, word]
  exact fun s =>
    ⟨fun idle => ⟨fun b => rejects idle (formatB_eq_or b), rejects idle rfl⟩,
     fun closed => ⟨fun cp => rejects closed (formatC_eq_or 0x5#4 cp), rejects closed rfl⟩⟩

/-! ## Frames -/

/-- Settles O30: the paths of each command; the buffer is written at the count only. -/
theorem encoderCommandsFrame : Obligations.EncoderCommandsFrame := by
  refine fun s t => ⟨fun v wrap he => ?_, fun b active he => ?_, fun active he => ?_, fun i _ he addr => ?_⟩
  · cases he
    rfl
  · obtain ⟨idle, -⟩ | ⟨-, below, rfl⟩ | ⟨-, full, b0, b1, b2, b3, -, rfl⟩ := encByte_cases he
    · rw [active] at idle
      cases idle
    · refine ⟨rfl, fun _ => ⟨rfl, fun j hj ne => ?_⟩, fun full => ?_⟩
      · rw [pushEncByte_encBuf, Vector.getElem_setIfInBounds_ne _ (Ne.symm ne)]
      · rw [full] at below
        exact absurd below (by decide)
    · rw [emitAll_frame]
      exact ⟨rfl, fun notFull => absurd full notFull, fun _ => rfl⟩
  · obtain ⟨idle, -⟩ | ⟨-, bs, -, rfl⟩ := encEnd_cases he
    · rw [active] at idle
      cases idle
    · rw [closeMessage_frame, emitAll_frame]
  · rw [exec_cfg he]

end Sys2Proof.Machine
end

section
/-! SUPPORT. Single commands of the decoder (43_decoder.md R132 to R141). -/

namespace Sys2Proof.Machine

/-- Settles O37: the command has one path. -/
theorem decStartOpensAStream : Obligations.DecStartOpensAStream := fun _ => rfl

/-! ## Frame faults -/

theorem endStream_truncated {s : State} (noEarly : s.decPend = false) (openGroup : s.decCnt ≠ 0) :
    endStream s = decError .frameTruncated 0#21 s := by
  rw [endStream, if_neg (by simp [noEarly]), if_pos openGroup]

theorem endStream_done {s : State} (noEarly : s.decPend = false) (closed : s.decCnt = 0) :
    endStream s = { s with decSt := .done } := by
  rw [endStream, if_neg (by simp [noEarly]), if_neg (by simp [closed])]

/-- Settles O41: the early Tail's path of `SymStep`, which `earlyTail_eq` writes out, and the three ends of `endStream`. -/
theorem frameFaultsWaitForDecEnd : Obligations.FrameFaultsWaitForDecEnd := by
  refine ⟨fun s cp v t active below cl lock => ?_,
    fun s active => ⟨fun early => ?_, fun noEarly openGroup => ?_, fun noEarly closed => ?_⟩⟩
  · rw [(SymStep.early v t active cl lock below).exec_eq, earlyTail_eq]
    exact ⟨fun first => by simp [first], fun recorded => by simp [recorded]⟩
  · rw [exec_decEnd_active active, endStream_early early]
    rfl
  · rw [exec_decEnd_active active, endStream_truncated noEarly openGroup]
    rfl
  · rw [exec_decEnd_active active, endStream_done noEarly closed]

/-! ## Frames -/

/-- A symbol that leaves the stream open records no decode error (R133). -/
theorem SymStep.keeps_decErr {cp : CodePoint} {s t : State} (step : SymStep cp s t) (isOpen : t.decSt = .active) :
    t.decErr = s.decErr ∧ t.decErrCp = s.decErrCp := by
  cases step with
  | sequence st => rw [sequenceError_frame]; exact ⟨rfl, rfl⟩
  | invalid st cl => cases isOpen
  | mixed v v' st cl lock ne => cases isOpen
  | early v i st cl lock cnt => rw [earlyTail_eq]; exact ⟨rfl, rfl⟩
  | _ => exact ⟨rfl, rfl⟩

/-- A symbol writes the next entry of `DEC_ACC` at most (R133). -/
theorem SymStep.keeps_decAcc {cp : CodePoint} {s t : State} (step : SymStep cp s t) {j : Nat} (hj : j < 3)
    (ne : j ≠ s.decCnt.val) : t.decAcc[j] = s.decAcc[j] := by
  cases step with
  | sequence st =>
    have kept : (sequenceError (.decSym cp) s).decAcc = s.decAcc := by rw [sequenceError_frame]
    simp only [kept]
  | main v i st cl lock cnt => rw [pushDecChunk_decAcc, Vector.getElem_setIfInBounds_ne _ (Ne.symm ne)]
  | early v i st cl lock cnt => simp only [earlyTail_eq]
  | _ => rfl

theorem endStream_frame (s : State) :
    endStream s = { s with decSt := (endStream s).decSt, decErr := (endStream s).decErr,
                           decErrCp := (endStream s).decErrCp } := by
  unfold endStream
  split_ifs <;> rfl

/-- Settles O47: an accepted decoder command by `exec_streamFrame`, what a symbol keeps by the paths of `SymStep`. -/
theorem decoderCommandsFrame : Obligations.DecoderCommandsFrame := by
  refine fun s t => ⟨fun he => ?_, fun cp active he => ⟨?_, ?_, ?_⟩, fun active he => ?_, fun he => ?_,
    fun i _ he addr => ?_⟩
  · cases he
    rfl
  · exact exec_streamFrame rfl (InStream.accepts (.inl active) rfl) he
  · exact (decSym_cases he).keeps_decErr
  · exact fun j hj => (decSym_cases he).keeps_decAcc hj
  · cases (exec_decEnd_active active).symm.trans he
    exact endStream_frame s
  · cases he
    rfl
  · rw [exec_cfg he]

end Sys2Proof.Machine
end

section
/-! SUPPORT. The reverse lookup of the mapper (40_alphabet_mapper.md R108, R109). -/

namespace Sys2Proof.Machine

/-- `map.rev` of a code point whose class is known (R108). -/
theorem exec_mapRev {s : State} {cp : CodePoint} {k : CpClass} (cl : classify s.cfg.toConfig cp = k) :
    exec (.mapRev cp) s = .next { s with mapResult := revWord k } := by
  rw [← cl]
  rfl

/-- Settles O20: the class of each kind of code point by `classify_eq_iff`, its word by `revWord_main` and
`revWord_tail`. -/
theorem mapRevClassifiesWithoutLocking : Obligations.MapRevClassifiesWithoutLocking := by
  intro s cp
  have writes (k : CpClass) (standsIn : StandsIn s.cfg.toConfig cp k) :
      exec (.mapRev cp) s = .next { s with mapResult := revWord k } :=
    exec_mapRev ((classify_eq_iff s.cfg.meetsR98 cp k).2 standsIn)
  exact ⟨rfl, fun v i isMain => revWord_main v i ▸ writes (.main v i) isMain.symm,
    fun v t isTail => revWord_tail v t ▸ writes (.tail v t) isTail.symm, writes .pad, writes .ws,
    fun noSymbol noWs => writes .invalid ⟨noSymbol, noWs⟩,
    fun above => exec_mapRev (classify_above_unicode s.cfg.meetsR98 above)⟩

end Sys2Proof.Machine
end

section
/-! SUPPORT. What the unpack functions lose (41_bitpacker.md R115, R116, R118). -/

namespace Sys2Proof.Machine

/-! The bytes in a row, as numbers: the chunks in a row, but for the low bits of the last one. -/

theorem unpackFirst_lost (c0 : Chunk) : unpackFirst c0 ++ c0.extractLsb' 0 2 = c0 :=
  extract_append_extract (m := 8) (k := 2) c0

theorem unpackSecond_lost (c0 c1 : Chunk) :
    unpackFirst c0 ++ unpackSecond c0 c1 ++ c1.extractLsb' 0 4 = c0 ++ c1 := by
  apply BitVec.eq_of_toNat_eq
  simp only [append_toNat, unpackFirst_toNat, unpackSecond_toNat, extract_toNat]
  omega

theorem unpackThird_lost (c0 c1 c2 : Chunk) :
    unpackFirst c0 ++ unpackSecond c0 c1 ++ unpackThird c1 c2 ++ c2.extractLsb' 0 6 = c0 ++ c1 ++ c2 := by
  apply BitVec.eq_of_toNat_eq
  simp only [append_toNat, unpackFirst_toNat, unpackSecond_toNat, unpackThird_toNat, extract_toNat]
  omega

theorem unpackTail_append (c0 c1 c2 : Chunk) (t : TailIdx) :
    unpackFirst c0 ++ unpackSecond c0 c1 ++ unpackThird c1 c2 ++ (c2.extractLsb' 0 6 ++ t) = c0 ++ c1 ++ c2 ++ t := by
  apply BitVec.eq_of_toNat_eq
  simp only [append_toNat, unpackFirst_toNat, unpackSecond_toNat, unpackThird_toNat, extract_toNat]
  omega

/-! Equal bytes, from equal chunks but for the lost bits. -/

theorem unpackFirst_inj {c c' : Chunk} : unpackFirst c = unpackFirst c' ↔ c.toNat / 4 = c'.toNat / 4 := by
  rw [← BitVec.toNat_inj, unpackFirst_toNat, unpackFirst_toNat]

theorem unpackSecond_inj {c0 d0 c d : Chunk} :
    unpackFirst c0 = unpackFirst d0 ∧ unpackSecond c0 c = unpackSecond d0 d ↔ c0 = d0 ∧ c.toNat / 16 = d.toNat / 16 := by
  have := c.isLt
  have := d.isLt
  simp only [← BitVec.toNat_inj, unpackFirst_toNat, unpackSecond_toNat]
  omega

theorem unpackThird_inj {c0 c1 d0 d1 c d : Chunk} :
    unpackFirst c0 = unpackFirst d0 ∧ unpackSecond c0 c1 = unpackSecond d0 d1 ∧ unpackThird c1 c = unpackThird d1 d ↔
      c0 = d0 ∧ c1 = d1 ∧ c.toNat / 64 = d.toNat / 64 := by
  have := c.isLt
  have := d.isLt
  have := c1.isLt
  have := d1.isLt
  simp only [← BitVec.toNat_inj, unpackFirst_toNat, unpackSecond_toNat, unpackThird_toNat]
  omega

/-- `UnpackPad` agrees exactly where the chunks do but for the low `2k` bits of the last of `k` (R118). -/
theorem unpackPad_eq_iff {pre pre' : List Chunk} {c c' : Chunk} (short : pre.length < 3)
    (same : pre'.length = pre.length) :
    unpackPad (pre ++ [c]) = unpackPad (pre' ++ [c']) ↔
      pre = pre' ∧ c.toNat / 4 ^ (pre.length + 1) = c'.toNat / 4 ^ (pre.length + 1) := by
  match pre, pre', short, same with
  | [], [], _, _ => simpa [unpackPad] using unpackFirst_inj
  | [c0], [d0], _, _ => simpa [unpackPad] using unpackSecond_inj
  | [c0, c1], [d0, d1], _, _ => simpa [unpackPad, and_assoc] using unpackThird_inj

theorem unpack5_injective {c0 c1 c2 c3 d0 d1 d2 d3 : Chunk} (same : unpack5 c0 c1 c2 c3 = unpack5 d0 d1 d2 d3) :
    c0 = d0 ∧ c1 = d1 ∧ c2 = d2 ∧ c3 = d3 := by
  simp only [unpack5, List.cons.injEq, and_true] at same
  obtain ⟨b0, b1, b2, b3, b4⟩ := same
  have packed := pack5_unpacked c0 c1 c2 c3
  rw [b0, b1, b2, b3, b4, pack5_unpacked] at packed
  simpa [eq_comm] using packed

theorem append_inj {n k : Nat} {x x' : BitVec n} {y y' : BitVec k} (row : x ++ y = x' ++ y') : x = x' ∧ y = y' := by
  constructor
  · rw [← BitVec.extractLsb'_append_eq_left (a := x) (b := y), row, BitVec.extractLsb'_append_eq_left]
  · rw [← BitVec.extractLsb'_append_eq_right (a := x) (b := y), row, BitVec.extractLsb'_append_eq_right]

theorem unpackTail_injective {c0 c1 c2 d0 d1 d2 : Chunk} {t u : TailIdx}
    (same : unpackTail c0 c1 c2 t = unpackTail d0 d1 d2 u) : c0 = d0 ∧ c1 = d1 ∧ c2 = d2 ∧ t = u := by
  simp only [unpackTail, List.cons.injEq, and_true] at same
  obtain ⟨b0, b1, b2, b3⟩ := same
  have row := unpackTail_append c0 c1 c2 t
  rw [b0, b1, b2, b3, unpackTail_append] at row
  obtain ⟨chunks, tail⟩ := append_inj row
  obtain ⟨chunks, third⟩ := append_inj chunks
  obtain ⟨first, second⟩ := append_inj chunks
  exact ⟨first.symm, second.symm, third.symm, tail.symm⟩

/-- Settles O23: the bytes and the lost bits in a row are the chunks in a row; so equal bytes come from chunks that differ in
the lost bits alone. -/
theorem unpackLosesOnlyThePadding : Obligations.UnpackLosesOnlyThePadding :=
  ⟨fun c0 => ⟨_, rfl, unpackFirst_lost c0⟩, fun c0 c1 => ⟨_, _, rfl, unpackSecond_lost c0 c1⟩,
   fun c0 c1 c2 => ⟨_, _, _, rfl, unpackThird_lost c0 c1 c2⟩,
   fun c0 c1 c2 t => ⟨_, _, _, _, rfl, unpackTail_append c0 c1 c2 t⟩, fun _ _ _ _ => unpackPad_eq_iff,
   fun _ _ _ _ _ _ _ _ => unpack5_injective, fun _ _ _ _ _ _ _ _ => unpackTail_injective⟩

end Sys2Proof.Machine
end

section
/-! SUPPORT. How much a command appends to the outputs (44_control.md R147), and how the host drains them
(70_reset_and_hazards.md R181). -/

namespace Sys2Proof.Machine

/-! ## `SYM_OUT` -/

/-- 1 where a final line break may follow: wrapping is on and the line is not empty (R123). -/
def openLine (s : State) : Nat := if s.encWrap ≠ 0#24 ∧ s.encCol ≠ 0#24 then 1 else 0

theorem openLine_le_one (s : State) : openLine s ≤ 1 := by
  unfold openLine
  split_ifs <;> omega

/-- From `s` to `t`, `SYM_OUT` grows by so few elements that with the line break an open line may still get they are no
more than `n`. -/
def EmitsUpTo (n : Nat) (s t : State) : Prop :=
  ∃ syms, t.symOut = s.symOut ++ syms ∧ syms.length + openLine t ≤ n

theorem EmitsUpTo.trans {n m : Nat} {s t u : State} (h : EmitsUpTo n s t) (k : EmitsUpTo m t u) :
    EmitsUpTo (n + m) s u := by
  obtain ⟨l, appended, few⟩ := h
  obtain ⟨l', appended', few'⟩ := k
  refine ⟨l ++ l', by rw [appended', appended, List.append_assoc], ?_⟩
  rw [List.length_append]
  omega

/-- A symbol is one element, or two where it fills its line, which is then empty (R122). -/
theorem emitSym_emitsUpTo (cp : CodePoint) (s : State) : EmitsUpTo 2 s (emitSym cp s) := by
  by_cases unwrapped : s.encWrap = 0#24
  · rw [emitSym_unwrapped cp unwrapped]
    exact ⟨[cp], rfl, Nat.add_le_add_left (openLine_le_one _) 1⟩
  · by_cases full : s.encCol.toNat + 1 = s.encWrap.toNat
    · rw [emitSym_full cp unwrapped full]
      exact ⟨[cp, s.cfg.lbCp], rfl, by simp [openLine]⟩
    · rw [emitSym_counted cp unwrapped full]
      exact ⟨[cp], rfl, Nat.add_le_add_left (openLine_le_one _) 1⟩

theorem emitAll_emitsUpTo {cps : List CodePoint} (nonempty : cps ≠ []) (s : State) :
    EmitsUpTo (2 * cps.length) s (emitAll cps s) := by
  induction cps generalizing s with
  | nil => exact absurd rfl nonempty
  | cons cp cps ih =>
    have first := emitSym_emitsUpTo cp s
    by_cases last : cps = []
    · subst last
      exact first
    · have both := first.trans (ih last (emitSym cp s))
      rwa [show 2 + 2 * cps.length = 2 * (cp :: cps).length by rw [List.length_cons]; omega] at both

/-- Up to four symbols, with their line breaks and the final one, are at most eight elements. -/
theorem emitAll_four_emitsUpTo {cps : List CodePoint} (short : cps.length ≤ 4) (s : State) :
    EmitsUpTo 8 s (emitAll cps s) := by
  by_cases empty : cps = []
  · subst empty
    exact ⟨[], (List.append_nil _).symm, by have := openLine_le_one s; simp; omega⟩
  · obtain ⟨syms, appended, few⟩ := emitAll_emitsUpTo empty s
    exact ⟨syms, appended, by omega⟩

theorem closeMessage_appends {n : Nat} {s t : State} (h : EmitsUpTo n s t) :
    ∃ syms, (closeMessage t).symOut = s.symOut ++ syms ∧ syms.length ≤ n := by
  obtain ⟨syms, appended, few⟩ := h
  by_cases isOpen : t.cfg.finalLb = true ∧ t.encWrap ≠ 0#24 ∧ t.encCol ≠ 0#24
  · refine ⟨syms ++ [t.cfg.lbCp], ?_, ?_⟩
    · rw [closeMessage, finalLineBreak_open isOpen, appended, List.append_assoc]
    · simpa [openLine, isOpen.2] using few
  · refine ⟨syms, ?_, by omega⟩
    rw [closeMessage, finalLineBreak_none isOpen, appended]

theorem endEncGroup_symOut (s : State) : (endEncGroup s).symOut = s.symOut := rfl

theorem symbolCount_le_four (v : Variant) {L : Nat} (short : L < 5) : symbolCount v L ≤ 4 := by
  unfold symbolCount
  split <;> omega

/-- What a command appends to `SYM_OUT` (R120 to R123). -/
theorem exec_symOut {i : Instr} {s t : State} (he : exec i s = .next t) :
    ∃ syms, t.symOut = s.symOut ++ syms ∧ syms.length ≤ 8 ∧
      ((∀ b, i ≠ .encByte b) → i ≠ .encEnd → syms = []) := by
  have silent (same : t.symOut = s.symOut) :
      ∃ syms, t.symOut = s.symOut ++ syms ∧ syms.length ≤ 8 ∧
        ((∀ b, i ≠ .encByte b) → i ≠ .encEnd → syms = []) :=
    ⟨[], by rw [same, List.append_nil], Nat.zero_le _, fun _ _ => rfl⟩
  cases hi : isEncoder i with
  | false =>
    obtain ⟨-, -, -, -, -, -, -, same⟩ := sameEncoder.other_exec (s' := s) hi
      ⟨rfl, rfl, rfl, rfl, rfl, rfl, rfl, rfl⟩ he
    exact silent same
  | true =>
    cases i with
    | encStart v wrap => cases he; exact silent rfl
    | encByte b =>
      obtain ⟨-, rfl⟩ | ⟨-, -, rfl⟩ | ⟨-, -, b0, b1, b2, b3, -, rfl⟩ := encByte_cases he
      · exact silent (by rw [sequenceError_frame])
      · exact silent rfl
      · obtain ⟨syms, appended, few⟩ :=
          emitAll_four_emitsUpTo (cps := fullGroupSymbols s.cfg.alphabet s.encVar b0 b1 b2 b3 b) (Nat.le_refl 4) s
        exact ⟨syms, (endEncGroup_symOut _).trans appended, by omega, fun other => absurd rfl (other b)⟩
    | encEnd =>
      obtain ⟨-, rfl⟩ | ⟨-, bs, pending, rfl⟩ := encEnd_cases he
      · exact silent (by rw [sequenceError_frame])
      · have short : bs.length < 5 := (encPending_length pending).trans_lt s.encCnt.isLt
        have few : (finalGroupSymbols s.cfg.alphabet s.encVar bs).length ≤ 4 := by
          rw [finalGroupSymbols_length _ _ short]
          exact symbolCount_le_four _ short
        obtain ⟨syms, appended, few⟩ := closeMessage_appends (emitAll_four_emitsUpTo few s)
        exact ⟨syms, appended, few, fun _ other => absurd rfl other⟩
    | _ => cases hi

/-! ## `BYTE_OUT` -/

/-- What a symbol appends to `BYTE_OUT` (R133). -/
theorem SymStep.byteOut {cp : CodePoint} {s t : State} (step : SymStep cp s t) :
    ∃ bytes, t.byteOut = s.byteOut ++ bytes ∧ bytes.length ≤ 5 := by
  have silent (same : t.byteOut = s.byteOut) : ∃ bytes, t.byteOut = s.byteOut ++ bytes ∧ bytes.length ≤ 5 :=
    ⟨[], by rw [same, List.append_nil], Nat.zero_le _⟩
  cases step with
  | sequence st => exact silent (by rw [sequenceError_frame])
  | pad cs st cl acc =>
    have count := decPending_length acc
    exact ⟨unpackPad cs, rfl, by rw [unpackPad_length (by omega)]; omega⟩
  | fourthMain v i c0 c1 c2 st cl lock cnt acc => exact ⟨unpack5 c0 c1 c2 i, rfl, Nat.le_refl 5⟩
  | tail v i c0 c1 c2 st cl lock cnt acc => exact ⟨unpackTail c0 c1 c2 i, rfl, Nat.le_succ 4⟩
  | early v i st cl lock cnt => exact silent (by rw [earlyTail_eq])
  | _ => exact silent rfl

theorem exec_byteOut {i : Instr} {s t : State} (he : exec i s = .next t) :
    ∃ bytes, t.byteOut = s.byteOut ++ bytes ∧ bytes.length ≤ 5 ∧ ((∀ cp, i ≠ .decSym cp) → bytes = []) := by
  by_cases isSym : ∃ cp, i = .decSym cp
  · obtain ⟨cp, rfl⟩ := isSym
    obtain ⟨bytes, appended, few⟩ := (decSym_cases he).byteOut
    exact ⟨bytes, appended, few, fun other => absurd rfl (other cp)⟩
  · have same : t.byteOut = s.byteOut := by
      cases hi : isDecoder i with
      | false =>
        obtain ⟨-, -, -, -, -, -, -, -, -, same⟩ := sameDecoder.other_exec hi (.refl s) he
        exact same
      | true =>
        cases i with
        | decStart => cases he; rfl
        | decSym cp => exact absurd ⟨cp, rfl⟩ isSym
        | decEnd =>
          obtain ⟨-, rfl⟩ | ⟨-, rfl⟩ | ⟨-, rfl⟩ := decEnd_cases he
          · rfl
          · rw [sequenceError_frame]
          · rw [endStream_frame]
        | _ => cases hi
    exact ⟨[], by rw [same, List.append_nil], Nat.zero_le _, fun _ => rfl⟩

/-! ## Draining -/

theorem runActions_cons_next {a : HostAction} {acts : List HostAction} {s t : State}
    (applied : applyAction a s = .next t) : runActions (a :: acts) s = runActions acts t := by
  rw [runActions, applied]

/-- One more unread element is the oldest one in front of the others. -/
theorem take_succ_drop {α : Type} {l : List α} {d : Nat} (unread : d < l.length) (n : Nat) :
    (l.drop d).take (n + 1) = l[d] :: (l.drop (d + 1)).take n := by
  rw [List.drop_eq_getElem_cons unread, List.take_succ_cons]

theorem drain_symbols (n : Nat) (s : State) (unread : s.symDrained + n ≤ s.symOut.length) :
    runActions (List.replicate n .drainSym) s =
      .next { s with symDrained := s.symDrained + n,
                     replies := s.replies ++ ((s.symOut.drop s.symDrained).take n).map .symbol } := by
  induction n generalizing s with
  | zero => simp [runActions]
  | succ n ih =>
    have oldest : s.symDrained < s.symOut.length := by omega
    have drained : applyAction .drainSym s = .next _ :=
      congrArg Host.Outcome.next (drainSymbol_unread (List.getElem?_eq_getElem oldest))
    rw [List.replicate_succ, runActions_cons_next drained, ih _ (by simp only; omega), take_succ_drop oldest]
    simp only [List.map_cons, List.append_assoc, List.singleton_append, Nat.add_right_comm, Nat.add_assoc]

theorem drain_bytes (n : Nat) (s : State) (unread : s.byteDrained + n ≤ s.byteOut.length) :
    runActions (List.replicate n .drainByte) s =
      .next { s with byteDrained := s.byteDrained + n,
                     replies := s.replies ++ ((s.byteOut.drop s.byteDrained).take n).map .byte } := by
  induction n generalizing s with
  | zero => simp [runActions]
  | succ n ih =>
    have oldest : s.byteDrained < s.byteOut.length := by omega
    have drained : applyAction .drainByte s = .next _ :=
      congrArg Host.Outcome.next (drainOneByte_unread (List.getElem?_eq_getElem oldest))
    rw [List.replicate_succ, runActions_cons_next drained, ih _ (by simp only; omega), take_succ_drop oldest]
    simp only [List.map_cons, List.append_assoc, List.singleton_append, Nat.add_right_comm, Nat.add_assoc]

/-- Settles O13: what a command appends by `exec_symOut` and `exec_byteOut`; draining by induction on the number of
elements. -/
theorem commandsAppendBoundedOutput : Obligations.CommandsAppendBoundedOutput := by
  refine ⟨fun i s t he => ?_, drain_symbols, drain_bytes⟩
  obtain ⟨syms, symbols, fewSymbols, onlyEncoder⟩ := exec_symOut he
  obtain ⟨bytes, appended, fewBytes, onlySym⟩ := exec_byteOut he
  obtain ⟨-, symDrained, byteDrained⟩ := exec_keeps_cfg_drained he
  exact ⟨syms, bytes, symbols, appended, fewSymbols, fewBytes, onlyEncoder, onlySym, symDrained, byteDrained⟩

end Sys2Proof.Machine
end
